-- ==== Sys2Proof/Word.lean ====
section
/-! DEFINITION. The widths the control engine works in: the byte every chip register, operand field and buffer
entry has, and the 32-bit word of the host port and of a command (20_memory.md R80, R88; 30_encoding.md R100). -/

namespace Sys2Proof

/-- One chip register, one operand field, one buffer byte (`u8` of 00_scope.md R10). -/
abbrev Byte := BitVec 8

/-- One host word, and one command word (20_memory.md R80, 30_encoding.md R100). -/
abbrev Word := BitVec 32

/-- `haddr[7:0]`: the host port's word index, the byte offset div 4 (20_memory.md R80). -/
abbrev WordIndex := BitVec 8

end Sys2Proof
end

