-- ==== Sys2Proof/Config.lean ====
section
/-! DEFINITION. What is fixed for one engine: the constants of 00_scope.md R7, the open parameters of R8 with the
constraints of R9, the interface to the chip (the two bus forms of R12 and the trace events of R15), and the values the
spec leaves free, as opaque constants (93_implementation_defined.md I2, I4, I16). -/

namespace Sys2Proof

/-! ## Fixed parameters (00_scope.md R7) -/

namespace Config

/-- PLL reference clock in Hz. -/
abbrev XTAL_HZ : Nat := 27000000
/-- Largest M or N (24-bit hardware field). -/
abbrev MN_MAX : Nat := 0xFFFFFF
/-- Smallest post-divider. -/
abbrev POST_DIVIDER_MIN : Nat := 1
/-- Largest post-divider (90_conflicts.md C1). -/
abbrev POST_DIVIDER_MAX : Nat := 16
/-- AUX completion polls. -/
abbrev AUX_POLL_MAX : Nat := 150
/-- Delay per AUX poll in ms. -/
abbrev AUX_POLL_MS : Nat := 2
/-- AUX status error flags: the low 4 bits. -/
abbrev AUX_ERR_MASK : Byte := 0x0F
/-- AUX data buffer bytes. -/
abbrev AUX_BUF_LEN : Nat := 16
/-- The AUX error-echo value. -/
abbrev ECHO_ERR : Byte := 1
/-- Attempts per 16-byte chunk (90_conflicts.md C2). -/
abbrev EDID_ATTEMPTS : Nat := 3
/-- Offset of the extension-block count. -/
abbrev EDID_COUNT_OFFSET : Byte := 0x7E
/-- I2C-over-AUX EDID device address. -/
abbrev EDID_DDC_ADDR : Byte := 0x50
/-- I2C-over-AUX segment-pointer device address. -/
abbrev EDID_SEG_ADDR : Byte := 0x30
/-- EDID buffer bytes. -/
abbrev EDID_BUF_LEN : Nat := 512
/-- Bytes per EDID chunk. -/
abbrev CHUNK_LEN : Nat := 16
/-- Chunks per 128-byte block group. -/
abbrev CHUNKS_PER_GROUP : Nat := 8
/-- Workaround offset for addresses not in the table. -/
abbrev WA_DEFAULT_OFFSET : Byte := 0x00
/-- Byte the workaround writes. -/
abbrev WA_VALUE : Byte := 0x00
/-- Firmware-loaded poll interval in ms. -/
abbrev FW_POLL_MS : Nat := 1
/-- Power-up attempts before fatal failure. -/
abbrev POWERUP_ATTEMPTS : Nat := 3
/-- HPD poll interval in ms. -/
abbrev HPD_POLL_MS : Nat := 10
/-- HPD polls. -/
abbrev HPD_POLL_MAX : Nat := 10000
/-- Settle delay between M/N-ready low and high in ms. -/
abbrev MN_STROBE_MS : Nat := 1
/-- DSI lane count programmed. -/
abbrev DSI_LANES : Nat := 1

end Config

/-! ## Open parameters (00_scope.md R8, 20_memory.md R86) -/

/-- A chip register location, the pair `(sa, off)` of 00_scope.md R17. -/
structure Loc where
  sa : Byte
  off : Byte
  deriving DecidableEq, Repr, Inhabited

/-- CHIP_MAP, the record of 20_memory.md R86, under the spec's own names: where each chip register used by a
sequence lives, and the masks and codes the sequences use. -/
structure ChipMap where
  /-- AUX buffer-start register, first byte of the AUX data buffer -/
  L_AUX_BUFF_START : Loc
  /-- AUX command register -/
  L_AUX_COMMAND : Loc
  /-- AUX control/status register -/
  L_AUX_CTRL_STATUS : Loc
  /-- AUX target I2C device address -/
  L_AUX_ADDR_7_0 : Loc
  /-- AUX target address, middle byte -/
  L_AUX_ADDR_15_8 : Loc
  /-- AUX target address, top bits -/
  L_AUX_ADDR_19_16 : Loc
  /-- the register holding the AUX reset bit -/
  L_AUX_RST : Loc
  /-- pixel clock, low byte -/
  L_PIXCLK_L : Loc
  /-- pixel clock, high byte -/
  L_PIXCLK_H : Loc
  /-- DSI lane count -/
  L_LANE_CTRL : Loc
  /-- lane-3 polarity swap -/
  L_LANE_SWAP : Loc
  /-- horizontal total, low byte -/
  L_HTOTAL_L : Loc
  /-- horizontal total, high byte -/
  L_HTOTAL_H : Loc
  /-- horizontal active, low byte -/
  L_HACTIVE_L : Loc
  /-- horizontal active, high byte -/
  L_HACTIVE_H : Loc
  /-- horizontal front porch, low byte -/
  L_HFP_L : Loc
  /-- horizontal front porch, high byte -/
  L_HFP_H : Loc
  /-- horizontal sync width, low byte -/
  L_HSYNC_L : Loc
  /-- horizontal sync width, high byte -/
  L_HSYNC_H : Loc
  /-- horizontal back porch, low byte -/
  L_HBP_L : Loc
  /-- horizontal back porch, high byte -/
  L_HBP_H : Loc
  /-- vertical active, low byte -/
  L_VACTIVE_L : Loc
  /-- vertical active, high byte -/
  L_VACTIVE_H : Loc
  /-- vertical front porch -/
  L_VFP : Loc
  /-- vertical sync width -/
  L_VSYNC : Loc
  /-- vertical back porch -/
  L_VBP : Loc
  /-- M, top byte -/
  L_M_23_16 : Loc
  /-- M, middle byte -/
  L_M_15_8 : Loc
  /-- M, low byte -/
  L_M_7_0 : Loc
  /-- N, top byte -/
  L_N_23_16 : Loc
  /-- N, middle byte -/
  L_N_15_8 : Loc
  /-- N, low byte -/
  L_N_7_0 : Loc
  /-- the fixed digital-adjustment constant's register -/
  L_DIG_ADJ : Loc
  /-- post-divider and reference-clock select -/
  L_POSTDIV : Loc
  /-- the register holding the PLL reset-enable bit -/
  L_PLL_RST : Loc
  /-- the register holding the M/N ready strobe bits -/
  L_MN_READY : Loc
  /-- firmware-loaded status -/
  L_FW_LOAD : Loc
  /-- firmware version -/
  L_FW_VER : Loc
  /-- firmware revision -/
  L_FW_REV : Loc
  /-- system status (HPD bit, power-role bit) -/
  L_SYS_STATUS : Loc
  /-- start sequence: HDCP capability -/
  L_HDCP_CAP : Loc
  /-- start sequence: auth flag -/
  L_AUTH : Loc
  /-- start sequence: DRM interrupt enable -/
  L_DRM_INT : Loc
  /-- AUX operation-enable bit -/
  M_AUX_OP_EN : Byte
  /-- AUX address-only mode bit -/
  M_AUX_ADDRONLY : Byte
  /-- AUX reset bit -/
  M_AUX_RST : Byte
  /-- bits of L_AUX_ADDR_19_16 cleared for segment 0 -/
  M_AUX_ADDR_HI_CLR : Byte
  /-- the fixed short-write command code -/
  K_AUX_CMD_SHORT_WRITE : Byte
  /-- command byte of the block-count read -/
  K_AUX_CMD_COUNT_READ : Byte
  /-- the fixed I2C-over-AUX read-16 command code -/
  K_AUX_CMD_READ16 : Byte
  /-- lane-count field of L_LANE_CTRL -/
  M_LANE_COUNT : Byte
  /-- lane-count field value for one lane -/
  K_LANE_1 : Byte
  /-- lane-3 swap bit -/
  M_LANE3_SWAP : Byte
  /-- digital-adjustment constant -/
  K_DIG_ADJ : Byte
  /-- reference-clock-select bit -/
  M_REFCLK_SEL : Byte
  /-- PLL reset-enable bit -/
  M_PLL_RST_EN : Byte
  /-- M ready strobe bit -/
  M_M_READY : Byte
  /-- N ready strobe bit -/
  M_N_READY : Byte
  /-- firmware-loaded bit -/
  M_FW_LOADED : Byte
  /-- hot-plug-detect bit -/
  M_HPD : Byte
  /-- power-role bit -/
  M_ROLE : Byte
  /-- HDCP capability bits to clear -/
  M_HDCP_CAP : Byte
  /-- auth-flag bit -/
  M_AUTH : Byte
  /-- DRM interrupt bit -/
  M_DRM_INT : Byte
  deriving DecidableEq, Repr

/-- The open parameters of 00_scope.md R8. The spec fixes none of them: a model takes each as an argument. -/
structure Params where
  /-- Preferred lower bound of the PLL output, Hz. -/
  PLL_OUT_FREQ_MIN : Nat
  /-- Absolute lower bound of the PLL output, Hz. -/
  PLL_OUT_FREQ_ABS_MIN : Nat
  /-- Absolute upper bound of the PLL output, Hz. -/
  PLL_OUT_FREQ_ABS_MAX : Nat
  /-- Firmware-loaded polls per power-up attempt. -/
  FW_POLL_MAX : Nat
  /-- Delay after power enable, ms. -/
  T_PWR_MS : Nat
  /-- Delay after reset release, ms. -/
  T_RST_MS : Nat
  /-- Delay after power-down, ms. -/
  T_OFF_MS : Nat
  /-- Engine clock cycles per millisecond. -/
  CLK_PER_MS : Nat
  /-- Workaround offset table: (sub-address, offset). -/
  WA_TABLE : List (Byte × Byte)
  /-- Chip register locations, masks and codes. -/
  CHIP_MAP : ChipMap
  /-- Whether a set power-role bit means "power source". -/
  ROLE_SET_MEANS_SOURCE : Bool
  deriving DecidableEq, Repr

/-- The PLL bounds are ordered, and the absolute minimum leaves room for the largest divider (00_scope.md R9). -/
def Params.pllBoundsOk (p : Params) : Bool :=
  decide (1 ≤ p.PLL_OUT_FREQ_ABS_MIN) && decide (p.PLL_OUT_FREQ_ABS_MIN ≤ p.PLL_OUT_FREQ_MIN) &&
  decide (p.PLL_OUT_FREQ_MIN ≤ p.PLL_OUT_FREQ_ABS_MAX) &&
  decide (1 ≤ p.PLL_OUT_FREQ_ABS_MIN / Config.POST_DIVIDER_MAX)

/-- At least one firmware poll, and at least one cycle per millisecond (00_scope.md R9). -/
def Params.countsOk (p : Params) : Bool :=
  decide (1 ≤ p.FW_POLL_MAX) && decide (1 ≤ p.CLK_PER_MS)

/-- The AUX enable bit exists and lies outside the error flags (00_scope.md R9). -/
def Params.auxEnableOk (p : Params) : Bool :=
  decide (p.CHIP_MAP.M_AUX_OP_EN ≠ 0) && decide (p.CHIP_MAP.M_AUX_OP_EN &&& Config.AUX_ERR_MASK = 0)

/-- WA_TABLE has at most five entries with pairwise distinct keys (00_scope.md R8, R9). -/
def Params.waTableOk (p : Params) : Bool :=
  decide (p.WA_TABLE.length ≤ 5) && decide ((p.WA_TABLE.map Prod.fst).Nodup)

/-- The reference-clock-select bit lies outside the post-divider field [3:0] (20_memory.md R86). -/
def Params.refclkOk (p : Params) : Bool :=
  decide (p.CHIP_MAP.M_REFCLK_SEL &&& 0x0F = 0)

/-- The one-lane code lies inside the lane-count field (45_video_config.md R223). -/
def Params.laneOk (p : Params) : Bool :=
  decide (p.CHIP_MAP.K_LANE_1 &&& ~~~p.CHIP_MAP.M_LANE_COUNT = 0)

/-- Parameter well-formedness: every constraint of 00_scope.md R9, 20_memory.md R86 and 45_video_config.md R223. -/
def Params.wf (p : Params) : Bool :=
  p.pllBoundsOk && p.countsOk && p.auxEnableOk && p.waTableOk && p.refclkOk && p.laneOk

/-- P_EX, the example parameter set of 95_test_vectors.md 1.2. A test instantiation, no claim about the chip: it
shows that a parameter set exists, and the tests run on it. -/
def Params.example : Params where
  PLL_OUT_FREQ_MIN := 520000000
  PLL_OUT_FREQ_ABS_MIN := 300000000
  PLL_OUT_FREQ_ABS_MAX := 800000000
  FW_POLL_MAX := 10
  T_PWR_MS := 5
  T_RST_MS := 10
  T_OFF_MS := 20
  CLK_PER_MS := 1000
  WA_TABLE := [(0x11, 0xE1), (0x12, 0xE2), (0x13, 0xE3), (0x14, 0xE4)]
  ROLE_SET_MEANS_SOURCE := true
  CHIP_MAP := {
    L_AUX_BUFF_START := ⟨0x11, 0x30⟩, L_AUX_COMMAND := ⟨0x11, 0x23⟩, L_AUX_CTRL_STATUS := ⟨0x11, 0x24⟩,
    L_AUX_ADDR_7_0 := ⟨0x11, 0x20⟩, L_AUX_ADDR_15_8 := ⟨0x11, 0x21⟩, L_AUX_ADDR_19_16 := ⟨0x11, 0x22⟩,
    L_AUX_RST := ⟨0x15, 0x07⟩, L_PIXCLK_L := ⟨0x12, 0x40⟩, L_PIXCLK_H := ⟨0x12, 0x41⟩,
    L_LANE_CTRL := ⟨0x12, 0x42⟩, L_LANE_SWAP := ⟨0x12, 0x43⟩, L_HTOTAL_L := ⟨0x12, 0x50⟩,
    L_HTOTAL_H := ⟨0x12, 0x51⟩, L_HACTIVE_L := ⟨0x12, 0x52⟩, L_HACTIVE_H := ⟨0x12, 0x53⟩,
    L_HFP_L := ⟨0x12, 0x54⟩, L_HFP_H := ⟨0x12, 0x55⟩, L_HSYNC_L := ⟨0x12, 0x56⟩,
    L_HSYNC_H := ⟨0x12, 0x57⟩, L_HBP_L := ⟨0x12, 0x58⟩, L_HBP_H := ⟨0x12, 0x59⟩,
    L_VACTIVE_L := ⟨0x12, 0x5A⟩, L_VACTIVE_H := ⟨0x12, 0x5B⟩, L_VFP := ⟨0x12, 0x5C⟩,
    L_VSYNC := ⟨0x12, 0x5D⟩, L_VBP := ⟨0x12, 0x5E⟩, L_M_23_16 := ⟨0x12, 0x60⟩,
    L_M_15_8 := ⟨0x12, 0x61⟩, L_M_7_0 := ⟨0x12, 0x62⟩, L_N_23_16 := ⟨0x12, 0x63⟩,
    L_N_15_8 := ⟨0x12, 0x64⟩, L_N_7_0 := ⟨0x12, 0x65⟩, L_DIG_ADJ := ⟨0x12, 0x66⟩,
    L_POSTDIV := ⟨0x12, 0x67⟩, L_PLL_RST := ⟨0x12, 0x68⟩, L_MN_READY := ⟨0x12, 0x69⟩,
    L_FW_LOAD := ⟨0x13, 0x05⟩, L_FW_VER := ⟨0x13, 0x31⟩, L_FW_REV := ⟨0x13, 0x32⟩,
    L_SYS_STATUS := ⟨0x13, 0x45⟩, L_HDCP_CAP := ⟨0x14, 0xEE⟩, L_AUTH := ⟨0x14, 0xEC⟩,
    L_DRM_INT := ⟨0x14, 0xFF⟩, M_AUX_OP_EN := 0x10, M_AUX_ADDRONLY := 0x20,
    M_AUX_RST := 0x04, M_AUX_ADDR_HI_CLR := 0x0F, K_AUX_CMD_SHORT_WRITE := 0xA1,
    K_AUX_CMD_COUNT_READ := 0xA2, K_AUX_CMD_READ16 := 0xA3, M_LANE_COUNT := 0x03,
    K_LANE_1 := 0x01, M_LANE3_SWAP := 0x08, K_DIG_ADJ := 0x3C,
    M_REFCLK_SEL := 0x20, M_PLL_RST_EN := 0x40, M_M_READY := 0x01,
    M_N_READY := 0x02, M_FW_LOADED := 0x80, M_HPD := 0x80,
    M_ROLE := 0x01, M_HDCP_CAP := 0x60, M_AUTH := 0x10,
    M_DRM_INT := 0x01 }

/-- A parameter set that meets its constraints. A set that breaks one has no value of this type, so no engine can be
built on it: this is the refusal 00_scope.md R9 and 93_implementation_defined.md I17 ask for. DEDUCED, safe: that the
constraints of R8, R86 and R223 are refused likewise (log entry 2). -/
structure ParamSet where
  params : Params := Params.example
  ok : params.wf = true := by decide
  deriving DecidableEq, Repr, Inhabited

/-- The engine built on a parameter set, or `none`: the set is refused (00_scope.md R9). -/
def ParamSet.ofParams (p : Params) : Option ParamSet :=
  if h : p.wf = true then some { params := p, ok := h } else none

/-! ## The chip's interface (00_scope.md R12, R13, R15) -/

/-- The output pins the sequencer drives (`GpioSet`, 00_scope.md R13). -/
inductive Pin where
  | PWR_EN
  | RST_REL
  deriving DecidableEq, Repr

/-- A bus transaction as the engine issues it: one of the two forms of 00_scope.md R12. -/
inductive BusRequest where
  /-- `BusW(sa, bytes)`. -/
  | w (sa : Byte) (bytes : List Byte)
  /-- `BusWR(sa, wbytes, n)`. -/
  | wr (sa : Byte) (wbytes : List Byte) (n : Nat)
  deriving DecidableEq, Repr

/-- What the chip answers to one transaction: whether it succeeded, and the data a read takes its bytes from.
A read of n bytes (n ≤ 16, 20_memory.md R90) takes the first n; a failed read or a write takes none.
DESIGN CHOICE, safe (log entry 3). -/
structure BusAnswer where
  ok : Bool
  data : Vector Byte 16
  deriving DecidableEq, Repr, Inhabited

/-- One event of the trace (00_scope.md R15). -/
inductive Event where
  /-- `W(sa, bytes, ok)`. -/
  | w (sa : Byte) (bytes : List Byte) (ok : Bool)
  /-- `WR(sa, wbytes, n, ok, rbytes)`; a failed read holds no bytes (DESIGN CHOICE, safe; log entry 15). -/
  | wr (sa : Byte) (wbytes : List Byte) (n : Nat) (ok : Bool) (rbytes : List Byte)
  /-- `D(ms)`. -/
  | d (ms : Nat)
  /-- `G(pin, v)`. -/
  | g (pin : Pin) (v : Bool)
  deriving DecidableEq, Repr

/-! ## Free values -/

namespace Config

/-- The parameter set this engine was built with: free (00_scope.md R8; 93_implementation_defined.md I16). DESIGN CHOICE,
safe (log entry 1). -/
opaque params : ParamSet

/-- The chip oracle's free draw (00_scope.md R12; 93_implementation_defined.md I2): it may depend on how many engine
resets there were and on the whole trace so far, and no two transactions of a run share a trace. DESIGN CHOICE, safe
(log entry 3). -/
opaque chipDraw : Nat → List Event → BusRequest → BusAnswer

/-- What a byte of EDID_BUF holds that nothing has written since the last reset: a free byte for each reset and each
index (10_state.md R57; 93_implementation_defined.md I4). DESIGN CHOICE, safe (log entry 7). -/
opaque edidDraw : Nat → Nat → Byte

end Config

end Sys2Proof
end

