-- ==== Sys2Proof/Syntax.lean ====
section
/-! DEFINITION. The commands of the engine: one constructor for each row of the opcode map (30_encoding.md R102).
A constructor holds the operand fields its command uses; the fields R102 marks "–" are ignored (R104) and have no
place here. -/

namespace Sys2Proof

/-- A command, with the operands 30_encoding.md R102 gives it, in the order A, B, C. -/
inductive Instr where
  /-- NOP, OP 0x00 (R106). -/
  | nop
  /-- REG_READ sa, off; OP 0x01 (41_register_access.md R130). -/
  | regRead (sa off : Byte)
  /-- REG_WRITE sa, off, value; OP 0x02 (R131). -/
  | regWrite (sa off value : Byte)
  /-- REG_READ_BLOCK sa, off, len; OP 0x03 (R132). -/
  | regReadBlock (sa off len : Byte)
  /-- REG_SET sa, off, mask; OP 0x04 (R133). -/
  | regSet (sa off mask : Byte)
  /-- REG_CLR sa, off, mask; OP 0x05 (R134). -/
  | regClr (sa off mask : Byte)
  /-- AUX_WRITE offset; OP 0x10, operand in field B (42_aux.md R150). -/
  | auxWrite (offset : Byte)
  /-- AUX_READ lenCmd; OP 0x11, operand in field C (R151). -/
  | auxRead (lenCmd : Byte)
  /-- AUX_RESET, OP 0x12 (R152). -/
  | auxReset
  /-- EDID_BLOCK_COUNT, OP 0x20 (43_edid.md R171). -/
  | edidBlockCount
  /-- EDID_READ_CHUNK offset; OP 0x21, operand in field B (R172). -/
  | edidReadChunk (offset : Byte)
  /-- EDID_READ_SEGMENT segment, offset; OP 0x22 (R173). -/
  | edidReadSegment (segment offset : Byte)
  /-- EDID_READ_FULL, OP 0x23 (R170). -/
  | edidReadFull
  /-- PLL_SOLVE, OP 0x30 (44_pll.md R190). -/
  | pllSolve
  /-- VIDEO_CONFIG, OP 0x40 (45_video_config.md R220). -/
  | videoConfig
  /-- MN_STROBE, OP 0x41 (R232). -/
  | mnStrobe
  /-- POWER_UP, OP 0x50 (46_power_link.md R240). -/
  | powerUp
  /-- WAIT_HPD, OP 0x51 (R245). -/
  | waitHpd
  /-- POWER_ROLE, OP 0x52 (R249). -/
  | powerRole
  /-- POWER_OFF, OP 0x53 (R250). -/
  | powerOff
  deriving DecidableEq, Repr

end Sys2Proof
end

