-- ==== Sys2Proof/WellFormed.lean ====
section
/-! DEFINITION. Which commands are well formed. Operand widths are in the types; the one operand check of the spec is
REG_READ_BLOCK's length (30_encoding.md R107). An ill-formed command is still decoded and still runs: its meaning
refuses it with ILLEGAL_CMD, as R107 says. The checks on a parameter set stand beside it, in Config (`Params.wf`). -/

namespace Sys2Proof

/-- A block-read length inside 1..16 (30_encoding.md R107, 41_register_access.md R132). -/
def blockLenOk (len : Byte) : Bool := decide (1 ≤ len.toNat) && decide (len.toNat ≤ Config.AUX_BUF_LEN)

/-- No operand value is refused but a block length outside 1..16 (30_encoding.md R104, R107). -/
def Instr.wf : Instr → Bool
  | .nop => true
  | .regRead _ _ => true
  | .regWrite _ _ _ => true
  | .regReadBlock _ _ len => blockLenOk len
  | .regSet _ _ _ => true
  | .regClr _ _ _ => true
  | .auxWrite _ => true
  | .auxRead _ => true
  | .auxReset => true
  | .edidBlockCount => true
  | .edidReadChunk _ => true
  | .edidReadSegment _ _ => true
  | .edidReadFull => true
  | .pllSolve => true
  | .videoConfig => true
  | .mnStrobe => true
  | .powerUp => true
  | .waitHpd => true
  | .powerRole => true
  | .powerOff => true

end Sys2Proof
end

