-- ==== Sys2Proof/Decode.lean ====
section
/-! DEFINITION. Decoding and encoding the 32-bit command word (30_encoding.md R100-R108). Decoding is total: every
word is a command of R102 or is rejected by name as an illegal opcode (R105). -/

namespace Sys2Proof

/-- Field OP, bits [7:0] (30_encoding.md R101). -/
def opField (w : Word) : Byte := w.extractLsb' 0 8
/-- Field A, bits [15:8]. -/
def aField (w : Word) : Byte := w.extractLsb' 8 8
/-- Field B, bits [23:16]. -/
def bField (w : Word) : Byte := w.extractLsb' 16 8
/-- Field C, bits [31:24]. -/
def cField (w : Word) : Byte := w.extractLsb' 24 8

/-- Why a word is no command. -/
inductive DecodeError where
  /-- The OP byte is not listed in 30_encoding.md R102: the word is refused with ILLEGAL_CMD (R105). -/
  | illegalOpcode (op : Byte)
  deriving DecidableEq, Repr

/-- The command a word selects, by its OP byte alone (30_encoding.md R102, R105, R108). -/
def decodeWord (w : Word) : Except DecodeError Instr :=
  match (opField w).toNat with
  | 0x00 => .ok .nop
  | 0x01 => .ok (.regRead (aField w) (bField w))
  | 0x02 => .ok (.regWrite (aField w) (bField w) (cField w))
  | 0x03 => .ok (.regReadBlock (aField w) (bField w) (cField w))
  | 0x04 => .ok (.regSet (aField w) (bField w) (cField w))
  | 0x05 => .ok (.regClr (aField w) (bField w) (cField w))
  | 0x10 => .ok (.auxWrite (bField w))
  | 0x11 => .ok (.auxRead (cField w))
  | 0x12 => .ok .auxReset
  | 0x20 => .ok .edidBlockCount
  | 0x21 => .ok (.edidReadChunk (bField w))
  | 0x22 => .ok (.edidReadSegment (aField w) (bField w))
  | 0x23 => .ok .edidReadFull
  | 0x30 => .ok .pllSolve
  | 0x40 => .ok .videoConfig
  | 0x41 => .ok .mnStrobe
  | 0x50 => .ok .powerUp
  | 0x51 => .ok .waitHpd
  | 0x52 => .ok .powerRole
  | 0x53 => .ok .powerOff
  | _ => .error (.illegalOpcode (opField w))

/-- `word = OP | A << 8 | B << 16 | C << 24` (30_encoding.md R103). -/
def commandWord (op a b c : Byte) : Word :=
  op.setWidth 32 ||| (a.setWidth 32 <<< 8) ||| (b.setWidth 32 <<< 16) ||| (c.setWidth 32 <<< 24)

/-- The OP byte of a command (30_encoding.md R102). -/
def Instr.opcode : Instr → Byte
  | .nop => 0x00
  | .regRead _ _ => 0x01
  | .regWrite _ _ _ => 0x02
  | .regReadBlock _ _ _ => 0x03
  | .regSet _ _ _ => 0x04
  | .regClr _ _ _ => 0x05
  | .auxWrite _ => 0x10
  | .auxRead _ => 0x11
  | .auxReset => 0x12
  | .edidBlockCount => 0x20
  | .edidReadChunk _ => 0x21
  | .edidReadSegment _ _ => 0x22
  | .edidReadFull => 0x23
  | .pllSolve => 0x30
  | .videoConfig => 0x40
  | .mnStrobe => 0x41
  | .powerUp => 0x50
  | .waitHpd => 0x51
  | .powerRole => 0x52
  | .powerOff => 0x53

/-- The word the assembler writes for a command: ignored fields are 0 (30_encoding.md R103, R104, R109). -/
def encode (i : Instr) : Word :=
  match i with
  | .regRead sa off => commandWord i.opcode sa off 0
  | .regWrite sa off value => commandWord i.opcode sa off value
  | .regReadBlock sa off len => commandWord i.opcode sa off len
  | .regSet sa off mask => commandWord i.opcode sa off mask
  | .regClr sa off mask => commandWord i.opcode sa off mask
  | .auxWrite offset => commandWord i.opcode 0 offset 0
  | .auxRead lenCmd => commandWord i.opcode 0 0 lenCmd
  | .edidReadChunk offset => commandWord i.opcode 0 offset 0
  | .edidReadSegment segment offset => commandWord i.opcode segment offset 0
  | .nop | .auxReset | .edidBlockCount | .edidReadFull | .pllSolve | .videoConfig | .mnStrobe
  | .powerUp | .waitHpd | .powerRole | .powerOff => commandWord i.opcode 0 0 0

/-- The command the decoder reads from a row's `nbits` bits `w` of spec/opcode_table.json, numbered as the table
numbers them; a command is the one 32-bit word written to CMD (30_encoding.md R100), and its bits above `nbits` are 0.
DESIGN CHOICE, safe: no byte order arises (log entry 20). -/
def decodeTableWord (nbits w : Nat) : Option Instr :=
  match decodeWord (BitVec.ofNat 32 (w % 2 ^ nbits)) with
  | .ok i => some i
  | .error _ => none

end Sys2Proof
end

