-- ==== Sys2Proof/Machine/State.lean ====
section
/-! DEFINITION. The state of one engine (10_state.md), as plain data, and its value after reset
(70_reset_and_hazards.md R291). The fields after `timebase` are the model's own: the parameter set, the two
environment agents' pending inputs, and the records an observer compares. -/

namespace Sys2Proof.Machine

/-- Result codes (60_exceptions.md R260). Codes 0x0B-0xFF are reserved and have no constructor. -/
inductive Code where
  | ok
  | auxErrEcho
  | auxTimeout
  | busErr
  | edidRetryExhausted
  | edidInitFail
  | pllRange
  | fwTimeout
  | hpdTimeout
  | illegalCmd
  | stateErr
  deriving DecidableEq, Repr

/-- The chip power/link state (10_state.md R59). -/
inductive PState where
  | off
  | poweringUp
  | firmwareLoaded
  | linkReady
  deriving DecidableEq, Repr

/-- The command-local flags `acc` (00_scope.md R14). -/
structure Acc where
  bus : Bool := false
  wa : Bool := false
  tmo : Bool := false
  echo : Bool := false
  ill : Bool := false
  pbus : Bool := false
  deriving DecidableEq, Repr

/-- ERR_ACC, the sticky error flags (10_state.md R40). -/
structure ErrAcc where
  bus : Bool := false
  wa : Bool := false
  tmo : Bool := false
  echo : Bool := false
  ovr : Bool := false
  ill : Bool := false
  pbus : Bool := false
  deriving DecidableEq, Repr

/-- A sub-address with its valid bit: the last-address memory LA_VALID, LA_SA (10_state.md R58) and the register
LAST_ADDR (R42). -/
structure LastAddr where
  valid : Bool := false
  sa : Byte := 0
  deriving DecidableEq, Repr

/-- GPIO_OUT, which drives the three output pins (10_state.md R43). -/
structure Gpio where
  pwrEn : Bool := false
  rstRel : Bool := false
  pnegEn : Bool := false
  deriving DecidableEq, Repr

/-- EDID_BUF: the bytes that have been written since the last reset, by index, strictly rising (10_state.md R57).
An unlisted byte has no value here; the host reads a free draw for it. -/
abbrev Memory := List Host.Cell

/-- The result registers a command writes through a shadow copy (10_state.md R33). LAST_ADDR, the one other register
R33 names, has its shadow in the last-address memory itself (R42, R58; log entry 11). -/
structure Results where
  /-- RDATA (R39). -/
  rdata : Word := 0
  /-- AUX_LAST_STATUS (R41). -/
  auxLastStatus : Byte := 0
  /-- FW_INFO.VERSION (R44). -/
  fwVersion : Byte := 0
  /-- FW_INFO.REVISION (R44). -/
  fwRevision : Byte := 0
  /-- DBUF bytes 0..15 (R45). -/
  dbuf : Vector Byte 16 := Vector.replicate 16 0
  /-- PLL_M (R47). -/
  pllM : BitVec 24 := 0
  /-- PLL_N (R48). -/
  pllN : BitVec 24 := 0
  /-- PLL_PD (R49). -/
  pllPd : BitVec 5 := 0
  /-- PLL_ACTUAL_HZ (R50). -/
  pllActualHz : Word := 0
  /-- EDID_BLOCKS.COUNT (R56). -/
  edidCount : Byte := 0
  /-- EDID_BLOCKS.RAW (R56). -/
  edidRaw : Byte := 0
  /-- EDID_VALID_LEN (R56). -/
  edidValidLen : BitVec 10 := 0
  /-- EDID_BUF (R57). -/
  edidBuf : Memory := []
  deriving DecidableEq, Repr

/-- The host's input registers (10_state.md R46, R51-R55). -/
structure Inputs where
  /-- PLL_CLK_HZ (R46). -/
  pllClkHz : Word := 0
  /-- T_PIXCLK_KHZ (R51). -/
  tPixclkKhz : Word := 0
  /-- T_HACTIVE, T_HFP, T_HSYNC, T_HBP (R52). -/
  tHactive : BitVec 16 := 0
  tHfp : BitVec 16 := 0
  tHsync : BitVec 16 := 0
  tHbp : BitVec 16 := 0
  /-- T_VACTIVE, T_VFP, T_VSYNC, T_VBP (R53). -/
  tVactive : BitVec 16 := 0
  tVfp : BitVec 16 := 0
  tVsync : BitVec 16 := 0
  tVbp : BitVec 16 := 0
  /-- T_FLAGS.HSYNC_POL (R54). -/
  hsyncPol : Bool := false
  /-- T_FLAGS.VSYNC_POL (R54). -/
  vsyncPol : Bool := false
  /-- EDID_SIZE (R55). -/
  edidSize : BitVec 10 := 0x200
  deriving DecidableEq, Repr

/-- The running command's loop counters (10_state.md R62): the poll, the attempt and the chunk it is at. DESIGN CHOICE,
unsafe: their form and their value outside a loop (log entry 10). -/
structure Loops where
  poll : Nat := 0
  attempt : Nat := 0
  chunk : Nat := 0
  deriving DecidableEq, Repr

/-- What the host does at its port, in order, and the reset input (20_memory.md R80, 30_encoding.md R110, R111,
70_reset_and_hazards.md R290). DESIGN CHOICE: `pass` and `wait` (log entries 4, 5). -/
inductive HostInput where
  /-- `hr`: read the word at an index. -/
  | read (a : WordIndex)
  /-- `hw`: write the word at an index. -/
  | write (a : WordIndex) (v : Word)
  /-- `rst_n` sampled low. -/
  | reset
  /-- The host lets a running command go on past one point where the host could act. -/
  | pass
  /-- `wait`: the host does nothing until BUSY = 0 (R111). -/
  | wait
  deriving DecidableEq, Repr

/-- One host read: the index, and the word the port returned. -/
structure HostRead where
  a : WordIndex
  v : Word
  deriving DecidableEq, Repr

/-- The state of the engine, with its environment's pending inputs. The fields marked MODEL are the model's own: DESIGN
CHOICE (log entries 1, 3, 4, 17). -/
structure State where
  /-- CMD: the last accepted command word (R34). -/
  cmd : Word
  /-- STATUS.BUSY (R35); live, not shadowed (R33). -/
  busy : Bool
  /-- STATUS.DONE (R35). -/
  done : Bool
  /-- STATUS.FAIL (R35). -/
  fail : Bool
  /-- STATUS.RESULT (R35). -/
  result : Code
  /-- STATUS.LAST_OP (R35). -/
  lastOp : Byte
  /-- STATUS.PSTATE, the power/link state; live (R59). -/
  pstate : PState
  /-- The committed result registers the host reads (R33). -/
  results : Results
  /-- LAST_ADDR as of the last commit (R42). -/
  lastAddr : LastAddr
  /-- ERR_ACC (R40). -/
  errAcc : ErrAcc
  /-- GPIO_OUT and the three pins; live (R43). -/
  gpio : Gpio
  /-- The host's input registers. -/
  inputs : Inputs
  /-- LA_VALID and LA_SA, the last-address memory (R58). -/
  la : LastAddr
  /-- The shadow of the result registers (R33, R62). -/
  shadow : Results
  /-- The command-local flags (R33, R62). -/
  acc : Acc
  /-- The running command's loop counters (R62). -/
  loop : Loops
  /-- The timebase counter, in cycles of `clk` (R62; 60_exceptions.md R275). The spec gives it no width: here it is
  unbounded and never wraps. DESIGN CHOICE, unsafe (log entry 26). -/
  timebase : Nat
  /-- MODEL: the parameters this engine was built with; no step changes them (00_scope.md R8). -/
  params : ParamSet
  /-- MODEL: answers the chip has ready for the next transactions; past its end the chip's answers are free draws. -/
  chip : List BusAnswer
  /-- MODEL: what the host does next, in order. -/
  host : List HostInput
  /-- MODEL: what the host has read, in order. -/
  hostLog : List HostRead
  /-- MODEL: the trace, oldest event first (00_scope.md R15). -/
  trace : List Event
  /-- MODEL: how many engine resets there were; each one gives EDID_BUF fresh free contents (R57). -/
  resets : Nat
  deriving DecidableEq, Repr

/-- The engine has no traps and no operand that stops it: every failure is a result code (60_exceptions.md R266), no
host or buffer address outside its space can be formed (20_memory.md R80, R87), and no access can be misaligned (R89).
So there is no fault: the type is empty. DEDUCED, safe (log entry 18). -/
inductive Fault where
  deriving DecidableEq, Repr

/-- Why a step has no meaning. -/
inductive Refusal where
  /-- Raised by an arm of `exec` for a command that has no meaning yet. Safe: nothing is claimed of it.
  No arm raises it: every command of the opcode table has its meaning. -/
  | notModelled (mnemonic : String)
  deriving DecidableEq, Repr

/-- The three outcomes of a step, at this machine's types. -/
abbrev Outcome := Host.Outcome State Fault Refusal

/-- The engine right after reset (70_reset_and_hazards.md R291): idle, every register at its reset value, the
last-address memory invalid, EDID_BUF unspecified (no byte listed), no input pending. The registers that stand as
`{ }` have R291's values as their fields' defaults: 0 for all but EDID_SIZE, which is 0x200. The parameter set is free.
DESIGN CHOICE, unsafe: the shadow, the flags and the loop counters, which R291 calls discarded, and the model's own fields
(log entries 10, 11, 17). -/
def State.reset : State where
  cmd := 0x00000000
  busy := false
  done := false
  fail := false
  result := .ok
  lastOp := 0x00
  pstate := .off
  results := {}
  lastAddr := { valid := false, sa := 0x00 }
  errAcc := {}
  gpio := { pwrEn := false, rstRel := false, pnegEn := false }
  inputs := { edidSize := 0x200 }
  la := { valid := false, sa := 0x00 }
  shadow := {}
  acc := {}
  loop := {}
  timebase := 0
  params := Config.params
  chip := []
  host := []
  hostLog := []
  trace := []
  resets := 0

/-- How a command in progress ends without completing. -/
inductive Halt where
  /-- An engine reset abandoned it: nothing commits (70_reset_and_hazards.md R292). -/
  | reset
  deriving DecidableEq, Repr

/-- A procedure of the spec (00_scope.md R16): it runs on the state and ends with a value, or is abandoned. -/
abbrev Proc := EStateM Halt State

end Sys2Proof.Machine
end

