-- ==== Sys2Proof/Machine/Flags.lean ====
section
/-! DEFINITION. Result codes, status and error flags as the bits the host sees (10_state.md R32, R35, R40, R43;
60_exceptions.md R260), and how flags accumulate. -/

namespace Sys2Proof.Machine

/-- A flag as a word with that one bit. -/
def bitAt (b : Bool) (n : Nat) : Word := if b then (1 : Word) <<< n else 0

/-- The 8-bit code of a result (60_exceptions.md R260). -/
def Code.toByte : Code → Byte
  | .ok => 0x00
  | .auxErrEcho => 0x01
  | .auxTimeout => 0x02
  | .busErr => 0x03
  | .edidRetryExhausted => 0x04
  | .edidInitFail => 0x05
  | .pllRange => 0x06
  | .fwTimeout => 0x07
  | .hpdTimeout => 0x08
  | .illegalCmd => 0x09
  | .stateErr => 0x0A

/-- STATUS.FAIL of a result code: RESULT ≠ 0x00 (10_state.md R33, R35). -/
def Code.fails (c : Code) : Bool := decide (c.toByte ≠ 0)

/-- The 2-bit encoding of PSTATE (10_state.md R59). -/
def PState.toBits : PState → BitVec 2
  | .off => 0
  | .poweringUp => 1
  | .firmwareLoaded => 2
  | .linkReady => 3

/-- `a | b`, flag by flag: how a command accumulates its flags. -/
def Acc.or (a b : Acc) : Acc where
  bus := a.bus || b.bus
  wa := a.wa || b.wa
  tmo := a.tmo || b.tmo
  echo := a.echo || b.echo
  ill := a.ill || b.ill
  pbus := a.pbus || b.pbus

/-- `ERR_ACC | acc` (10_state.md R33, R40): OVR is not a command's flag and stays. -/
def ErrAcc.orAcc (e : ErrAcc) (a : Acc) : ErrAcc where
  bus := e.bus || a.bus
  wa := e.wa || a.wa
  tmo := e.tmo || a.tmo
  echo := e.echo || a.echo
  ovr := e.ovr
  ill := e.ill || a.ill
  pbus := e.pbus || a.pbus

/-- ERR_ACC as a word (10_state.md R40). -/
def ErrAcc.toWord (e : ErrAcc) : Word :=
  bitAt e.bus 0 ||| bitAt e.wa 1 ||| bitAt e.tmo 2 ||| bitAt e.echo 3 ||| bitAt e.ovr 4 ||| bitAt e.ill 5 |||
    bitAt e.pbus 6

/-- A host write to ERR_ACC clears each bit written as 1 (10_state.md R40). -/
def ErrAcc.writeOneClear (e : ErrAcc) (v : Word) : ErrAcc where
  bus := e.bus && !v.getLsbD 0
  wa := e.wa && !v.getLsbD 1
  tmo := e.tmo && !v.getLsbD 2
  echo := e.echo && !v.getLsbD 3
  ovr := e.ovr && !v.getLsbD 4
  ill := e.ill && !v.getLsbD 5
  pbus := e.pbus && !v.getLsbD 6

/-- STATUS as a word (10_state.md R35); bits [7:3] and [31:26] read 0. -/
def State.statusWord (s : State) : Word :=
  bitAt s.busy 0 ||| bitAt s.done 1 ||| bitAt s.fail 2 ||| (s.result.toByte.setWidth 32 <<< 8) |||
    (s.lastOp.setWidth 32 <<< 16) ||| (s.pstate.toBits.setWidth 32 <<< 24)

/-- LAST_ADDR as a word (10_state.md R42). -/
def LastAddr.toWord (l : LastAddr) : Word := l.sa.setWidth 32 ||| bitAt l.valid 8

/-- GPIO_OUT as a word (10_state.md R43). -/
def Gpio.toWord (g : Gpio) : Word := bitAt g.pwrEn 0 ||| bitAt g.rstRel 1 ||| bitAt g.pnegEn 2

/-- `GpioSet` on one of the two pins the sequencer drives (00_scope.md R13, 10_state.md R43). -/
def Gpio.setPin (g : Gpio) (pin : Pin) (v : Bool) : Gpio :=
  match pin with
  | .PWR_EN => { g with pwrEn := v }
  | .RST_REL => { g with rstRel := v }

/-- The code of a command that ran to the end of its rule: BUS_ERR when `acc.BUS` is set, else OK
(60_exceptions.md R261). -/
def Acc.endCode (a : Acc) : Code := if a.bus then .busErr else .ok

end Sys2Proof.Machine
end

