-- ==== Sys2Proof/Machine/Memory.lean ====
section
/-! DEFINITION. EDID_BUF as a canonical list of cells (10_state.md R57, 20_memory.md R87): indexes strictly rising and
below 512, and no entry for a byte that nothing has written. -/

namespace Sys2Proof.Machine

/-- The indexes rise strictly from `lo` on, and lie below EDID_BUF_LEN. -/
def Memory.risesFrom (lo : Nat) (m : Memory) : Bool :=
  match m with
  | [] => true
  | (a, _) :: m => decide (lo ≤ a) && decide (a < Config.EDID_BUF_LEN) && Memory.risesFrom (a + 1) m

/-- The canonical form: strictly rising indexes below 512. An unlisted byte has no value, so no entry can equal what
an unlisted index reads as. -/
def Memory.wf (m : Memory) : Bool := Memory.risesFrom 0 m

/-- The byte written at index `a`, or `none`: nothing has written it since the last reset. -/
def Memory.readByte (m : Memory) (a : Nat) : Option Byte :=
  match m with
  | [] => none
  | (a', b) :: m => if a' = a then some b else Memory.readByte m a

/-- Put a byte at its place in the order, in place of one already there. -/
def Memory.insertCell (m : Memory) (a : Nat) (b : Byte) : Memory :=
  match m with
  | [] => [(a, b)]
  | (a', b') :: m =>
    if a < a' then (a, b) :: (a', b') :: m
    else if a' = a then (a, b) :: m
    else (a', b') :: Memory.insertCell m a b

/-- Write one byte. There is no byte at 512 or above, and no rule forms such an index (20_memory.md R87): DESIGN CHOICE,
safe, that such a write does nothing (log entry 12). -/
def Memory.writeByte (m : Memory) (a : Nat) (b : Byte) : Memory :=
  if a < Config.EDID_BUF_LEN then Memory.insertCell m a b else m

/-- `MemWrite(a, n, v)` (00_scope.md R11): write the bytes `v` from index `a` on. -/
def Memory.write (m : Memory) (a : Nat) (v : List Byte) : Memory :=
  match v with
  | [] => m
  | b :: v => Memory.write (Memory.writeByte m a b) (a + 1) v

/-- The byte a host read returns at index `a`: the last one written, else this reset's free draw (10_state.md R57,
93_implementation_defined.md I4). -/
def State.edidByte (s : State) (a : Nat) : Byte :=
  (Memory.readByte s.results.edidBuf a).getD (Config.edidDraw s.resets a)

/-- `MemRead(a, n)` (00_scope.md R11): the n bytes from index `a` on. -/
def State.edidRead (s : State) (a n : Nat) : List Byte :=
  match n with
  | 0 => []
  | n + 1 => s.edidByte a :: s.edidRead (a + 1) n

end Sys2Proof.Machine
end

