-- ==== Sys2Proof/Machine/Operands.lean ====
section
/-! DEFINITION. The host register file (10_state.md R32): which register a word index selects, what a read of it
returns and what a write to it does; the byte packing of 20_memory.md R81; and the byte parts of wider values
(45_video_config.md). -/

namespace Sys2Proof.Machine

/-! ## Byte parts of a value (00_scope.md R10, 45_video_config.md) -/

/-- `lo(v) = v & 0xFF`. -/
def lo (v : Nat) : Byte := BitVec.ofNat 8 v
/-- `hi(v) = (v >> 8) & 0xFF`. -/
def hi (v : Nat) : Byte := BitVec.ofNat 8 (v >>> 8)
/-- `v[23:16]`. -/
def top (v : Nat) : Byte := BitVec.ofNat 8 (v >>> 16)

/-- A word of four buffer bytes, the first in bits [7:0] (20_memory.md R81). -/
def packWord (b0 b1 b2 b3 : Byte) : Word :=
  b0.setWidth 32 ||| (b1.setWidth 32 <<< 8) ||| (b2.setWidth 32 <<< 16) ||| (b3.setWidth 32 <<< 24)

/-! ## The register map (10_state.md R32) -/

/-- The registers of 10_state.md R32, and the unmapped offsets (R60). -/
inductive HostReg where
  | cmd
  | status
  | rdata
  | auxLastStatus
  | errAcc
  | lastAddr
  | gpioOut
  | fwInfo
  /-- DBUF0-DBUF3, by number. -/
  | dbuf (k : Fin 4)
  | pllClkHz
  | pllM
  | pllN
  | pllPd
  | pllActualHz
  | tPixclkKhz
  | tHactive
  | tHfp
  | tHsync
  | tHbp
  | tVactive
  | tVfp
  | tVsync
  | tVbp
  | tFlags
  | edidSize
  | edidBlocks
  | edidValidLen
  /-- A word of EDID_BUF: its first byte's index is 4k. -/
  | edidBuf (k : Nat)
  | unmapped
  deriving DecidableEq, Repr

/-- The register at a byte offset of the host space (10_state.md R32, R60). -/
def hostRegAtOffset (off : Nat) : HostReg :=
  match off with
  | 0x000 => .cmd
  | 0x004 => .status
  | 0x008 => .rdata
  | 0x00C => .auxLastStatus
  | 0x010 => .errAcc
  | 0x014 => .lastAddr
  | 0x018 => .gpioOut
  | 0x01C => .fwInfo
  | 0x020 => .dbuf 0
  | 0x024 => .dbuf 1
  | 0x028 => .dbuf 2
  | 0x02C => .dbuf 3
  | 0x030 => .pllClkHz
  | 0x034 => .pllM
  | 0x038 => .pllN
  | 0x03C => .pllPd
  | 0x040 => .pllActualHz
  | 0x044 => .tPixclkKhz
  | 0x048 => .tHactive
  | 0x04C => .tHfp
  | 0x050 => .tHsync
  | 0x054 => .tHbp
  | 0x058 => .tVactive
  | 0x05C => .tVfp
  | 0x060 => .tVsync
  | 0x064 => .tVbp
  | 0x068 => .tFlags
  | 0x06C => .edidSize
  | 0x070 => .edidBlocks
  | 0x074 => .edidValidLen
  | off => if 0x100 ≤ off ∧ off ≤ 0x2FC then .edidBuf ((off - 0x100) / 4) else .unmapped

/-- The register a word index selects: `haddr` is the byte offset div 4 (20_memory.md R80). -/
def hostRegAt (a : WordIndex) : HostReg := hostRegAtOffset (4 * a.toNat)

/-- What a host read of a register returns: its fields in place, every other bit 0 (10_state.md R32), the committed
value of a result register (R33), and 0 at an unmapped offset (R60). -/
def readReg (r : HostReg) (s : State) : Word :=
  match r with
  | .cmd => s.cmd
  | .status => s.statusWord
  | .rdata => s.results.rdata
  | .auxLastStatus => s.results.auxLastStatus.setWidth 32
  | .errAcc => s.errAcc.toWord
  | .lastAddr => s.lastAddr.toWord
  | .gpioOut => s.gpio.toWord
  | .fwInfo => packWord s.results.fwVersion s.results.fwRevision 0 0
  | .dbuf k => packWord (s.results.dbuf.toList.getD (4 * k.val) 0) (s.results.dbuf.toList.getD (4 * k.val + 1) 0)
      (s.results.dbuf.toList.getD (4 * k.val + 2) 0) (s.results.dbuf.toList.getD (4 * k.val + 3) 0)
  | .pllClkHz => s.inputs.pllClkHz
  | .pllM => s.results.pllM.setWidth 32
  | .pllN => s.results.pllN.setWidth 32
  | .pllPd => s.results.pllPd.setWidth 32
  | .pllActualHz => s.results.pllActualHz
  | .tPixclkKhz => s.inputs.tPixclkKhz
  | .tHactive => s.inputs.tHactive.setWidth 32
  | .tHfp => s.inputs.tHfp.setWidth 32
  | .tHsync => s.inputs.tHsync.setWidth 32
  | .tHbp => s.inputs.tHbp.setWidth 32
  | .tVactive => s.inputs.tVactive.setWidth 32
  | .tVfp => s.inputs.tVfp.setWidth 32
  | .tVsync => s.inputs.tVsync.setWidth 32
  | .tVbp => s.inputs.tVbp.setWidth 32
  | .tFlags => bitAt s.inputs.hsyncPol 0 ||| bitAt s.inputs.vsyncPol 1
  | .edidSize => s.inputs.edidSize.setWidth 32
  | .edidBlocks => packWord s.results.edidCount s.results.edidRaw 0 0
  | .edidValidLen => s.results.edidValidLen.setWidth 32
  | .edidBuf k => packWord (s.edidByte (4 * k)) (s.edidByte (4 * k + 1)) (s.edidByte (4 * k + 2)) (s.edidByte (4 * k + 3))
  | .unmapped => 0

/-- What a host write to a register does while no command runs (10_state.md R32): a read-only register and an
unmapped offset ignore it, bits outside a field are ignored, ERR_ACC is write-1-to-clear (R40), and of GPIO_OUT only
PNEG_EN is written (R43). A write to CMD starts a command instead (R34): it is taken before this function. -/
def writeReg (r : HostReg) (v : Word) (s : State) : State :=
  match r with
  | .errAcc => { s with errAcc := s.errAcc.writeOneClear v }
  | .gpioOut => { s with gpio := { s.gpio with pnegEn := v.getLsbD 2 } }
  | .pllClkHz => { s with inputs := { s.inputs with pllClkHz := v } }
  | .tPixclkKhz => { s with inputs := { s.inputs with tPixclkKhz := v } }
  | .tHactive => { s with inputs := { s.inputs with tHactive := v.setWidth 16 } }
  | .tHfp => { s with inputs := { s.inputs with tHfp := v.setWidth 16 } }
  | .tHsync => { s with inputs := { s.inputs with tHsync := v.setWidth 16 } }
  | .tHbp => { s with inputs := { s.inputs with tHbp := v.setWidth 16 } }
  | .tVactive => { s with inputs := { s.inputs with tVactive := v.setWidth 16 } }
  | .tVfp => { s with inputs := { s.inputs with tVfp := v.setWidth 16 } }
  | .tVsync => { s with inputs := { s.inputs with tVsync := v.setWidth 16 } }
  | .tVbp => { s with inputs := { s.inputs with tVbp := v.setWidth 16 } }
  | .tFlags => { s with inputs := { s.inputs with hsyncPol := v.getLsbD 0, vsyncPol := v.getLsbD 1 } }
  | .edidSize => { s with inputs := { s.inputs with edidSize := v.setWidth 10 } }
  | .cmd | .status | .rdata | .auxLastStatus | .lastAddr | .fwInfo | .dbuf _ | .pllM | .pllN | .pllPd | .pllActualHz
  | .edidBlocks | .edidValidLen | .edidBuf _ | .unmapped => s

/-! ## The output ports (20_memory.md R83) -/

/-- The pin `video_en`. -/
def State.videoEn (s : State) : Bool := s.gpio.pwrEn
/-- The pin `video_rst_rel`. -/
def State.videoRstRel (s : State) : Bool := s.gpio.rstRel
/-- The pin `pneg_en`. -/
def State.pnegEnPin (s : State) : Bool := s.gpio.pnegEn

end Sys2Proof.Machine
end

