-- ==== Sys2Proof/Machine/Ops.lean ====
section
/-! DEFINITION. The operations every command is made of: single updates of the state; the host port while a command
runs (10_state.md R33, R61); the bus, time and pin primitives (00_scope.md R12, R13); accepting, refusing and
completing a command (10_state.md R33, R34); the engine reset (70_reset_and_hazards.md R292); and the register
procedures with the address-switch workaround (41_register_access.md R120-R128, R136).
Every primitive that is an event, and every change of PSTATE, and the commit, first lets the host act
(`hostWindow`): at these points, and at no others, what the host can see changes. DESIGN CHOICE, unsafe for resets (log
entries 4, 8). -/

namespace Sys2Proof.Machine

/-! ## Single updates of the state -/

/-- Replace the host's pending inputs. -/
def State.setHost (h : List HostInput) (s : State) : State := { s with host := h }

/-- Record the word a host read of index `a` returns (20_memory.md R80). -/
def State.logRead (a : WordIndex) (s : State) : State :=
  { s with hostLog := s.hostLog ++ [{ a := a, v := readReg (hostRegAt a) s }] }

/-- A host write while BUSY = 1: ignored, and ERR_ACC.OVR is set at once (10_state.md R61). -/
def State.overrun (s : State) : State := { s with errAcc := { s.errAcc with ovr := true } }

/-- Record a bus event, and take the chip's answer to it as used. -/
def State.busEvent (e : Event) (s : State) : State := { s with trace := s.trace ++ [e], chip := s.chip.tail }

/-- `Delay(ms)`: the timebase counts `ms · CLK_PER_MS` cycles (00_scope.md R13, 60_exceptions.md R275). DEDUCED: nothing else
moves it (R305; log entry 9). -/
def State.delayed (p : Params) (ms : Nat) (s : State) : State :=
  { s with trace := s.trace ++ [.d ms], timebase := s.timebase + ms * p.CLK_PER_MS }

/-- `GpioSet(pin, v)`: the output changes with the event (00_scope.md R13, 10_state.md R43). -/
def State.pinSet (pin : Pin) (v : Bool) (s : State) : State :=
  { s with trace := s.trace ++ [.g pin v], gpio := s.gpio.setPin pin v }

/-- `PSTATE <- x` (10_state.md R59). -/
def State.setPState (x : PState) (s : State) : State := { s with pstate := x }

/-- `LA_SA <- sa ; LA_VALID <- 1` (41_register_access.md R120). -/
def State.setLa (sa : Byte) (s : State) : State := { s with la := { valid := true, sa := sa } }

/-- `acc.F <- 1` for the flags set in `a` (00_scope.md R14). -/
def State.orAcc (a : Acc) (s : State) : State := { s with acc := s.acc.or a }

/-- A write to a result register's shadow (00_scope.md R11, 10_state.md R33). -/
def State.setShadow (r : Results) (s : State) : State := { s with shadow := r }

/-- The loop counters of the running command (10_state.md R62). -/
def State.setLoop (l : Loops) (s : State) : State := { s with loop := l }

/-! ## Starting and completing a command -/

/-- A command starts: BUSY, not DONE, flags and loop counters clear, the shadow a copy of the committed results
(10_state.md R33, R34). -/
def State.start (s : State) : State :=
  { s with busy := true, done := false, acc := {}, shadow := s.results, loop := {} }

/-- The host's write of `w` to CMD is accepted (10_state.md R34): the word is latched, LAST_OP is its OP byte, and a
command starts. RESULT and FAIL keep their values until the commit. -/
def State.accept (w : Word) (s : State) : State := { s.start with cmd := w, lastOp := opField w }

/-- The commit of 10_state.md R33, which is all there is of "trap entry" (60_exceptions.md R266): the shadow becomes
visible, LAST_ADDR the last-address memory (10_state.md R42), the flags join ERR_ACC, and STATUS reports the code. -/
def State.commit (code : Code) (s : State) : State :=
  { s with
    results := s.shadow
    lastAddr := s.la
    errAcc := s.errAcc.orAcc s.acc
    result := code
    fail := code.fails
    done := true
    busy := false }

/-- The engine reset (70_reset_and_hazards.md R291-R293): every piece of engine state takes its reset value, and no
event is issued. The parameters, the chip and the host are not the engine: their inputs and the records stay (DESIGN
CHOICE; log entries 8, 17). -/
def State.engineReset (s : State) : State :=
  { State.reset with
    params := s.params
    chip := s.chip
    host := s.host
    hostLog := s.hostLog
    trace := s.trace
    resets := s.resets + 1 }

/-! ## The host while a command runs -/

/-- The host's inputs that land here while a command runs (BUSY = 1): reads are answered (10_state.md R33), writes are
dropped and set OVR (R61), a reset abandons the command (70_reset_and_hazards.md R292); `pass` ends the host's turn,
and `wait` keeps the host waiting. -/
def serveHost (h : List HostInput) (s : State) : EStateM.Result Halt State Unit :=
  match h with
  | [] => .ok () (s.setHost [])
  | .pass :: rest => .ok () (s.setHost rest)
  | .wait :: rest => .ok () (s.setHost (.wait :: rest))
  | .read a :: rest => serveHost rest (s.logRead a)
  | .write _ _ :: rest => serveHost rest s.overrun
  | .reset :: rest => .error .reset (s.setHost rest).engineReset

/-- A point where the host may act while a command runs. -/
def hostWindow : Proc Unit := fun s => serveHost s.host s

/-! ## Primitives (00_scope.md R12-R14) -/

/-- The chip's answer to a transaction: the next one it has ready, else a free draw (00_scope.md R12). -/
def State.answer (req : BusRequest) (s : State) : BusAnswer :=
  s.chip.headD (Config.chipDraw s.resets s.trace req)

/-- `BusW(sa, bytes) -> ok` (00_scope.md R12). -/
def busW (sa : Byte) (bytes : List Byte) : Proc Bool := do
  hostWindow
  let s ← get
  let ok := (s.answer (.w sa bytes)).ok
  set (s.busEvent (.w sa bytes ok))
  return ok

/-- `BusWR(sa, wbytes, n) -> (ok, rbytes)` (00_scope.md R12): `none` when ok is false. -/
def busWR (sa : Byte) (wbytes : List Byte) (n : Nat) : Proc (Option (List Byte)) := do
  hostWindow
  let s ← get
  let a := s.answer (.wr sa wbytes n)
  if a.ok then
    let rbytes := a.data.toList.take n
    set (s.busEvent (.wr sa wbytes n true rbytes))
    return some rbytes
  else
    set (s.busEvent (.wr sa wbytes n false []))
    return none

/-- `Delay(ms)` (00_scope.md R13). -/
def delay (p : Params) (ms : Nat) : Proc Unit := do
  hostWindow
  modify (State.delayed p ms)

/-- `GpioSet(pin, v)` (00_scope.md R13). -/
def gpioSet (pin : Pin) (v : Bool) : Proc Unit := do
  hostWindow
  modify (State.pinSet pin v)

/-- `PSTATE <- x`; live (10_state.md R59). -/
def setPState (x : PState) : Proc Unit := do
  hostWindow
  modify (State.setPState x)

/-- `acc.F <- 1` (00_scope.md R14). -/
def raiseFlags (a : Acc) : Proc Unit := modify (State.orAcc a)

/-- Write result registers in the shadow (00_scope.md R11). -/
def writeShadow (f : Results → Results) : Proc Unit := modify fun s => s.setShadow (f s.shadow)

/-- `RDATA <- v` (10_state.md R39). -/
def setRdata (v : Word) : Proc Unit := writeShadow fun r => { r with rdata := v }

/-- The running command is at poll `i` (10_state.md R62). -/
def setPoll (i : Nat) : Proc Unit := modify fun s => s.setLoop { s.loop with poll := i }

/-- The running command is at attempt `t` (10_state.md R62). -/
def setAttempt (t : Nat) : Proc Unit := modify fun s => s.setLoop { s.loop with attempt := t }

/-- The running command is at chunk `k` (10_state.md R62). -/
def setChunk (k : Nat) : Proc Unit := modify fun s => s.setLoop { s.loop with chunk := k }

/-- `acc.BUS = 1 ? BUS_ERR : OK`: the code at the end of a command's rule (60_exceptions.md R261). -/
def endCode : Proc Code := do return (← get).acc.endCode

/-- A refusal (30_encoding.md R105, 46_power_link.md R251, 60_exceptions.md R263): `acc.ILL`, RDATA 0, no event. -/
def refuse (code : Code) : Proc Code := do
  raiseFlags { ill := true }
  setRdata 0
  return code

/-- `finish(code)`: the command completes with the commit of 10_state.md R33 (00_scope.md R14). -/
def finish (code : Code) : Proc Unit := do
  hostWindow
  modify (State.commit code)

/-- The state a procedure ends in. -/
def endState {α : Type} (r : EStateM.Result Halt State α) : State :=
  match r with
  | .ok _ s => s
  | .error _ s => s

/-- Run a command from its start to its commit, or to the engine reset that abandons it (10_state.md R37). DESIGN CHOICE,
safe: it starts the command itself (log entry 19). -/
def runCommand (body : Params → Proc Code) (s : State) : Outcome :=
  .next (endState ((do finish (← body s.params.params) : Proc Unit) s.start))

/-! ## Register procedures (41_register_access.md) -/

/-- `WaOffset(sa)` (41_register_access.md R121). -/
def waOffset (p : Params) (sa : Byte) : Byte := (p.WA_TABLE.lookup sa).getD Config.WA_DEFAULT_OFFSET

/-- `Workaround(sa)` (41_register_access.md R120, R122). -/
def workaround (p : Params) (sa : Byte) : Proc Unit := do
  let s ← get
  if s.la.valid = true ∧ s.la.sa = sa then
    return ()
  else
    set (s.setLa sa)
    let ok ← busW sa [waOffset p sa, Config.WA_VALUE]
    if ok then return () else raiseFlags { wa := true }

/-- `RegRead(sa, off)` (41_register_access.md R124): `none` when the read failed. -/
def regRead (p : Params) (l : Loc) : Proc (Option Byte) := do
  workaround p l.sa
  match ← busWR l.sa [l.off] 1 with
  | some r => return some (r.getD 0 0)
  | none =>
    raiseFlags { bus := true }
    return none

/-- `RegPoll(sa, off)` (41_register_access.md R136): a failed poll read sets PBUS, never BUS. -/
def regPoll (p : Params) (l : Loc) : Proc (Option Byte) := do
  workaround p l.sa
  match ← busWR l.sa [l.off] 1 with
  | some r => return some (r.getD 0 0)
  | none =>
    raiseFlags { pbus := true }
    return none

/-- `RegWrite(sa, off, v)` (41_register_access.md R125). -/
def regWrite (p : Params) (l : Loc) (v : Byte) : Proc Bool := do
  workaround p l.sa
  let ok ← busW l.sa [l.off, v]
  if ok then
    return true
  else
    raiseFlags { bus := true }
    return false

/-- `RegReadBlock(sa, off, n)` (41_register_access.md R126). -/
def regReadBlock (p : Params) (l : Loc) (n : Nat) : Proc (Option (List Byte)) := do
  workaround p l.sa
  match ← busWR l.sa [l.off] n with
  | some r => return some r
  | none =>
    raiseFlags { bus := true }
    return none

/-- What a read-modify-write gives: `(ok, vr, vw)` of 41_register_access.md R127. -/
structure Rmw where
  ok : Bool
  vr : Byte
  vw : Byte
  deriving DecidableEq, Repr

/-- Read, modify by `f`, write back; no write is attempted when the read failed (41_register_access.md R127). -/
def regModify (p : Params) (l : Loc) (f : Byte → Byte) : Proc Rmw := do
  match ← regRead p l with
  | some v =>
    let ok ← regWrite p l (f v)
    return { ok := ok, vr := v, vw := f v }
  | none => return { ok := false, vr := 0, vw := 0 }

/-- `RegSet(sa, off, m)` (41_register_access.md R127). -/
def regSet (p : Params) (l : Loc) (m : Byte) : Proc Rmw := regModify p l fun v => v ||| m

/-- `RegClr(sa, off, m)` (41_register_access.md R128). -/
def regClr (p : Params) (l : Loc) (m : Byte) : Proc Rmw := regModify p l fun v => v &&& ~~~m

/-- Write a list of registers in order; every write is attempted, whatever became of the ones before it
(41_register_access.md R129, 45_video_config.md R221). -/
def regWriteAll (p : Params) (ws : List (Loc × Byte)) : Proc Unit :=
  match ws with
  | [] => return ()
  | (l, v) :: ws => do
    let _ ← regWrite p l v
    regWriteAll p ws

end Sys2Proof.Machine
end

