-- ==== Sys2Proof/Machine/Register.lean ====
section
/-! DEFINITION. NOP (30_encoding.md R106), the refusal of an illegal opcode (R105), and the five register commands
(41_register_access.md R130-R134). -/

namespace Sys2Proof.Machine

/-- NOP (30_encoding.md R106). -/
def cmdNop : Proc Code := do
  setRdata 0
  return .ok

/-- REG_READ (41_register_access.md R130). -/
def cmdRegRead (p : Params) (sa off : Byte) : Proc Code := do
  match ← regRead p ⟨sa, off⟩ with
  | some v =>
    setRdata (v.setWidth 32)
    return .ok
  | none =>
    setRdata 0
    return .busErr

/-- REG_WRITE (41_register_access.md R131). -/
def cmdRegWrite (p : Params) (sa off value : Byte) : Proc Code := do
  let ok ← regWrite p ⟨sa, off⟩ value
  setRdata 0
  return if ok then .ok else .busErr

/-- DBUF from the bytes a block read returned: byte k for k < len, and 0 past them (41_register_access.md R132). -/
def dbufOf (r : List Byte) : Vector Byte 16 := Vector.ofFn fun k => r.getD k.val 0

/-- REG_READ_BLOCK (41_register_access.md R132); a length outside 1..16 is refused (30_encoding.md R107). -/
def cmdRegReadBlock (p : Params) (sa off len : Byte) : Proc Code :=
  if blockLenOk len then do
    match ← regReadBlock p ⟨sa, off⟩ len.toNat with
    | some r =>
      writeShadow fun x => { x with dbuf := dbufOf r }
      setRdata 0
      return .ok
    | none =>
      setRdata 0
      return .busErr
  else refuse .illegalCmd

/-- `zext_32(hi << 8 | lo)`: how RDATA packs two bytes (10_state.md R39). -/
def rdataPair (low high : Byte) : Word := packWord low high 0 0

/-- REG_SET (41_register_access.md R133). -/
def cmdRegSet (p : Params) (sa off mask : Byte) : Proc Code := do
  let r ← regSet p ⟨sa, off⟩ mask
  setRdata (rdataPair r.vr r.vw)
  return if r.ok then .ok else .busErr

/-- REG_CLR (41_register_access.md R134). -/
def cmdRegClr (p : Params) (sa off mask : Byte) : Proc Code := do
  let r ← regClr p ⟨sa, off⟩ mask
  setRdata (rdataPair r.vr r.vw)
  return if r.ok then .ok else .busErr

/-- NOP. -/
def execNop (s : State) : Outcome := runCommand (fun _ => cmdNop) s

/-- REG_READ. -/
def execRegRead (sa off : Byte) (s : State) : Outcome := runCommand (fun p => cmdRegRead p sa off) s

/-- REG_WRITE. -/
def execRegWrite (sa off value : Byte) (s : State) : Outcome := runCommand (fun p => cmdRegWrite p sa off value) s

/-- REG_READ_BLOCK. -/
def execRegReadBlock (sa off len : Byte) (s : State) : Outcome :=
  runCommand (fun p => cmdRegReadBlock p sa off len) s

/-- REG_SET. -/
def execRegSet (sa off mask : Byte) (s : State) : Outcome := runCommand (fun p => cmdRegSet p sa off mask) s

/-- REG_CLR. -/
def execRegClr (sa off mask : Byte) (s : State) : Outcome := runCommand (fun p => cmdRegClr p sa off mask) s

/-- A word whose OP is not listed: refused with ILLEGAL_CMD (30_encoding.md R105). -/
def execIllegal (s : State) : Outcome := runCommand (fun _ => refuse .illegalCmd) s

end Sys2Proof.Machine
end

