-- ==== Sys2Proof/Machine/AuxChannel.lean ====
section
/-! DEFINITION. The AUX transaction controller (42_aux.md): its procedures, and the commands AUX_WRITE, AUX_READ and
AUX_RESET. -/

namespace Sys2Proof.Machine

/-- The outcome of an AUX op, `AuxRes` of 42_aux.md R140. -/
inductive AuxRes where
  | ok
  | echo
  | tmo
  | bus
  deriving DecidableEq, Repr

/-- `code(A_x)` (42_aux.md R140). -/
def AuxRes.code : AuxRes → Code
  | .ok => .ok
  | .echo => .auxErrEcho
  | .tmo => .auxTimeout
  | .bus => .busErr

/-- `auxLast <- s`: the shadow of AUX_LAST_STATUS (42_aux.md R144). -/
def setAuxLast (v : Byte) : Proc Unit := writeShadow fun r => { r with auxLastStatus := v }

/-- The reread at poll `i`, after the enable bit was seen clear: the error test uses this value only
(42_aux.md R144, R146). -/
def auxReread (p : Params) (i : Nat) : Proc (AuxRes × Nat) := do
  match ← regRead p p.CHIP_MAP.L_AUX_CTRL_STATUS with
  | none => return (.bus, i)
  | some s2 =>
    setAuxLast s2
    if s2 &&& Config.AUX_ERR_MASK ≠ 0 then
      raiseFlags { echo := true }
      return (.echo, i)
    else return (.ok, i)

/-- The polls of `AuxWait` from poll `i` on, `n` of them left (42_aux.md R144, R145). -/
def auxPolls (p : Params) (n i : Nat) : Proc (AuxRes × Nat) :=
  match n with
  | 0 => do
    raiseFlags { tmo := true }
    return (.tmo, Config.AUX_POLL_MAX)
  | n + 1 => do
    setPoll i
    delay p Config.AUX_POLL_MS
    match ← regPoll p p.CHIP_MAP.L_AUX_CTRL_STATUS with
    | none => auxPolls p n (i + 1)
    | some s =>
      setAuxLast s
      if s &&& p.CHIP_MAP.M_AUX_OP_EN = 0 then auxReread p i else auxPolls p n (i + 1)

/-- `AuxWait()` (42_aux.md R144). -/
def auxWait (p : Params) : Proc (AuxRes × Nat) := auxPolls p Config.AUX_POLL_MAX 1

/-- `AuxCombine(setupOk, w)` (42_aux.md R149). -/
def auxCombine (setupOk : Bool) (w : AuxRes) : AuxRes :=
  if w = .tmo then .tmo
  else if setupOk = false ∨ w = .bus then .bus
  else w

/-- `AuxWrite(offset)` (42_aux.md R142). -/
def auxWrite (p : Params) (offset : Byte) : Proc (AuxRes × Nat) := do
  let ok1 ← regWrite p p.CHIP_MAP.L_AUX_BUFF_START offset
  let ok2 ← regWrite p p.CHIP_MAP.L_AUX_COMMAND p.CHIP_MAP.K_AUX_CMD_SHORT_WRITE
  let r3 ← regSet p p.CHIP_MAP.L_AUX_CTRL_STATUS p.CHIP_MAP.M_AUX_OP_EN
  let (w, polls) ← auxWait p
  return (auxCombine (ok1 && ok2 && r3.ok) w, polls)

/-- `AuxRead(cmd)` (42_aux.md R143). -/
def auxRead (p : Params) (cmd : Byte) : Proc (AuxRes × Nat) := do
  let ok1 ← regWrite p p.CHIP_MAP.L_AUX_COMMAND cmd
  let r2 ← regSet p p.CHIP_MAP.L_AUX_CTRL_STATUS p.CHIP_MAP.M_AUX_OP_EN
  let (w, polls) ← auxWait p
  return (auxCombine (ok1 && r2.ok) w, polls)

/-- `AuxAddrOnly(dev)` (42_aux.md R148): the control byte is written whole. -/
def auxAddrOnly (p : Params) (dev : Byte) : Proc (AuxRes × Nat) := do
  let ok1 ← regWrite p p.CHIP_MAP.L_AUX_ADDR_7_0 dev
  let ok2 ← regWrite p p.CHIP_MAP.L_AUX_COMMAND p.CHIP_MAP.K_AUX_CMD_SHORT_WRITE
  let ok3 ← regWrite p p.CHIP_MAP.L_AUX_CTRL_STATUS (p.CHIP_MAP.M_AUX_ADDRONLY ||| p.CHIP_MAP.M_AUX_OP_EN)
  let (w, polls) ← auxWait p
  return (auxCombine (ok1 && ok2 && ok3) w, polls)

/-- `AuxReset()` (42_aux.md R147): the clear is attempted even if the set failed. -/
def auxReset (p : Params) : Proc Bool := do
  let r1 ← regSet p p.CHIP_MAP.L_AUX_RST p.CHIP_MAP.M_AUX_RST
  let r2 ← regClr p p.CHIP_MAP.L_AUX_RST p.CHIP_MAP.M_AUX_RST
  return r1.ok && r2.ok

/-- How AUX_WRITE and AUX_READ report an op (42_aux.md R150): RDATA is `auxLast << 8 | polls`, and the code is the
op's, or BUS_ERR when an A_OK op still set `acc.BUS`. -/
def auxReport (r : AuxRes × Nat) : Proc Code := do
  let s ← get
  setRdata (rdataPair (BitVec.ofNat 8 r.2) s.shadow.auxLastStatus)
  match r.1 with
  | .tmo => return .auxTimeout
  | .bus => return .busErr
  | .echo => return .auxErrEcho
  | .ok => endCode

/-- AUX_WRITE (42_aux.md R150). -/
def cmdAuxWrite (p : Params) (offset : Byte) : Proc Code := do
  let r ← auxWrite p offset
  auxReport r

/-- AUX_READ (42_aux.md R151). -/
def cmdAuxRead (p : Params) (lenCmd : Byte) : Proc Code := do
  let r ← auxRead p lenCmd
  auxReport r

/-- AUX_RESET (42_aux.md R152). -/
def cmdAuxReset (p : Params) : Proc Code := do
  let ok ← auxReset p
  setRdata 0
  return if ok then .ok else .busErr

/-- AUX_WRITE. -/
def execAuxWrite (offset : Byte) (s : State) : Outcome := runCommand (fun p => cmdAuxWrite p offset) s

/-- AUX_READ. -/
def execAuxRead (lenCmd : Byte) (s : State) : Outcome := runCommand (fun p => cmdAuxRead p lenCmd) s

/-- AUX_RESET. -/
def execAuxReset (s : State) : Outcome := runCommand cmdAuxReset s

end Sys2Proof.Machine
end

