-- ==== Sys2Proof/Machine/Edid.lean ====
section
/-! DEFINITION. The EDID segment-addressed read sequencer (43_edid.md): its procedures, and the commands
EDID_BLOCK_COUNT, EDID_READ_CHUNK, EDID_READ_SEGMENT and EDID_READ_FULL. -/

namespace Sys2Proof.Machine

/-- `Clamp(v)` (43_edid.md R161). -/
def edidClamp (v : Byte) : Byte := if 3 < v.toNat then 1 else v

/-- `BlockCount()` (43_edid.md R160): the AUX outcomes do not end it; `(count, raw)`. -/
def blockCount (p : Params) : Proc (Byte × Byte) := do
  let _ ← auxWrite p Config.EDID_COUNT_OFFSET
  let _ ← auxRead p p.CHIP_MAP.K_AUX_CMD_COUNT_READ
  match ← regRead p p.CHIP_MAP.L_AUX_BUFF_START with
  | none => return (0, 0)
  | some v => return (edidClamp v, v)

/-- What a chunk procedure gives: the outcome, the 16 bytes when the outcome is OK, and the attempts used. -/
structure Chunk where
  res : Code
  data : List Byte
  attempts : Nat
  deriving DecidableEq, Repr

/-- The attempts of `EdidChunk` from attempt `t` on, `n` of them left (43_edid.md R162, R163, R164). -/
def edidAttempts (p : Params) (offset : Byte) (n t : Nat) : Proc Chunk :=
  match n with
  | 0 => return { res := .edidRetryExhausted, data := [], attempts := Config.EDID_ATTEMPTS }
  | n + 1 => do
    setAttempt t
    let _ ← auxWrite p offset
    let (r, _) ← auxRead p p.CHIP_MAP.K_AUX_CMD_READ16
    match r with
    | .echo =>
      let _ ← auxReset p
      edidAttempts p offset n (t + 1)
    | .tmo => return { res := .auxTimeout, data := [], attempts := t }
    | .bus => return { res := .busErr, data := [], attempts := t }
    | .ok =>
      match ← regReadBlock p p.CHIP_MAP.L_AUX_BUFF_START Config.CHUNK_LEN with
      | none => return { res := .busErr, data := [], attempts := t }
      | some d => return { res := .ok, data := d, attempts := t }

/-- `EdidChunk(offset)` (43_edid.md R162). -/
def edidChunk (p : Params) (offset : Byte) : Proc Chunk := edidAttempts p offset Config.EDID_ATTEMPTS 1

/-- The rank of an outcome: A_TMO > A_BUS > A_ECHO > A_OK (43_edid.md R165, 60_exceptions.md R265). -/
def AuxRes.rank : AuxRes → Nat
  | .ok => 0
  | .echo => 1
  | .bus => 2
  | .tmo => 3

/-- The worse of two outcomes. -/
def AuxRes.worse (a b : AuxRes) : AuxRes := if a.rank < b.rank then b else a

/-- `EdidSegChunk(seg, offset)` (43_edid.md R165). -/
def edidSegChunk (p : Params) (seg offset : Byte) : Proc Chunk := do
  let (r1, _) ← auxAddrOnly p Config.EDID_SEG_ADDR
  let (r2, _) ← auxWrite p seg
  let ok3 ← regWrite p p.CHIP_MAP.L_AUX_ADDR_7_0 Config.EDID_DDC_ADDR
  let w := (r1.worse r2).worse (if ok3 then .ok else .bus)
  if w = .ok then edidChunk p offset
  else return { res := w.code, data := [], attempts := 0 }

/-- `EdidInit()` (43_edid.md R167): all three steps are attempted. -/
def edidInit (p : Params) : Proc Bool := do
  let ok1 ← regWrite p p.CHIP_MAP.L_AUX_ADDR_7_0 Config.EDID_DDC_ADDR
  let ok2 ← regWrite p p.CHIP_MAP.L_AUX_ADDR_15_8 0x00
  let r3 ← regClr p p.CHIP_MAP.L_AUX_ADDR_19_16 p.CHIP_MAP.M_AUX_ADDR_HI_CLR
  return ok1 && ok2 && r3.ok

/-- `dest(g, j) = 128·g + 16·j` for chunk k = 8·g + j (43_edid.md R168). -/
def chunkDest (k : Nat) : Nat := 128 * (k / Config.CHUNKS_PER_GROUP) + 16 * (k % Config.CHUNKS_PER_GROUP)

/-- The read of chunk k = 8·g + j in a full read (43_edid.md R166, R170): groups 0 and 1 by EdidChunk at the linear
offset `(8·g + j)·16`, groups 2 and 3 by EdidSegChunk of segment `g div 2` at `base + 16·j`. -/
def readChunk (p : Params) (k : Nat) : Proc Chunk :=
  let g := k / Config.CHUNKS_PER_GROUP
  let j := k % Config.CHUNKS_PER_GROUP
  if g ≤ 1 then edidChunk p (BitVec.ofNat 8 ((8 * g + j) * 16))
  else edidSegChunk p (BitVec.ofNat 8 (g / 2)) (BitVec.ofNat 8 ((if g = 2 then 0x00 else 0x80) + 16 * j))

/-- What collecting chunks gives: the failing chunk's code if one failed, chunks read, chunks copied. -/
structure Collected where
  fail : Option Code
  nOk : Nat
  nCopied : Nat
  deriving DecidableEq, Repr

/-- Collect chunks from chunk `k` on, `n` of them left; `nOk` and `nCopied` count the ones before. A successful chunk
is copied when it fits in `size` whole; the first failure stops all further collection (43_edid.md R169, R170). -/
def edidCollect (p : Params) (size n k nOk nCopied : Nat) : Proc Collected :=
  match n with
  | 0 => return { fail := none, nOk := nOk, nCopied := nCopied }
  | n + 1 => do
    setChunk k
    let c ← readChunk p k
    if c.res ≠ .ok then
      return { fail := some c.res, nOk := nOk, nCopied := nCopied }
    else if chunkDest k + 16 ≤ size then
      writeShadow fun r => { r with edidBuf := Memory.write r.edidBuf (chunkDest k) c.data }
      edidCollect p size n (k + 1) (nOk + 1) (nCopied + 1)
    else edidCollect p size n (k + 1) (nOk + 1) nCopied

/-- `x[EDID_BLOCKS] <- raw << 8 | c` (10_state.md R56). -/
def setEdidBlocks (c raw : Byte) : Proc Unit := writeShadow fun r => { r with edidCount := c, edidRaw := raw }

/-- `size = min(x[EDID_SIZE], EDID_BUF_LEN)` (43_edid.md R169). -/
def State.edidDestSize (s : State) : Nat := min s.inputs.edidSize.toNat Config.EDID_BUF_LEN

/-- EDID_READ_FULL (43_edid.md R170). -/
def cmdEdidReadFull (p : Params) : Proc Code := do
  let s ← get
  let ok ← edidInit p
  if ok then
    let (c, raw) ← blockCount p
    setEdidBlocks c raw
    let r ← edidCollect p s.edidDestSize (Config.CHUNKS_PER_GROUP * (c.toNat + 1)) 0 0 0
    let _ ← auxReset p
    writeShadow fun x => { x with edidValidLen := BitVec.ofNat 10 (16 * r.nCopied) }
    setRdata (rdataPair c (BitVec.ofNat 8 r.nOk))
    match r.fail with
    | some code => return code
    | none => endCode
  else
    setRdata 0
    return .edidInitFail

/-- EDID_BLOCK_COUNT (43_edid.md R171). -/
def cmdEdidBlockCount (p : Params) : Proc Code := do
  let (c, raw) ← blockCount p
  setEdidBlocks c raw
  setRdata (rdataPair c raw)
  endCode

/-- How EDID_READ_CHUNK and EDID_READ_SEGMENT report a chunk (43_edid.md R172). -/
def chunkReport (c : Chunk) : Proc Code :=
  if c.res = .ok then do
    writeShadow fun r => { r with dbuf := dbufOf c.data }
    setRdata (BitVec.ofNat 32 c.attempts)
    endCode
  else do
    setRdata (BitVec.ofNat 32 c.attempts)
    return c.res

/-- EDID_READ_CHUNK (43_edid.md R172). -/
def cmdEdidReadChunk (p : Params) (offset : Byte) : Proc Code := do
  let c ← edidChunk p offset
  chunkReport c

/-- EDID_READ_SEGMENT (43_edid.md R173). -/
def cmdEdidReadSegment (p : Params) (segment offset : Byte) : Proc Code := do
  let c ← edidSegChunk p segment offset
  chunkReport c

/-- EDID_BLOCK_COUNT. -/
def execEdidBlockCount (s : State) : Outcome := runCommand cmdEdidBlockCount s

/-- EDID_READ_CHUNK. -/
def execEdidReadChunk (offset : Byte) (s : State) : Outcome := runCommand (fun p => cmdEdidReadChunk p offset) s

/-- EDID_READ_SEGMENT. -/
def execEdidReadSegment (segment offset : Byte) (s : State) : Outcome :=
  runCommand (fun p => cmdEdidReadSegment p segment offset) s

/-- EDID_READ_FULL. -/
def execEdidReadFull (s : State) : Outcome := runCommand cmdEdidReadFull s

end Sys2Proof.Machine
end

