-- ==== Sys2Proof/Machine/Pll.lean ====
section
/-! DEFINITION. The fractional-PLL M/N solver (44_pll.md), a pure function on naturals, and the command PLL_SOLVE. -/

namespace Sys2Proof.Machine

/-- An Ok result of the solver (44_pll.md R191). -/
structure PllCoeffs where
  m : Nat
  n : Nat
  pd : Nat
  act : Nat
  deriving DecidableEq, Repr

/-- Step 1: the clock lies in the achievable envelope (44_pll.md R192). -/
def inEnvelope (p : Params) (clk : Nat) : Bool :=
  decide (clk ≤ p.PLL_OUT_FREQ_ABS_MAX / Config.POST_DIVIDER_MIN) &&
  decide (p.PLL_OUT_FREQ_ABS_MIN / Config.POST_DIVIDER_MAX ≤ clk)

/-- The legal dividers 1..16 in rising order (44_pll.md R193). -/
def dividers : List Nat := List.range' 1 Config.POST_DIVIDER_MAX

/-- Step 2: the smallest divider that meets the preferred bound, else the smallest that meets the absolute one
(44_pll.md R193). -/
def pickDivider (p : Params) (clk : Nat) : Option Nat :=
  match dividers.find? fun d => decide (p.PLL_OUT_FREQ_MIN / d ≤ clk) with
  | some d => some d
  | none => dividers.find? fun d => decide (p.PLL_OUT_FREQ_ABS_MIN / d ≤ clk)

/-- Step 3: snapping (44_pll.md R194, 90_conflicts.md C5). -/
def snap (d : Nat) : Nat :=
  match d with
  | 7 => 8
  | 11 => 12
  | 13 => 15
  | 14 => 15
  | d => d

/-- The source's subtraction form of the gcd (44_pll.md R196), with fuel. Only its result is observable, and R196 says
that it equals the ordinary gcd, which `reduce` uses. DEDUCED, safe (log entry 13). -/
def gcdSub (fuel a b : Nat) : Nat :=
  match fuel with
  | 0 => a
  | fuel + 1 => if a = b then a else if b < a then gcdSub fuel (a - b) b else gcdSub fuel a (b - a)

/-- Step 7 from divisor `i` on: the first divisor at which both fit 24 bits (44_pll.md R197). The fuel bounds the
divisors tried; `fit24` gives enough of it. -/
def fitFrom (fuel i m7 n7 : Nat) : Nat × Nat :=
  match fuel with
  | 0 => (0, 0)
  | fuel + 1 =>
    if m7 / i ≤ Config.MN_MAX ∧ n7 / i ≤ Config.MN_MAX then (m7 / i, n7 / i) else fitFrom fuel (i + 1) m7 n7

/-- Step 7: fit to 24 bits, always from the reduced values (44_pll.md R197). At divisor m7 + n7 + 1 both quotients
are 0, so the loop has ended by then. DEDUCED, safe (log entry 14). -/
def fit24 (m7 n7 : Nat) : Nat × Nat := fitFrom (m7 + n7 + 1) 1 m7 n7

/-- Step 8: double both while both stay within 24 bits (44_pll.md R198). For M ≥ 1 at most 23 doublings fit.
DEDUCED, safe: 24 is fuel enough (log entry 14). -/
def doubleUp (fuel m n : Nat) : Nat × Nat :=
  match fuel with
  | 0 => (m, n)
  | fuel + 1 =>
    if 2 * m ≤ Config.MN_MAX ∧ 2 * n ≤ Config.MN_MAX then doubleUp fuel (2 * m) (2 * n) else (m, n)

/-- `Reduce(M0, N0)`: steps 5 to 8 (44_pll.md R196-R198). -/
def reduce (m0 n0 : Nat) : Option (Nat × Nat) :=
  let g := Nat.gcd m0 n0
  let f := fit24 (m0 / g) (n0 / g)
  if f.1 = 0 ∨ f.2 = 0 then none else some (doubleUp 24 f.1 f.2)

/-- The achieved clock: `(M · XTAL div N) div pd` (44_pll.md R199). -/
def achieved (m n pd : Nat) : Nat := m * Config.XTAL_HZ / n / pd

/-- `PllSolve(clk)` (44_pll.md R191): `none` is Range. Step 4 (R195) rejects whenever `clk · pd` is too high, also where the
divider was not snapped, though a sentence of R202 says that it never does: DEDUCED, unsafe (log entry 25). -/
def pllSolve (p : Params) (clk : Nat) : Option PllCoeffs :=
  if inEnvelope p clk then
    match pickDivider p clk with
    | none => none
    | some raw =>
      let pd := snap raw
      if p.PLL_OUT_FREQ_ABS_MAX < clk * pd then none
      else
        match reduce clk (Config.XTAL_HZ / pd) with
        | none => none
        | some (m, n) => some { m := m, n := n, pd := pd, act := achieved m n pd }
  else none

/-- The PLL result registers after a successful solve (44_pll.md R190): PLL_ACTUAL_HZ saturates at 32 bits. -/
def setPll (c : PllCoeffs) : Proc Unit := writeShadow fun r =>
  { r with
    pllM := BitVec.ofNat 24 c.m
    pllN := BitVec.ofNat 24 c.n
    pllPd := BitVec.ofNat 5 c.pd
    pllActualHz := BitVec.ofNat 32 (min c.act 0xFFFFFFFF) }

/-- PLL_SOLVE (44_pll.md R190). -/
def cmdPllSolve (p : Params) : Proc Code := do
  let s ← get
  setRdata 0
  match pllSolve p s.inputs.pllClkHz.toNat with
  | none => return .pllRange
  | some c =>
    setPll c
    return .ok

/-- PLL_SOLVE. -/
def execPllSolve (s : State) : Outcome := runCommand cmdPllSolve s

end Sys2Proof.Machine
end

