-- ==== Sys2Proof/Machine/Power.lean ====
section
/-! DEFINITION. The power, hot-plug and link sequencer (46_power_link.md): the commands POWER_UP, WAIT_HPD, POWER_ROLE
and POWER_OFF. -/

namespace Sys2Proof.Machine

/-- `FwReady()` (46_power_link.md R241): `(ver, rev)` when the firmware is ready. -/
def fwReady (p : Params) : Proc (Option (Byte × Byte)) := do
  match ← regPoll p p.CHIP_MAP.L_FW_LOAD with
  | none => return none
  | some v =>
    if v &&& p.CHIP_MAP.M_FW_LOADED ≠ p.CHIP_MAP.M_FW_LOADED then return none
    else
      let ver ← regPoll p p.CHIP_MAP.L_FW_VER
      let rev ← regPoll p p.CHIP_MAP.L_FW_REV
      match ver, rev with
      | some ver, some rev => return if ver = 0 ∧ rev = 0 then none else some (ver, rev)
      | _, _ => return none

/-- The firmware polls of one attempt from poll `k` on, `n` of them left (46_power_link.md R242). -/
def fwPolls (p : Params) (n k : Nat) : Proc (Option (Byte × Byte)) :=
  match n with
  | 0 => return none
  | n + 1 => do
    setPoll k
    match ← fwReady p with
    | some vr => return some vr
    | none =>
      delay p Config.FW_POLL_MS
      fwPolls p n (k + 1)

/-- `PowerDown()` (46_power_link.md R243). -/
def powerDown (p : Params) : Proc Unit := do
  gpioSet .RST_REL false
  gpioSet .PWR_EN false
  delay p p.T_OFF_MS
  setPState .off

/-- The start of an attempt: power on, then reset released (46_power_link.md R240). -/
def powerOn (p : Params) : Proc Unit := do
  setPState .poweringUp
  gpioSet .PWR_EN true
  delay p p.T_PWR_MS
  gpioSet .RST_REL true
  delay p p.T_RST_MS

/-- `x[FW_INFO] <- rev << 8 | ver` (46_power_link.md R241). -/
def setFwInfo (ver rev : Byte) : Proc Unit := writeShadow fun r => { r with fwVersion := ver, fwRevision := rev }

/-- The attempts of POWER_UP from attempt `a` on, `n` of them left (46_power_link.md R240, R244). -/
def powerAttempts (p : Params) (n a : Nat) : Proc Code :=
  match n with
  | 0 => do
    setRdata (BitVec.ofNat 32 Config.POWERUP_ATTEMPTS)
    return .fwTimeout
  | n + 1 => do
    setAttempt a
    powerOn p
    match ← fwPolls p p.FW_POLL_MAX 1 with
    | some (ver, rev) =>
      setFwInfo ver rev
      setPState .firmwareLoaded
      setRdata (BitVec.ofNat 32 a)
      endCode
    | none =>
      powerDown p
      powerAttempts p n (a + 1)

/-- POWER_UP (46_power_link.md R240, R251). -/
def cmdPowerUp (p : Params) : Proc Code := do
  let s ← get
  if s.pstate ≠ .off then refuse .stateErr
  else powerAttempts p Config.POWERUP_ATTEMPTS 1

/-- `StartSequence()` (46_power_link.md R247): all three steps are attempted. -/
def startSequence (p : Params) : Proc Unit := do
  let _ ← regClr p p.CHIP_MAP.L_HDCP_CAP p.CHIP_MAP.M_HDCP_CAP
  let _ ← regSet p p.CHIP_MAP.L_AUTH p.CHIP_MAP.M_AUTH
  let _ ← regSet p p.CHIP_MAP.L_DRM_INT p.CHIP_MAP.M_DRM_INT
  return ()

/-- HPD was seen at poll `i` (46_power_link.md R245). -/
def hpdSeen (p : Params) (i : Nat) : Proc Code := do
  startSequence p
  setPState .linkReady
  setRdata (BitVec.ofNat 32 i)
  endCode

/-- The polls of WAIT_HPD from poll `i` on, `n` of them left (46_power_link.md R245, R246, R248). -/
def hpdPolls (p : Params) (n i : Nat) : Proc Code :=
  match n with
  | 0 => do
    setRdata (BitVec.ofNat 32 Config.HPD_POLL_MAX)
    return .hpdTimeout
  | n + 1 => do
    setPoll i
    delay p Config.HPD_POLL_MS
    match ← regPoll p p.CHIP_MAP.L_SYS_STATUS with
    | none => hpdPolls p n (i + 1)
    | some s => if s &&& p.CHIP_MAP.M_HPD ≠ 0 then hpdSeen p i else hpdPolls p n (i + 1)

/-- WAIT_HPD (46_power_link.md R245, R251). -/
def cmdWaitHpd (p : Params) : Proc Code := do
  let s ← get
  if s.pstate ≠ .firmwareLoaded then refuse .stateErr
  else hpdPolls p Config.HPD_POLL_MAX 1

/-- RDATA of POWER_ROLE: the role bit above the raw byte (46_power_link.md R249). -/
def roleWord (p : Params) (v : Byte) : Word :=
  v.setWidth 32 ||| bitAt (decide (v &&& p.CHIP_MAP.M_ROLE ≠ 0)) 8

/-- What RDATA of POWER_ROLE says: whether this side is the power source (46_power_link.md R249; log entry 23). -/
def roleIsSource (p : Params) (rdata : Word) : Bool := rdata.getLsbD 8 == p.ROLE_SET_MEANS_SOURCE

/-- POWER_ROLE (46_power_link.md R249). -/
def cmdPowerRole (p : Params) : Proc Code := do
  match ← regRead p p.CHIP_MAP.L_SYS_STATUS with
  | none =>
    setRdata 0
    return .busErr
  | some v =>
    setRdata (roleWord p v)
    return .ok

/-- POWER_OFF (46_power_link.md R250), accepted in FirmwareLoaded and LinkReady only, as R251 and R252 say. DEDUCED, safe
(log entry 21). -/
def cmdPowerOff (p : Params) : Proc Code := do
  let s ← get
  if s.pstate = .off ∨ s.pstate = .poweringUp then refuse .stateErr
  else
    powerDown p
    setRdata 0
    return .ok

/-- POWER_UP. -/
def execPowerUp (s : State) : Outcome := runCommand cmdPowerUp s

/-- WAIT_HPD. -/
def execWaitHpd (s : State) : Outcome := runCommand cmdWaitHpd s

/-- POWER_ROLE. -/
def execPowerRole (s : State) : Outcome := runCommand cmdPowerRole s

/-- POWER_OFF. -/
def execPowerOff (s : State) : Outcome := runCommand cmdPowerOff s

end Sys2Proof.Machine
end

