-- ==== Sys2Proof/Machine/Video.lean ====
section
/-! DEFINITION. The video-timing register programmer (45_video_config.md): the commands VIDEO_CONFIG and MN_STROBE. -/

namespace Sys2Proof.Machine

/-- `ProgramPixclk(kHz)`: the pair holds MHz (45_video_config.md R222). -/
def programPixclk (p : Params) (kHz : Nat) : Proc Unit :=
  regWriteAll p [(p.CHIP_MAP.L_PIXCLK_L, lo (kHz / 1000)), (p.CHIP_MAP.L_PIXCLK_H, hi (kHz / 1000))]

/-- `ProgramLanes()` (45_video_config.md R223). -/
def programLanes (p : Params) : Proc Unit := do
  let _ ← regClr p p.CHIP_MAP.L_LANE_CTRL p.CHIP_MAP.M_LANE_COUNT
  let _ ← regSet p p.CHIP_MAP.L_LANE_CTRL p.CHIP_MAP.K_LANE_1
  let _ ← regSet p p.CHIP_MAP.L_LANE_SWAP p.CHIP_MAP.M_LANE3_SWAP
  return ()

/-- `htotal`, the sum of the four horizontal parts mod 2^16 (45_video_config.md R224). -/
def Inputs.htotal (x : Inputs) : BitVec 16 := x.tHactive + x.tHfp + x.tHsync + x.tHbp

/-- `ProgramHorizontal()` (45_video_config.md R224). -/
def programHorizontal (p : Params) (x : Inputs) : Proc Unit :=
  regWriteAll p
    [(p.CHIP_MAP.L_HTOTAL_L, lo x.htotal.toNat), (p.CHIP_MAP.L_HTOTAL_H, hi x.htotal.toNat),
     (p.CHIP_MAP.L_HACTIVE_L, lo x.tHactive.toNat), (p.CHIP_MAP.L_HACTIVE_H, hi x.tHactive.toNat),
     (p.CHIP_MAP.L_HFP_L, lo x.tHfp.toNat), (p.CHIP_MAP.L_HFP_H, hi x.tHfp.toNat),
     (p.CHIP_MAP.L_HSYNC_L, lo x.tHsync.toNat), (p.CHIP_MAP.L_HSYNC_H, hi x.tHsync.toNat),
     (p.CHIP_MAP.L_HBP_L, lo x.tHbp.toNat), (p.CHIP_MAP.L_HBP_H, hi x.tHbp.toNat)]

/-- `ProgramVertical()`: the porches and the sync are single bytes (45_video_config.md R225). -/
def programVertical (p : Params) (x : Inputs) : Proc Unit :=
  regWriteAll p
    [(p.CHIP_MAP.L_VACTIVE_L, lo x.tVactive.toNat), (p.CHIP_MAP.L_VACTIVE_H, hi x.tVactive.toNat),
     (p.CHIP_MAP.L_VFP, lo x.tVfp.toNat), (p.CHIP_MAP.L_VSYNC, lo x.tVsync.toNat),
     (p.CHIP_MAP.L_VBP, lo x.tVbp.toNat)]

/-- `ProgramMN(M, N)`: most significant byte first, M before N (45_video_config.md R226). -/
def programMN (p : Params) (m n : Nat) : Proc Unit :=
  regWriteAll p
    [(p.CHIP_MAP.L_M_23_16, top m), (p.CHIP_MAP.L_M_15_8, hi m), (p.CHIP_MAP.L_M_7_0, lo m),
     (p.CHIP_MAP.L_N_23_16, top n), (p.CHIP_MAP.L_N_15_8, hi n), (p.CHIP_MAP.L_N_7_0, lo n)]

/-- `ProgramDigAdj()` (45_video_config.md R227). -/
def programDigAdj (p : Params) : Proc Unit := regWriteAll p [(p.CHIP_MAP.L_DIG_ADJ, p.CHIP_MAP.K_DIG_ADJ)]

/-- `ProgramPostdiv(pd)`: the whole byte, then the reset pulse, clear then set (45_video_config.md R228). -/
def programPostdiv (p : Params) (pd : Nat) : Proc Unit := do
  let _ ← regWrite p p.CHIP_MAP.L_POSTDIV (p.CHIP_MAP.M_REFCLK_SEL ||| BitVec.ofNat 8 (pd - 1))
  let _ ← regClr p p.CHIP_MAP.L_PLL_RST p.CHIP_MAP.M_PLL_RST_EN
  let _ ← regSet p p.CHIP_MAP.L_PLL_RST p.CHIP_MAP.M_PLL_RST_EN
  return ()

/-- `MnStrobe()`: both bits low, settle, both high (45_video_config.md R229). -/
def mnStrobe (p : Params) : Proc Unit := do
  let _ ← regClr p p.CHIP_MAP.L_MN_READY (p.CHIP_MAP.M_M_READY ||| p.CHIP_MAP.M_N_READY)
  delay p Config.MN_STROBE_MS
  let _ ← regSet p p.CHIP_MAP.L_MN_READY (p.CHIP_MAP.M_M_READY ||| p.CHIP_MAP.M_N_READY)
  return ()

/-- VIDEO_CONFIG (45_video_config.md R220, R230): the solver first, then every step in order, whatever fails. -/
def cmdVideoConfig (p : Params) : Proc Code := do
  let s ← get
  setRdata 0
  match pllSolve p (s.inputs.tPixclkKhz.toNat * 1000) with
  | none => return .pllRange
  | some c =>
    setPll c
    programPixclk p s.inputs.tPixclkKhz.toNat
    programLanes p
    programHorizontal p s.inputs
    programVertical p s.inputs
    programMN p c.m c.n
    programDigAdj p
    programPostdiv p c.pd
    mnStrobe p
    endCode

/-- MN_STROBE (45_video_config.md R232). -/
def cmdMnStrobe (p : Params) : Proc Code := do
  mnStrobe p
  setRdata 0
  endCode

/-- VIDEO_CONFIG. -/
def execVideoConfig (s : State) : Outcome := runCommand cmdVideoConfig s

/-- MN_STROBE. -/
def execMnStrobe (s : State) : Outcome := runCommand cmdMnStrobe s

end Sys2Proof.Machine
end

