-- ==== Sys2Proof/Machine/Dispatch.lean ====
section
/-! DEFINITION. The meaning of every command, one arm each (30_encoding.md R102). -/

namespace Sys2Proof.Machine

/-- Run an accepted command to its end. -/
def exec (i : Instr) (s : State) : Host.Outcome State Fault Refusal :=
  match i with
  | .nop => Sys2Proof.Machine.execNop s
  | .regRead sa off => Sys2Proof.Machine.execRegRead sa off s
  | .regWrite sa off value => Sys2Proof.Machine.execRegWrite sa off value s
  | .regReadBlock sa off len => Sys2Proof.Machine.execRegReadBlock sa off len s
  | .regSet sa off mask => Sys2Proof.Machine.execRegSet sa off mask s
  | .regClr sa off mask => Sys2Proof.Machine.execRegClr sa off mask s
  | .auxWrite offset => Sys2Proof.Machine.execAuxWrite offset s
  | .auxRead lenCmd => Sys2Proof.Machine.execAuxRead lenCmd s
  | .auxReset => Sys2Proof.Machine.execAuxReset s
  | .edidBlockCount => Sys2Proof.Machine.execEdidBlockCount s
  | .edidReadChunk offset => Sys2Proof.Machine.execEdidReadChunk offset s
  | .edidReadSegment segment offset => Sys2Proof.Machine.execEdidReadSegment segment offset s
  | .edidReadFull => Sys2Proof.Machine.execEdidReadFull s
  | .pllSolve => Sys2Proof.Machine.execPllSolve s
  | .videoConfig => Sys2Proof.Machine.execVideoConfig s
  | .mnStrobe => Sys2Proof.Machine.execMnStrobe s
  | .powerUp => Sys2Proof.Machine.execPowerUp s
  | .waitHpd => Sys2Proof.Machine.execWaitHpd s
  | .powerRole => Sys2Proof.Machine.execPowerRole s
  | .powerOff => Sys2Proof.Machine.execPowerOff s

end Sys2Proof.Machine
end

