-- ==== Sys2Proof/Machine/Fetch.lean ====
section
/-! DEFINITION. What the host's next input does to an idle engine, and how an accepted command word comes to run
(10_state.md R34, R60, R61; 20_memory.md R97; 70_reset_and_hazards.md R290). There is no program counter: the unit of
work is one command, started by a host write to CMD (10_state.md R31). -/

namespace Sys2Proof.Machine

/-- What one host input asks of the engine. -/
inductive Request where
  /-- Nothing more: the engine is in this state. -/
  | done (s : State)
  /-- CMD was written while BUSY = 0: this word is to be accepted in this state. -/
  | command (w : Word) (s : State)

/-- A host write (10_state.md R34, R60, R61): dropped with OVR while BUSY = 1; a command word at CMD; else the
register's own rule. -/
def hostWrite (a : WordIndex) (v : Word) (s : State) : Request :=
  if s.busy then .done s.overrun
  else
    match hostRegAt a with
    | .cmd => .command v s
    | r => .done (writeReg r v s)

/-- The host's next input, taken between commands. With none pending the engine stays as it is; `pass` and `wait`
ask nothing of an idle engine. DESIGN CHOICE, safe (log entries 5, 16). -/
def hostNext (s : State) : Request :=
  match s.host with
  | [] => .done s
  | .pass :: rest => .done (s.setHost rest)
  | .wait :: rest => .done (s.setHost rest)
  | .read a :: rest => .done ((s.setHost rest).logRead a)
  | .write a v :: rest => hostWrite a v (s.setHost rest)
  | .reset :: rest => .done (s.setHost rest).engineReset

/-- Accept a command word and run what it selects (10_state.md R34, 30_encoding.md R102, R105). -/
def runWord (w : Word) (s : State) : Outcome :=
  match decodeWord w with
  | .ok i => exec i (s.accept w)
  | .error _ => execIllegal (s.accept w)

/-- Do what the host asked. -/
def serveRequest (r : Request) : Outcome :=
  match r with
  | .done s => .next s
  | .command w s => runWord w s

/-- CMD's word index (10_state.md R34). -/
def cmdIndex : WordIndex := 0

/-- The host is about to write the command word `w` to CMD, and the engine is idle. -/
def State.withCommand (s : State) (w : Word) : State :=
  { s with busy := false, host := .write cmdIndex w :: s.host }

end Sys2Proof.Machine
end

