-- ==== Sys2Proof/Machine/Step.lean ====
section
/-! DEFINITION. One step of the machine: the host's next input takes effect, and a command it starts runs to its end. -/

namespace Sys2Proof.Machine

/-- One step. -/
def step (s : State) : Host.Outcome State Fault Refusal := serveRequest (hostNext s)

/-- `s` with the command whose bits are `w` as the host's next write to CMD (spec/opcode_table.json's numbering; the
bits above `nbits` are 0), the engine idle. DESIGN CHOICE, safe: how a program comes to run (log entry 6). -/
def State.withFetchWord (s : State) (nbits w : Nat) : State := s.withCommand (BitVec.ofNat 32 (w % 2 ^ nbits))

end Sys2Proof.Machine
end

