-- ==== Sys2Proof/Safety.lean ====
section
/-! DEFINITION. The terms in which statements about a run are made: when the host leaves a command alone, what holds
of the engine between commands, and what the trace says. -/

namespace Sys2Proof.Machine

/-- The host does nothing while the next command runs: it has no input pending, or it waits for BUSY = 0
(30_encoding.md R111). -/
def State.quiet (s : State) : Bool :=
  match s.host with
  | [] => true
  | .wait :: _ => true
  | _ => false

/-- What a host read at a byte offset of the host space returns (10_state.md R32). -/
def State.readAt (s : State) (off : Nat) : Word := readReg (hostRegAtOffset off) s

/-- No engine reset is among the host's pending inputs (70_reset_and_hazards.md R292). -/
def State.noReset (s : State) : Bool := decide (HostInput.reset ∉ s.host)

/-- The sub-address of a bus event; delays and pin changes have none (00_scope.md R15). -/
def Event.busSa (e : Event) : Option Byte :=
  match e with
  | .w sa _ _ => some sa
  | .wr sa _ _ _ _ => some sa
  | .d _ => none
  | .g _ _ => none

/-- The sub-address of the last bus transaction of a trace, if it has one. -/
def lastBusSa (tr : List Event) : Option Byte := (tr.filterMap Event.busSa).getLast?

/-- The last-address memory records the sub-address of the previous register access (10_state.md R58,
41_register_access.md R123): when valid, it is the sub-address of the trace's last bus transaction. -/
def State.laTracks (s : State) : Prop := s.la.valid = true → lastBusSa s.trace = some s.la.sa

/-- The post-dividers a solve can leave in PLL_PD, and 0 for none yet (10_state.md R49, 44_pll.md R194). -/
def legalPd : List Nat := [0, 1, 2, 3, 4, 5, 6, 8, 9, 10, 12, 15, 16]

/-- What holds of a set of result registers (10_state.md R49, R56, R57; 20_memory.md R87): EDID_BUF has its canonical
form, PLL_PD is a snapped divider, the block count is at most 3, EDID_VALID_LEN is at most 512, and every byte it
counts has been written. -/
structure ResultsOk (r : Results) : Prop where
  buf : Memory.wf r.edidBuf = true
  pd : r.pllPd.toNat ∈ legalPd
  count : r.edidCount.toNat ≤ 3
  len : r.edidValidLen.toNat ≤ Config.EDID_BUF_LEN
  valid : ∀ a, a < r.edidValidLen.toNat → (Memory.readByte r.edidBuf a).isSome = true

/-- What holds of the engine between commands: it is idle (10_state.md R31, R37); FAIL says that RESULT is not OK
(R35); POWER_UP is over (46_power_link.md R251); LAST_ADDR shows the last-address memory (R42); and the result
registers are as above. -/
structure State.Inv (s : State) : Prop where
  idle : s.busy = false
  fail : s.fail = s.result.fails
  pstate : s.pstate ≠ .poweringUp
  lastAddr : s.lastAddr = s.la
  results : ResultsOk s.results

/-- The workaround write's event, when it fires (41_register_access.md R120): none when the last access was to `sa`. -/
def waEvents (p : Params) (la : LastAddr) (sa : Byte) (ok : Bool) : List Event :=
  if la.valid = true ∧ la.sa = sa then [] else [.w sa [waOffset p sa, Config.WA_VALUE] ok]

/-- ERR_ACC.WA's contribution of a workaround write (41_register_access.md R122). -/
def waFailed (la : LastAddr) (sa : Byte) (ok : Bool) : Bool :=
  if la.valid = true ∧ la.sa = sa then false else !ok

end Sys2Proof.Machine
end

