-- ==== Sys2Proof/Machine/Effects.lean ====
section
/-! DEFINITION. What a command's rule lists, as data: the chip's answers to each access of a procedure (a draw), and the
effect the rule gives for them (the events in order, the flags, the last AUX status byte). The statements about commands
say that a command's next state is `State.completed` with such an effect: a trace, as 00_scope.md R15 describes it, and
a commit, as 10_state.md R33 does. Nothing here is used by the step. -/

namespace Sys2Proof.Machine

/-! ## Events with the workaround writes between them -/

/-- One event of a rule, and the answer to the workaround write before it, if one fires there. -/
structure Act where
  ev : Event
  wa : Bool := true
  deriving DecidableEq, Repr

/-- The trace of a list of acts: before a bus event whose sub-address is not the last one, the workaround write
(41_register_access.md R120, R123, R135). -/
def weave (p : Params) (la : LastAddr) (acts : List Act) : List Event :=
  match acts with
  | [] => []
  | a :: acts =>
    match Event.busSa a.ev with
    | none => a.ev :: weave p la acts
    | some sa => waEvents p la sa a.wa ++ a.ev :: weave p { valid := true, sa := sa } acts

/-- The last-address memory after a list of acts (10_state.md R58). -/
def weaveLa (la : LastAddr) (acts : List Act) : LastAddr :=
  match acts with
  | [] => la
  | a :: acts =>
    match Event.busSa a.ev with
    | none => weaveLa la acts
    | some sa => weaveLa { valid := true, sa := sa } acts

/-- Whether a workaround write of a list of acts failed (41_register_access.md R122). -/
def weaveWa (la : LastAddr) (acts : List Act) : Bool :=
  match acts with
  | [] => false
  | a :: acts =>
    match Event.busSa a.ev with
    | none => weaveWa la acts
    | some sa => waFailed la sa a.wa || weaveWa { valid := true, sa := sa } acts

/-- The delays of a trace, in ms (00_scope.md R13). -/
def delayMs (evs : List Event) : Nat :=
  match evs with
  | [] => 0
  | .d ms :: evs => ms + delayMs evs
  | _ :: evs => delayMs evs

/-- The bus transactions of a trace. -/
def busCount (evs : List Event) : Nat := (evs.filterMap Event.busSa).length

/-- The pins after a trace (00_scope.md R13, 10_state.md R43). -/
def Gpio.after (g : Gpio) (evs : List Event) : Gpio :=
  match evs with
  | [] => g
  | .g pin v :: evs => Gpio.after (g.setPin pin v) evs
  | _ :: evs => Gpio.after g evs

/-! ## Effects -/

/-- What a procedure did: its events, the flags it raised (a failed workaround write's is told by the events), and the
last AUX status byte it read, if it read one. -/
structure Effect where
  acts : List Act := []
  acc : Acc := {}
  last : Option Byte := none
  deriving DecidableEq, Repr

/-- One effect and then another. -/
def Effect.seq (a b : Effect) : Effect where
  acts := a.acts ++ b.acts
  acc := a.acc.or b.acc
  last := b.last.or a.last

/-- AUX_LAST_STATUS after an effect (10_state.md R41). -/
def Effect.status (e : Effect) (r : Results) : Byte := e.last.getD r.auxLastStatus

/-- Result registers with AUX_LAST_STATUS as an effect leaves it. -/
def Results.withStatus (r : Results) (e : Effect) : Results := { r with auxLastStatus := e.status r }

/-- What the model does not fix of a completed command from the effect alone: what the host did while it ran, and the
hidden loop counters (10_state.md R62). -/
structure Side where
  left : List HostInput
  reads : List HostRead
  ovr : Bool
  loop : Loops
  deriving DecidableEq, Repr

/-- The index a host read asks for. -/
def HostInput.readIndex (h : HostInput) : Option WordIndex :=
  match h with
  | .read a => some a
  | _ => none

/-- A host write. -/
def HostInput.isWrite (h : HostInput) : Bool :=
  match h with
  | .write _ _ => true
  | _ => false

/-- The host took inputs from the front of what it had pending: its reads were answered, a write among them set OVR,
none was a reset, and a quiet host took none (10_state.md R33, R61). -/
def Side.takenFrom (x : Side) (s : State) : Prop :=
  ∃ taken, s.host = taken ++ x.left ∧ x.reads.map HostRead.a = taken.filterMap HostInput.readIndex ∧
    x.ovr = taken.any HostInput.isWrite ∧ HostInput.reset ∉ taken ∧ (s.quiet = true → taken = [])

/-- The state a command leaves that ran to its commit from `s` with effect `e`, result registers `r`, power state `st`
and code `c` (10_state.md R33): every field named here has the value given here, and every other field is as it was. -/
def State.completed (s : State) (x : Side) (e : Effect) (r : Results) (st : PState) (c : Code) : State :=
  let evs := weave s.params.params s.la e.acts
  let acc := e.acc.or { wa := weaveWa s.la e.acts }
  { s with
    busy := false
    done := true
    fail := c.fails
    result := c
    pstate := st
    results := r
    shadow := r
    la := weaveLa s.la e.acts
    lastAddr := weaveLa s.la e.acts
    acc := acc
    errAcc := ErrAcc.orAcc { s.errAcc with ovr := s.errAcc.ovr || x.ovr } acc
    gpio := s.gpio.after evs
    timebase := s.timebase + delayMs evs * s.params.params.CLK_PER_MS
    trace := s.trace ++ evs
    chip := s.chip.drop (busCount evs)
    loop := x.loop
    host := x.left
    hostLog := s.hostLog ++ x.reads }

/-! ## Single accesses (41_register_access.md R124-R128, R136) -/

/-- A read of one byte: the workaround write's answer, and the byte, or `none`: the read failed. -/
structure RdDraw where
  wa : Bool
  v : Option Byte
  deriving DecidableEq, Repr

/-- A write of one byte: the workaround write's answer, and the write's. -/
structure WrDraw where
  wa : Bool
  ok : Bool
  deriving DecidableEq, Repr

/-- A read-modify-write: the workaround write's answer, the byte read, and the answer to the write. -/
structure RmwDraw where
  wa : Bool
  v : Option Byte
  ok : Bool
  deriving DecidableEq, Repr

/-- A block read. -/
structure BlkDraw where
  wa : Bool
  v : Option (Vector Byte 16)
  deriving DecidableEq, Repr

/-- Both transactions of a read-modify-write succeeded (41_register_access.md R127). -/
def RmwDraw.good (d : RmwDraw) : Bool := d.v.isSome && d.ok

/-- The event of a one-byte read. -/
def readEvent (l : Loc) (v : Option Byte) : Event := .wr l.sa [l.off] 1 v.isSome v.toList

/-- RegRead (41_register_access.md R124). -/
def readEff (l : Loc) (d : RdDraw) : Effect where
  acts := [{ ev := readEvent l d.v, wa := d.wa }]
  acc := { bus := d.v.isNone }

/-- RegPoll (41_register_access.md R136). -/
def pollEff (l : Loc) (d : RdDraw) : Effect where
  acts := [{ ev := readEvent l d.v, wa := d.wa }]
  acc := { pbus := d.v.isNone }

/-- RegWrite (41_register_access.md R125). -/
def writeEff (l : Loc) (v : Byte) (d : WrDraw) : Effect where
  acts := [{ ev := .w l.sa [l.off, v] d.ok, wa := d.wa }]
  acc := { bus := !d.ok }

/-- The bytes a block read of `n` gives. -/
def BlkDraw.bytes (d : BlkDraw) (n : Nat) : Option (List Byte) := d.v.map fun b => b.toList.take n

/-- RegReadBlock (41_register_access.md R126). -/
def blockEff (l : Loc) (n : Nat) (d : BlkDraw) : Effect where
  acts := [{ ev := .wr l.sa [l.off] n d.v.isSome ((d.bytes n).getD []), wa := d.wa }]
  acc := { bus := d.v.isNone }

/-- RegSet and RegClr, by what they do to the byte: no write without a value read (41_register_access.md R127, R128). -/
def rmwEff (l : Loc) (f : Byte → Byte) (d : RmwDraw) : Effect :=
  match d.v with
  | none => readEff l { wa := d.wa, v := none }
  | some v => (readEff l { wa := d.wa, v := some v }).seq (writeEff l (f v) { wa := true, ok := d.ok })

/-- RegSet (41_register_access.md R127). -/
def setEff (l : Loc) (m : Byte) (d : RmwDraw) : Effect := rmwEff l (fun v => v ||| m) d

/-- RegClr (41_register_access.md R128). -/
def clrEff (l : Loc) (m : Byte) (d : RmwDraw) : Effect := rmwEff l (fun v => v &&& ~~~m) d

/-- `Delay(ms)` (00_scope.md R13). -/
def delayEff (ms : Nat) : Effect where
  acts := [{ ev := .d ms }]

/-- `GpioSet(pin, v)` (00_scope.md R13). -/
def pinEff (pin : Pin) (v : Bool) : Effect where
  acts := [{ ev := .g pin v }]

/-- A list of writes, each with its draw, all attempted (45_video_config.md R221). -/
def writesEff (ws : List (Loc × Byte)) (ds : List WrDraw) : Effect :=
  match ws, ds with
  | w :: ws, d :: ds => (writeEff w.1 w.2 d).seq (writesEff ws ds)
  | _, _ => {}

/-! ## AUX (42_aux.md) -/

/-- How an AuxWait ends: no poll saw the enable bit clear; or a poll read `s` with the bit clear, and the reread. -/
inductive WaitEnd where
  | timeout
  | clear (wa : Bool) (s : Byte) (reread : RdDraw)
  deriving DecidableEq, Repr

/-- The polls of an AuxWait that did not see the enable bit clear, and how it ends (42_aux.md R144). -/
structure WaitDraw where
  pending : List RdDraw
  fin : WaitEnd
  deriving DecidableEq, Repr

/-- A poll that does not see the enable bit clear: it failed, or the bit is set. -/
def notClear (p : Params) (d : RdDraw) : Bool :=
  match d.v with
  | none => true
  | some s => decide (s &&& p.CHIP_MAP.M_AUX_OP_EN ≠ 0)

/-- The polls are those of 42_aux.md R144: at most 150 in all, exactly 150 at a timeout. -/
def WaitDraw.legal (p : Params) (d : WaitDraw) : Bool :=
  d.pending.all (notClear p) &&
  match d.fin with
  | .timeout => decide (d.pending.length = Config.AUX_POLL_MAX)
  | .clear _ s _ => decide (d.pending.length < Config.AUX_POLL_MAX) && decide (s &&& p.CHIP_MAP.M_AUX_OP_EN = 0)

/-- The polls performed (42_aux.md R144). -/
def WaitDraw.polls (d : WaitDraw) : Nat :=
  match d.fin with
  | .timeout => Config.AUX_POLL_MAX
  | .clear _ _ _ => d.pending.length + 1

/-- The outcome: the error flags are those of the reread alone (42_aux.md R144, R146). -/
def WaitDraw.res (d : WaitDraw) : AuxRes :=
  match d.fin with
  | .timeout => .tmo
  | .clear _ _ r =>
    match r.v with
    | none => .bus
    | some s2 => if s2 &&& Config.AUX_ERR_MASK = 0 then .ok else .echo

/-- One poll of an AuxWait: 2 ms, then the read (42_aux.md R144). -/
def auxPollEff (p : Params) (d : RdDraw) : Effect :=
  (delayEff Config.AUX_POLL_MS).seq { pollEff p.CHIP_MAP.L_AUX_CTRL_STATUS d with last := d.v }

/-- The polls that do not end the wait. -/
def auxPollsEff (p : Params) (ds : List RdDraw) : Effect :=
  match ds with
  | [] => {}
  | d :: ds => (auxPollEff p d).seq (auxPollsEff p ds)

/-- The flags of how the wait ends, and the reread (42_aux.md R144, R145). -/
def waitEndEff (p : Params) (fin : WaitEnd) : Effect :=
  match fin with
  | .timeout => { acc := { tmo := true } }
  | .clear wa s r =>
    (auxPollEff p { wa := wa, v := some s }).seq
      (Effect.seq { readEff p.CHIP_MAP.L_AUX_CTRL_STATUS r with last := r.v }
        { acc := { echo := decide (WaitDraw.res { pending := [], fin := fin } = .echo) } })

/-- AuxWait (42_aux.md R144). -/
def waitEff (p : Params) (d : WaitDraw) : Effect := (auxPollsEff p d.pending).seq (waitEndEff p d.fin)

/-- AuxWrite's accesses (42_aux.md R142). -/
structure AuxWriteDraw where
  start : WrDraw
  cmd : WrDraw
  en : RmwDraw
  wait : WaitDraw
  deriving DecidableEq, Repr

/-- AuxRead's accesses (42_aux.md R143). -/
structure AuxReadDraw where
  cmd : WrDraw
  en : RmwDraw
  wait : WaitDraw
  deriving DecidableEq, Repr

/-- AuxAddrOnly's accesses (42_aux.md R148). -/
structure AddrDraw where
  dev : WrDraw
  cmd : WrDraw
  ctl : WrDraw
  wait : WaitDraw
  deriving DecidableEq, Repr

/-- AuxReset's accesses (42_aux.md R147). -/
structure PulseDraw where
  set : RmwDraw
  clr : RmwDraw
  deriving DecidableEq, Repr

/-- AuxWrite's outcome (42_aux.md R142, R149). -/
def AuxWriteDraw.res (d : AuxWriteDraw) : AuxRes := auxCombine (d.start.ok && d.cmd.ok && d.en.good) d.wait.res

/-- AuxRead's outcome (42_aux.md R143, R149). -/
def AuxReadDraw.res (d : AuxReadDraw) : AuxRes := auxCombine (d.cmd.ok && d.en.good) d.wait.res

/-- AuxAddrOnly's outcome (42_aux.md R148, R149). -/
def AddrDraw.res (d : AddrDraw) : AuxRes := auxCombine (d.dev.ok && d.cmd.ok && d.ctl.ok) d.wait.res

/-- AuxWrite (42_aux.md R142): all setup steps, then the wait, in every case. -/
def auxWriteEff (p : Params) (offset : Byte) (d : AuxWriteDraw) : Effect :=
  (writeEff p.CHIP_MAP.L_AUX_BUFF_START offset d.start).seq
    ((writeEff p.CHIP_MAP.L_AUX_COMMAND p.CHIP_MAP.K_AUX_CMD_SHORT_WRITE d.cmd).seq
      ((setEff p.CHIP_MAP.L_AUX_CTRL_STATUS p.CHIP_MAP.M_AUX_OP_EN d.en).seq (waitEff p d.wait)))

/-- AuxRead (42_aux.md R143). -/
def auxReadEff (p : Params) (cmd : Byte) (d : AuxReadDraw) : Effect :=
  (writeEff p.CHIP_MAP.L_AUX_COMMAND cmd d.cmd).seq
    ((setEff p.CHIP_MAP.L_AUX_CTRL_STATUS p.CHIP_MAP.M_AUX_OP_EN d.en).seq (waitEff p d.wait))

/-- AuxAddrOnly (42_aux.md R148). -/
def addrEff (p : Params) (dev : Byte) (d : AddrDraw) : Effect :=
  (writeEff p.CHIP_MAP.L_AUX_ADDR_7_0 dev d.dev).seq
    ((writeEff p.CHIP_MAP.L_AUX_COMMAND p.CHIP_MAP.K_AUX_CMD_SHORT_WRITE d.cmd).seq
      ((writeEff p.CHIP_MAP.L_AUX_CTRL_STATUS (p.CHIP_MAP.M_AUX_ADDRONLY ||| p.CHIP_MAP.M_AUX_OP_EN) d.ctl).seq
        (waitEff p d.wait)))

/-- AuxReset (42_aux.md R147). -/
def auxResetEff (p : Params) (d : PulseDraw) : Effect :=
  (setEff p.CHIP_MAP.L_AUX_RST p.CHIP_MAP.M_AUX_RST d.set).seq (clrEff p.CHIP_MAP.L_AUX_RST p.CHIP_MAP.M_AUX_RST d.clr)

/-! ## EDID (43_edid.md) -/

/-- BlockCount's accesses (43_edid.md R160). -/
structure CountDraw where
  write : AuxWriteDraw
  read : AuxReadDraw
  byte : RdDraw
  deriving DecidableEq, Repr

/-- The two AUX ops' polls are legal. -/
def CountDraw.legal (p : Params) (d : CountDraw) : Bool := d.write.wait.legal p && d.read.wait.legal p

/-- The raw byte: 0 when its read failed (43_edid.md R160). -/
def CountDraw.raw (d : CountDraw) : Byte := d.byte.v.getD 0

/-- BlockCount (43_edid.md R160). -/
def countEff (p : Params) (d : CountDraw) : Effect :=
  (auxWriteEff p Config.EDID_COUNT_OFFSET d.write).seq
    ((auxReadEff p p.CHIP_MAP.K_AUX_CMD_COUNT_READ d.read).seq (readEff p.CHIP_MAP.L_AUX_BUFF_START d.byte))

/-- An attempt of a chunk that echoed, and the reset after it (43_edid.md R162). -/
structure EchoDraw where
  write : AuxWriteDraw
  read : AuxReadDraw
  reset : PulseDraw
  deriving DecidableEq, Repr

/-- The attempt that ends a chunk: the block read is made only when the AuxRead's outcome is A_OK (43_edid.md R162). -/
structure LastDraw where
  write : AuxWriteDraw
  read : AuxReadDraw
  block : BlkDraw
  deriving DecidableEq, Repr

/-- The attempts of an EdidChunk; `none`: all of them echoed (43_edid.md R162). -/
structure ChunkDraw where
  echoes : List EchoDraw
  last : Option LastDraw
  deriving DecidableEq, Repr

/-- An attempt whose AuxRead echoed. -/
def EchoDraw.legal (p : Params) (d : EchoDraw) : Bool :=
  d.write.wait.legal p && d.read.wait.legal p && decide (d.read.res = .echo)

/-- An attempt whose AuxRead did not echo. -/
def LastDraw.legal (p : Params) (d : LastDraw) : Bool :=
  d.write.wait.legal p && d.read.wait.legal p && decide (d.read.res ≠ .echo)

/-- At most 3 attempts, and exactly 3 echoes when the chunk is abandoned (43_edid.md R162). -/
def ChunkDraw.legal (p : Params) (d : ChunkDraw) : Bool :=
  d.echoes.all (EchoDraw.legal p) &&
  match d.last with
  | none => decide (d.echoes.length = Config.EDID_ATTEMPTS)
  | some l => decide (d.echoes.length < Config.EDID_ATTEMPTS) && l.legal p

/-- What the chunk gives (43_edid.md R162, R163, R164). -/
def ChunkDraw.chunk (d : ChunkDraw) : Chunk :=
  match d.last with
  | none => { res := .edidRetryExhausted, data := [], attempts := Config.EDID_ATTEMPTS }
  | some l =>
    match l.read.res, l.block.bytes Config.CHUNK_LEN with
    | .ok, some b => { res := .ok, data := b, attempts := d.echoes.length + 1 }
    | .tmo, _ => { res := .auxTimeout, data := [], attempts := d.echoes.length + 1 }
    | _, _ => { res := .busErr, data := [], attempts := d.echoes.length + 1 }

/-- One attempt's two AUX ops (43_edid.md R162). -/
def attemptEff (p : Params) (offset : Byte) (w : AuxWriteDraw) (r : AuxReadDraw) : Effect :=
  (auxWriteEff p offset w).seq (auxReadEff p p.CHIP_MAP.K_AUX_CMD_READ16 r)

/-- The attempts that echoed, each with its AuxReset (43_edid.md R162). -/
def echoesEff (p : Params) (offset : Byte) (ds : List EchoDraw) : Effect :=
  match ds with
  | [] => {}
  | d :: ds => (attemptEff p offset d.write d.read).seq ((auxResetEff p d.reset).seq (echoesEff p offset ds))

/-- The attempt that ends a chunk (43_edid.md R162, R164). -/
def lastEff (p : Params) (offset : Byte) (d : LastDraw) : Effect :=
  (attemptEff p offset d.write d.read).seq
    (if d.read.res = .ok then blockEff p.CHIP_MAP.L_AUX_BUFF_START Config.CHUNK_LEN d.block else {})

/-- EdidChunk (43_edid.md R162). -/
def chunkEff (p : Params) (offset : Byte) (d : ChunkDraw) : Effect :=
  (echoesEff p offset d.echoes).seq
    (match d.last with
    | none => {}
    | some l => lastEff p offset l)

/-- EdidSegChunk's setup, and the chunk read that follows when it succeeded (43_edid.md R165). -/
structure SegDraw where
  addr : AddrDraw
  write : AuxWriteDraw
  dev : WrDraw
  chunk : Option ChunkDraw
  deriving DecidableEq, Repr

/-- The worst of the setup's outcomes (43_edid.md R165). -/
def SegDraw.worst (d : SegDraw) : AuxRes := (d.addr.res.worse d.write.res).worse (if d.dev.ok then .ok else .bus)

/-- A chunk is read exactly when the setup succeeded (43_edid.md R165). -/
def SegDraw.legal (p : Params) (d : SegDraw) : Bool :=
  d.addr.wait.legal p && d.write.wait.legal p &&
  match d.chunk with
  | none => decide (d.worst ≠ .ok)
  | some c => decide (d.worst = .ok) && c.legal p

/-- What the segment chunk gives: no attempt and the setup's code when the setup failed (43_edid.md R165, R173). -/
def SegDraw.result (d : SegDraw) : Chunk :=
  match d.chunk with
  | none => { res := d.worst.code, data := [], attempts := 0 }
  | some c => c.chunk

/-- EdidSegChunk (43_edid.md R165). -/
def segEff (p : Params) (seg offset : Byte) (d : SegDraw) : Effect :=
  (addrEff p Config.EDID_SEG_ADDR d.addr).seq
    ((auxWriteEff p seg d.write).seq
      ((writeEff p.CHIP_MAP.L_AUX_ADDR_7_0 Config.EDID_DDC_ADDR d.dev).seq
        (match d.chunk with
        | none => {}
        | some c => chunkEff p offset c)))

/-- One chunk of a full read: of groups 0 and 1 directly, of groups 2 and 3 by segment (43_edid.md R170). -/
inductive PieceDraw where
  | direct (d : ChunkDraw)
  | segment (d : SegDraw)
  deriving DecidableEq, Repr

/-- What a chunk of a full read gives. -/
def PieceDraw.result (d : PieceDraw) : Chunk :=
  match d with
  | .direct d => d.chunk
  | .segment d => d.result

/-- Chunk `k = 8·g + j` is read directly for g ≤ 1, by segment above (43_edid.md R166, R170). -/
def PieceDraw.legal (p : Params) (k : Nat) (d : PieceDraw) : Bool :=
  match d with
  | .direct d => decide (k / 8 ≤ 1) && d.legal p
  | .segment d => decide (1 < k / 8) && d.legal p

/-- The events of chunk `k = 8·g + j`: the linear offset `(8·g + j)·16` for g ≤ 1; segment `g div 2` at
`(g = 2 ? 0x00 : 0x80) + 16·j` above (43_edid.md R166, R170). -/
def pieceEff (p : Params) (k : Nat) (d : PieceDraw) : Effect :=
  match d with
  | .direct d => chunkEff p (BitVec.ofNat 8 (k * 16)) d
  | .segment d => segEff p (BitVec.ofNat 8 (k / 8 / 2)) (BitVec.ofNat 8 ((if k / 8 = 2 then 0x00 else 0x80) + 16 * (k % 8))) d

/-- The chunks from `k` on. -/
def piecesEff (p : Params) (k : Nat) (ds : List PieceDraw) : Effect :=
  match ds with
  | [] => {}
  | d :: ds => (pieceEff p k d).seq (piecesEff p (k + 1) ds)

/-- Every chunk from `k` on is legal, and only the last one may have failed (43_edid.md R170). -/
def piecesLegal (p : Params) (k : Nat) (ds : List PieceDraw) : Bool :=
  match ds with
  | [] => true
  | d :: ds => d.legal p k && (decide (d.result.res = .ok) || ds.isEmpty) && piecesLegal p (k + 1) ds

/-- EDID_BUF after the chunks from `k` on: each successful chunk that fits `size` whole (43_edid.md R168, R169). -/
def piecesBuf (size k : Nat) (m : Memory) (ds : List PieceDraw) : Memory :=
  match ds with
  | [] => m
  | d :: ds =>
    piecesBuf size (k + 1)
      (if d.result.res = .ok ∧ chunkDest k + 16 ≤ size then Memory.write m (chunkDest k) d.result.data else m) ds

/-- Successful chunks. -/
def okPieces (ds : List PieceDraw) : Nat := (ds.filter fun d => decide (d.result.res = .ok)).length

/-- The chunks among the first `n` that fit `size` whole (43_edid.md R169, R174). -/
def fitting (size n : Nat) : Nat := ((List.range n).filter fun k => decide (chunkDest k + 16 ≤ size)).length

/-- The code of the chunk that failed, if one did. -/
def failCode (ds : List PieceDraw) : Option Code := (ds.find? fun d => decide (d.result.res ≠ .ok)).map fun d => d.result.res

/-- EdidInit's accesses (43_edid.md R167). -/
structure InitDraw where
  dev : WrDraw
  mid : WrDraw
  hi : RmwDraw
  deriving DecidableEq, Repr

/-- All three steps succeeded (43_edid.md R167). -/
def InitDraw.good (d : InitDraw) : Bool := d.dev.ok && d.mid.ok && d.hi.good

/-- EdidInit (43_edid.md R167). -/
def initEff (p : Params) (d : InitDraw) : Effect :=
  (writeEff p.CHIP_MAP.L_AUX_ADDR_7_0 Config.EDID_DDC_ADDR d.dev).seq
    ((writeEff p.CHIP_MAP.L_AUX_ADDR_15_8 0x00 d.mid).seq
      (clrEff p.CHIP_MAP.L_AUX_ADDR_19_16 p.CHIP_MAP.M_AUX_ADDR_HI_CLR d.hi))

/-- A full read whose init succeeded (43_edid.md R170). -/
structure FullDraw where
  init : InitDraw
  count : CountDraw
  pieces : List PieceDraw
  reset : PulseDraw
  deriving DecidableEq, Repr

/-- The clamped block count (43_edid.md R161). -/
def FullDraw.blocks (d : FullDraw) : Byte := edidClamp d.count.raw

/-- Chunks 0, 1, … up to 8·(c + 1) of them, or up to the first that failed (43_edid.md R170). -/
def FullDraw.legal (p : Params) (d : FullDraw) : Bool :=
  d.init.good && d.count.legal p && piecesLegal p 0 d.pieces && decide (d.pieces.length ≤ 8 * (d.blocks.toNat + 1)) &&
  (decide (d.pieces.length = 8 * (d.blocks.toNat + 1)) || (failCode d.pieces).isSome)

/-- EDID_READ_FULL after a successful init (43_edid.md R170). -/
def fullEff (p : Params) (d : FullDraw) : Effect :=
  (initEff p d.init).seq ((countEff p d.count).seq ((piecesEff p 0 d.pieces).seq (auxResetEff p d.reset)))

/-! ## Video (45_video_config.md) -/

/-- The accesses of VIDEO_CONFIG after a successful solve (45_video_config.md R220-R229). -/
structure VideoDraw where
  pixclk : List WrDraw
  laneClr : RmwDraw
  laneSet : RmwDraw
  laneSwap : RmwDraw
  timing : List WrDraw
  postdiv : WrDraw
  pllClr : RmwDraw
  pllSet : RmwDraw
  low : RmwDraw
  high : RmwDraw
  deriving DecidableEq, Repr

/-- The strobe (45_video_config.md R229). -/
def strobeEff (p : Params) (low high : RmwDraw) : Effect :=
  (clrEff p.CHIP_MAP.L_MN_READY (p.CHIP_MAP.M_M_READY ||| p.CHIP_MAP.M_N_READY) low).seq
    ((delayEff 1).seq (setEff p.CHIP_MAP.L_MN_READY (p.CHIP_MAP.M_M_READY ||| p.CHIP_MAP.M_N_READY) high))

/-- The pixel clock pair, in MHz (45_video_config.md R222). -/
def pixclkWrites (p : Params) (x : Inputs) : List (Loc × Byte) :=
  [(p.CHIP_MAP.L_PIXCLK_L, lo (x.tPixclkKhz.toNat / 1000)), (p.CHIP_MAP.L_PIXCLK_H, hi (x.tPixclkKhz.toNat / 1000))]

/-- The 22 writes between the lanes and the post-divider: horizontal, vertical, M and N, digital adjustment
(45_video_config.md R224-R227). -/
def timingWrites (p : Params) (x : Inputs) (m n : Nat) : List (Loc × Byte) :=
  [(p.CHIP_MAP.L_HTOTAL_L, lo x.htotal.toNat), (p.CHIP_MAP.L_HTOTAL_H, hi x.htotal.toNat),
   (p.CHIP_MAP.L_HACTIVE_L, lo x.tHactive.toNat), (p.CHIP_MAP.L_HACTIVE_H, hi x.tHactive.toNat),
   (p.CHIP_MAP.L_HFP_L, lo x.tHfp.toNat), (p.CHIP_MAP.L_HFP_H, hi x.tHfp.toNat),
   (p.CHIP_MAP.L_HSYNC_L, lo x.tHsync.toNat), (p.CHIP_MAP.L_HSYNC_H, hi x.tHsync.toNat),
   (p.CHIP_MAP.L_HBP_L, lo x.tHbp.toNat), (p.CHIP_MAP.L_HBP_H, hi x.tHbp.toNat),
   (p.CHIP_MAP.L_VACTIVE_L, lo x.tVactive.toNat), (p.CHIP_MAP.L_VACTIVE_H, hi x.tVactive.toNat),
   (p.CHIP_MAP.L_VFP, lo x.tVfp.toNat), (p.CHIP_MAP.L_VSYNC, lo x.tVsync.toNat), (p.CHIP_MAP.L_VBP, lo x.tVbp.toNat),
   (p.CHIP_MAP.L_M_23_16, top m), (p.CHIP_MAP.L_M_15_8, hi m), (p.CHIP_MAP.L_M_7_0, lo m),
   (p.CHIP_MAP.L_N_23_16, top n), (p.CHIP_MAP.L_N_15_8, hi n), (p.CHIP_MAP.L_N_7_0, lo n),
   (p.CHIP_MAP.L_DIG_ADJ, p.CHIP_MAP.K_DIG_ADJ)]

/-- One answer for each of the 24 writes of the two lists. -/
def VideoDraw.legal (d : VideoDraw) : Bool := decide (d.pixclk.length = 2) && decide (d.timing.length = 22)

/-- VIDEO_CONFIG's events after a successful solve (45_video_config.md R220). -/
def videoEff (p : Params) (x : Inputs) (c : PllCoeffs) (d : VideoDraw) : Effect :=
  (writesEff (pixclkWrites p x) d.pixclk).seq
    ((clrEff p.CHIP_MAP.L_LANE_CTRL p.CHIP_MAP.M_LANE_COUNT d.laneClr).seq
    ((setEff p.CHIP_MAP.L_LANE_CTRL p.CHIP_MAP.K_LANE_1 d.laneSet).seq
    ((setEff p.CHIP_MAP.L_LANE_SWAP p.CHIP_MAP.M_LANE3_SWAP d.laneSwap).seq
    ((writesEff (timingWrites p x c.m c.n) d.timing).seq
    ((writeEff p.CHIP_MAP.L_POSTDIV (p.CHIP_MAP.M_REFCLK_SEL ||| BitVec.ofNat 8 (c.pd - 1)) d.postdiv).seq
    ((clrEff p.CHIP_MAP.L_PLL_RST p.CHIP_MAP.M_PLL_RST_EN d.pllClr).seq
    ((setEff p.CHIP_MAP.L_PLL_RST p.CHIP_MAP.M_PLL_RST_EN d.pllSet).seq
    (strobeEff p d.low d.high))))))))

/-- The PLL result registers after a successful solve (44_pll.md R190). -/
def Results.withPll (r : Results) (c : PllCoeffs) : Results :=
  { r with
    pllM := BitVec.ofNat 24 c.m
    pllN := BitVec.ofNat 24 c.n
    pllPd := BitVec.ofNat 5 c.pd
    pllActualHz := BitVec.ofNat 32 (min c.act 0xFFFFFFFF) }

/-! ## Power and link (46_power_link.md) -/

/-- One firmware poll: the version and revision reads are made only when the loaded bit was read set
(46_power_link.md R241). -/
structure FwDraw where
  load : RdDraw
  ver : RdDraw
  rev : RdDraw
  deriving DecidableEq, Repr

/-- The loaded bit was read set. -/
def FwDraw.loaded (p : Params) (d : FwDraw) : Bool :=
  match d.load.v with
  | none => false
  | some v => decide (v &&& p.CHIP_MAP.M_FW_LOADED = p.CHIP_MAP.M_FW_LOADED)

/-- The firmware information of a ready poll: loaded, both bytes read, and not both 0 (46_power_link.md R241). -/
def FwDraw.info (p : Params) (d : FwDraw) : Option (Byte × Byte) :=
  match d.loaded p, d.ver.v, d.rev.v with
  | true, some ver, some rev => if ver = 0 ∧ rev = 0 then none else some (ver, rev)
  | _, _, _ => none

/-- FwReady's reads (46_power_link.md R241, R242). -/
def fwEff (p : Params) (d : FwDraw) : Effect :=
  (pollEff p.CHIP_MAP.L_FW_LOAD d.load).seq
    (if d.loaded p then (pollEff p.CHIP_MAP.L_FW_VER d.ver).seq (pollEff p.CHIP_MAP.L_FW_REV d.rev) else {})

/-- The polls of an attempt that were not ready, each followed by 1 ms (46_power_link.md R242). -/
def fwPollsEff (p : Params) (ds : List FwDraw) : Effect :=
  match ds with
  | [] => {}
  | d :: ds => (fwEff p d).seq ((delayEff Config.FW_POLL_MS).seq (fwPollsEff p ds))

/-- The start of an attempt (46_power_link.md R240). -/
def powerOnEff (p : Params) : Effect :=
  (pinEff .PWR_EN true).seq ((delayEff p.T_PWR_MS).seq ((pinEff .RST_REL true).seq (delayEff p.T_RST_MS)))

/-- PowerDown (46_power_link.md R243). -/
def powerDownEff (p : Params) : Effect :=
  (pinEff .RST_REL false).seq ((pinEff .PWR_EN false).seq (delayEff p.T_OFF_MS))

/-- The attempts that failed: their polls, none ready (46_power_link.md R243). -/
def failedEff (p : Params) (as : List (List FwDraw)) : Effect :=
  match as with
  | [] => {}
  | a :: as => (powerOnEff p).seq ((fwPollsEff p a).seq ((powerDownEff p).seq (failedEff p as)))

/-- No poll of an attempt was ready, and the whole budget was used (46_power_link.md R242, R243). -/
def failedLegal (p : Params) (a : List FwDraw) : Bool :=
  a.all (fun d => (d.info p).isNone) && decide (a.length = p.FW_POLL_MAX)

/-- An attempt that succeeds: the polls before, none ready, and the ready one (46_power_link.md R240). -/
structure ReadyDraw where
  before : List FwDraw
  ready : FwDraw
  deriving DecidableEq, Repr

/-- The ready poll lies within the budget, and its information is `vr` (46_power_link.md R240). -/
def ReadyDraw.legal (p : Params) (d : ReadyDraw) (vr : Byte × Byte) : Bool :=
  d.before.all (fun d => (d.info p).isNone) && decide (d.before.length < p.FW_POLL_MAX) &&
  decide (d.ready.info p = some vr)

/-- The attempt that succeeds: no delay and no power-down after the ready poll (46_power_link.md R240, R253). -/
def readyEff (p : Params) (d : ReadyDraw) : Effect :=
  (powerOnEff p).seq ((fwPollsEff p d.before).seq (fwEff p d.ready))

/-- A HPD poll that does not see the bit: it failed, or the bit is clear (46_power_link.md R245, R246). -/
def noHpd (p : Params) (d : RdDraw) : Bool :=
  match d.v with
  | none => true
  | some s => decide (s &&& p.CHIP_MAP.M_HPD = 0)

/-- One HPD poll: 10 ms, then the read (46_power_link.md R246). -/
def hpdPollEff (p : Params) (d : RdDraw) : Effect :=
  (delayEff Config.HPD_POLL_MS).seq (pollEff p.CHIP_MAP.L_SYS_STATUS d)

/-- The HPD polls. -/
def hpdPollsEff (p : Params) (ds : List RdDraw) : Effect :=
  match ds with
  | [] => {}
  | d :: ds => (hpdPollEff p d).seq (hpdPollsEff p ds)

/-- A wait that sees HPD: the polls before, the poll that sees it, and the start sequence's accesses
(46_power_link.md R245, R247). -/
structure HpdDraw where
  before : List RdDraw
  seen : RdDraw
  hdcp : RmwDraw
  auth : RmwDraw
  drm : RmwDraw
  deriving DecidableEq, Repr

/-- HPD is first seen within 10,000 polls (46_power_link.md R245). -/
def HpdDraw.legal (p : Params) (d : HpdDraw) : Bool :=
  d.before.all (noHpd p) && decide (d.before.length < Config.HPD_POLL_MAX) && !noHpd p d.seen

/-- The start sequence (46_power_link.md R247). -/
def startEff (p : Params) (d : HpdDraw) : Effect :=
  (clrEff p.CHIP_MAP.L_HDCP_CAP p.CHIP_MAP.M_HDCP_CAP d.hdcp).seq
    ((setEff p.CHIP_MAP.L_AUTH p.CHIP_MAP.M_AUTH d.auth).seq (setEff p.CHIP_MAP.L_DRM_INT p.CHIP_MAP.M_DRM_INT d.drm))

/-- WAIT_HPD that sees HPD (46_power_link.md R245). -/
def hpdEff (p : Params) (d : HpdDraw) : Effect :=
  (hpdPollsEff p d.before).seq ((hpdPollEff p d.seen).seq (startEff p d))

/-! ## Terms of single statements -/

/-- The bits of a word that its command uses (30_encoding.md R101, R102): OP, and the operand fields that are not
marked ignored. -/
def Instr.usedMask (i : Instr) : Word :=
  match i with
  | .nop | .auxReset | .edidBlockCount | .edidReadFull | .pllSolve | .videoConfig | .mnStrobe | .powerUp | .waitHpd
  | .powerRole | .powerOff => 0x000000FF
  | .regRead _ _ => 0x00FFFFFF
  | .regWrite _ _ _ | .regReadBlock _ _ _ | .regSet _ _ _ | .regClr _ _ _ => 0xFFFFFFFF
  | .auxWrite _ => 0x00FF00FF
  | .auxRead _ => 0xFF0000FF
  | .edidReadChunk _ => 0x00FF00FF
  | .edidReadSegment _ _ => 0x00FFFFFF

/-- The registers a command's results are committed to, and the ones that only the host or the acceptance writes: what
they read does not change while a command runs (10_state.md R33). -/
def heldWhileRunning (r : HostReg) : Bool :=
  match r with
  | .status | .errAcc | .gpioOut => false
  | _ => true

/-- The code with which an AUX op ends a command (42_aux.md R150): the op's own, or, when it is A_OK, BUS_ERR if a
transaction of the command failed. -/
def AuxRes.endCode (r : AuxRes) (e : Effect) : Code :=
  match r with
  | .tmo => .auxTimeout
  | .bus => .busErr
  | .echo => .auxErrEcho
  | .ok => e.acc.endCode

/-- How a chunk is reported (43_edid.md R172): DBUF and the accumulated code when it is OK, its own code and an unchanged
DBUF when it is not; RDATA is the attempts used. -/
def Results.withChunk (r : Results) (c : Chunk) : Results :=
  if c.res = .ok then
    { r with rdata := BitVec.ofNat 32 c.attempts, dbuf := Vector.ofFn fun k => c.data.getD k.val 0 }
  else { r with rdata := BitVec.ofNat 32 c.attempts }

/-- The code of a chunk command (43_edid.md R172, R173). -/
def Chunk.endCode (c : Chunk) (e : Effect) : Code := if c.res = .ok then e.acc.endCode else c.res

/-- The bytes a full read may store: `min(EDID_SIZE, 512)` (43_edid.md R169). -/
def State.fitSize (s : State) : Nat := min s.inputs.edidSize.toNat 512

/-- A read that failed. -/
def Act.failedRead (a : Act) : Bool :=
  match a.ev with
  | .wr _ _ _ ok _ => !ok
  | _ => false

/-- The next state of a refusal (60_exceptions.md R263): RDATA 0, the ILL flag, the code, and nothing else. -/
def Refuses (o : Outcome) (s : State) (c : Code) : Prop :=
  ∃ x, Side.takenFrom x s ∧ o = .next (s.completed x { acc := { ill := true } } { s.results with rdata := 0 } s.pstate c)

/-- The most milliseconds of delay a command may take (60_exceptions.md R276; for the commands R276 does not list, what
their rules say). -/
def delayCeiling (p : Params) (i : Instr) : Nat :=
  match i with
  | .nop | .regRead _ _ | .regWrite _ _ _ | .regReadBlock _ _ _ | .regSet _ _ _ | .regClr _ _ _ | .auxReset
  | .pllSolve | .powerRole => 0
  | .auxWrite _ | .auxRead _ => 300
  | .edidBlockCount => 600
  | .edidReadChunk _ => 1800
  | .edidReadSegment _ _ => 600 + 1800
  | .edidReadFull => 600 + 16 * 1800 + 16 * (600 + 1800)
  | .videoConfig | .mnStrobe => 1
  | .powerUp => 3 * (p.T_PWR_MS + p.T_RST_MS + p.FW_POLL_MAX + p.T_OFF_MS)
  | .waitHpd => 100000
  | .powerOff => p.T_OFF_MS

/-- The answers of a list of events are the ready ones, in order: each bus transaction takes the next, and a read the
first n bytes of it. -/
def Answered (chip : List BusAnswer) (evs : List Event) : Prop :=
  match evs, chip with
  | [], _ => True
  | .w _ _ ok :: evs, a :: chip => ok = a.ok ∧ Answered chip evs
  | .wr _ _ n ok bytes :: evs, a :: chip =>
    ok = a.ok ∧ bytes = (if a.ok then a.data.toList.take n else []) ∧ Answered chip evs
  | .w _ _ _ :: _, [] => True
  | .wr _ _ _ _ _ :: _, [] => True
  | .d _ :: evs, chip => Answered chip evs
  | .g _ _ :: evs, chip => Answered chip evs

end Sys2Proof.Machine
end

