-- ==== Sys2Proof/Certificates/Slice0/Obligations.lean ====
section
/-! DEFINITION. The statements. A completion statement says that a command answers a next state and which: the state
`s.completed x e r st c` of Machine/Effects.lean, where `e` is the effect of the command's rule for some answers of the
chip (recorded in the trace), `r` its result registers, `st` PSTATE, `c` its code, and `x` what the host did meanwhile;
every field that `State.completed` does not name is as it was. `s.noReset` says that no engine reset is among the
host's pending inputs: what a reset does to a command is stated on its own. Parts of the model's own in these statements
(notes/assumptions): the chip's ready answers and free draws (3), the host's pending inputs and the points where they
land (4, 5), that only delays move the timebase, which does not wrap (9, 26), the loop counters (10), the shadow and the flags between
commands (11), one step for one host input (16), and the trace, the host's reads and the reset count as fields of the
state (17). A statement that fixes one of these says so. -/

open Sys2Proof Sys2Proof.Machine

/-! ## Reset and parameters -/

/-- Reset (70_reset_and_hazards.md R291, R293): every host register but EDID_BUF reads 0, EDID_SIZE 0x200, and no byte of
EDID_BUF has a value; the pins are low, the last-address memory is invalid, the timebase is 0, no command runs and its
flags are gone, the parameters are kept and no event is issued. The same values stand in the reset state. The model's
choices: that the discarded flags read clear (log entry 11; R291 says only 'discarded'), and that the parameters and the
trace are fields which a reset keeps and State.reset's trace is empty (log entries 1, 17). -/
def Obligations.ResetLeavesTheListedValues : Prop :=
  (∀ (s : State) (a : WordIndex), (∀ k, hostRegAt a ≠ .edidBuf k) →
    readReg (hostRegAt a) s.engineReset = (if hostRegAt a = .edidSize then 0x200 else 0) ∧
    readReg (hostRegAt a) State.reset = (if hostRegAt a = .edidSize then 0x200 else 0)) ∧
  (∀ s : State, s.engineReset.busy = false ∧ s.engineReset.pstate = .off ∧ s.engineReset.la = ⟨false, 0x00⟩ ∧
    s.engineReset.videoEn = false ∧ s.engineReset.videoRstRel = false ∧ s.engineReset.pnegEnPin = false ∧
    s.engineReset.timebase = 0 ∧ s.engineReset.acc = {} ∧ (∀ a, Memory.readByte s.engineReset.results.edidBuf a = none) ∧
    s.engineReset.params = s.params ∧ s.engineReset.trace = s.trace) ∧
  (State.reset.busy = false ∧ State.reset.pstate = .off ∧ State.reset.la = ⟨false, 0x00⟩ ∧
    State.reset.videoEn = false ∧ State.reset.videoRstRel = false ∧ State.reset.pnegEnPin = false ∧
    State.reset.timebase = 0 ∧ State.reset.acc = {} ∧ (∀ a, Memory.readByte State.reset.results.edidBuf a = none) ∧
    State.reset.trace = [])

/-- The reset state meets the invariants that every step keeps (`StepKeepsTheInvariant`, `StepKeepsTheLastAddress`). -/
def Obligations.ResetMeetsTheInvariants : Prop := State.reset.Inv ∧ State.reset.laTracks

/-- A parameter set is accepted exactly when it meets the constraints of 00_scope.md R9 and R8 (at most five workaround
entries), 20_memory.md R86 and 45_video_config.md R223. That a set which breaks one of the last three is refused too is the
model's reading (log entry 2): R9 asks it for its own list only. -/
def Obligations.ParameterSetsAreChecked : Prop :=
  ∀ p : Params, (ParamSet.ofParams p).isSome = true ↔
    (1 ≤ p.PLL_OUT_FREQ_ABS_MIN ∧ p.PLL_OUT_FREQ_ABS_MIN ≤ p.PLL_OUT_FREQ_MIN ∧
      p.PLL_OUT_FREQ_MIN ≤ p.PLL_OUT_FREQ_ABS_MAX) ∧
    1 ≤ p.PLL_OUT_FREQ_ABS_MIN / 16 ∧ 1 ≤ p.FW_POLL_MAX ∧ 1 ≤ p.CLK_PER_MS ∧
    p.CHIP_MAP.M_AUX_OP_EN ≠ 0 ∧ p.CHIP_MAP.M_AUX_OP_EN &&& 0x0F = 0 ∧
    (p.WA_TABLE.map Prod.fst).Nodup ∧ p.WA_TABLE.length ≤ 5 ∧
    p.CHIP_MAP.M_REFCLK_SEL &&& 0x0F = 0 ∧ p.CHIP_MAP.K_LANE_1 &&& ~~~p.CHIP_MAP.M_LANE_COUNT = 0

/-! ## Encoding -/

/-- The three example words of 30_encoding.md R103, and its formula. -/
def Obligations.ExampleWordsAreTheSpecs : Prop :=
  (∀ op a b c : Byte,
    (commandWord op a b c).toNat = op.toNat + a.toNat * 2 ^ 8 + b.toNat * 2 ^ 16 + c.toNat * 2 ^ 24) ∧
  encode (.regWrite 0x38 0x10 0xAB) = 0xAB103802 ∧ encode (.edidReadSegment 1 0x80) = 0x00800122 ∧
  encode (.auxWrite 0x7E) = 0x007E0010 ∧
  decodeWord 0xAB103802 = .ok (.regWrite 0x38 0x10 0xAB) ∧ decodeWord 0x00800122 = .ok (.edidReadSegment 1 0x80) ∧
  decodeWord 0x007E0010 = .ok (.auxWrite 0x7E)

/-- Every command's word decodes to it, with every operand at every value: no field of an encoding is dropped. -/
def Obligations.DecodeOfEncode : Prop := ∀ i : Instr, decodeWord (encode i) = .ok i

/-- A word is a command exactly when its OP byte is listed in 30_encoding.md R102, and OP alone selects the command;
any other word is an illegal opcode, named by its OP byte (R105, R108). -/
def Obligations.OpByteAloneSelects : Prop :=
  ∀ w : Word,
    ((∃ i, decodeWord w = .ok i) ↔
      opField w ∈ ([0x00, 0x01, 0x02, 0x03, 0x04, 0x05, 0x10, 0x11, 0x12, 0x20, 0x21, 0x22, 0x23, 0x30, 0x40, 0x41,
        0x50, 0x51, 0x52, 0x53] : List Byte)) ∧
    (∀ i, decodeWord w = .ok i → i.opcode = opField w) ∧
    ((¬ ∃ i, decodeWord w = .ok i) → decodeWord w = .error (.illegalOpcode (opField w)))

/-- Ignored fields (30_encoding.md R104): a word that decodes to `i` holds `i`'s encoding in the bits `i` uses, and every
word with those bits decodes to `i`, whatever its other bits are. -/
def Obligations.IgnoredFieldsAreIgnored : Prop :=
  ∀ (w : Word) (i : Instr), decodeWord w = .ok i ↔ w &&& Instr.usedMask i = encode i

/-! ## The host port -/

/-- A step with a command word at the front of the host's inputs (10_state.md R34): with BUSY = 0 the word is latched,
LAST_OP is its OP byte, BUSY is 1, DONE 0 and the flags clear, RESULT and FAIL stay, the shadow starts as the committed
results (R33), and the command it selects runs (an illegal opcode is refused); with BUSY = 1 the write is dropped and sets
OVR (R61). The model's choices: one step is the whole command (log entry 16), the loop counters start at 0 (log entry 10). -/
def Obligations.StepRunsTheDecodedCommand : Prop :=
  ∀ (s : State) (w : Word) (rest : List HostInput), s.host = .write cmdIndex w :: rest →
    (s.busy = false →
      (∀ i, decodeWord w = .ok i → step s = exec i ((s.setHost rest).accept w)) ∧
      (∀ e, decodeWord w = .error e → step s = execIllegal ((s.setHost rest).accept w)) ∧
      (s.setHost rest).accept w =
        { s with host := rest, cmd := w, lastOp := opField w, busy := true, done := false, acc := {}, loop := {},
                 shadow := s.results } ∧
      readReg .cmd ((s.setHost rest).accept w) = w) ∧
    (s.busy = true → step s = .next (s.setHost rest).overrun)

/-- The rest of the host port between commands (20_memory.md R80, 10_state.md R60, R61): a read returns the register's
value and changes nothing; a write at any index but CMD's takes the register's own rule, or is dropped with OVR while
BUSY = 1; a reset resets the engine; with nothing to do the engine stays as it is (the model's choice, log entry 16). -/
def Obligations.HostAccessesBetweenCommands : Prop :=
  ∀ (s : State) (rest : List HostInput),
    (∀ a, s.host = .read a :: rest →
      step s = .next { s with host := rest, hostLog := s.hostLog ++ [⟨a, readReg (hostRegAt a) s⟩] }) ∧
    (∀ a v, s.host = .write a v :: rest → a ≠ 0 →
      step s = .next (if s.busy then { s with host := rest, errAcc := { s.errAcc with ovr := true } }
        else writeReg (hostRegAt a) v { s with host := rest })) ∧
    (s.host = .reset :: rest → step s = .next (s.setHost rest).engineReset) ∧
    (s.host = [] → step s = .next s)

/-- A host write at an index other than CMD's, while no command runs (10_state.md R32, R40, R43): read back, an R/W field
holds the written bits and every other bit is 0; ERR_ACC clears the bits written as 1; of GPIO_OUT only PNEG_EN is
written; a read-only register and an unmapped offset ignore the write; and no other register changes. -/
def Obligations.HostWriteChangesOnlyItsFields : Prop :=
  ∀ (s : State) (a : WordIndex) (v : Word) (rest : List HostInput), s.busy = false → s.host = .write a v :: rest → a ≠ 0 →
    ∃ t, step s = .next t ∧
      readReg (hostRegAt a) t =
        (match hostRegAt a with
        | .pllClkHz | .tPixclkKhz => v
        | .tHactive | .tHfp | .tHsync | .tHbp | .tVactive | .tVfp | .tVsync | .tVbp => v &&& 0xFFFF
        | .tFlags => v &&& 0x3
        | .edidSize => v &&& 0x3FF
        | .errAcc => readReg .errAcc s &&& ~~~v
        | .gpioOut => (readReg .gpioOut s &&& 0x3) ||| (v &&& 0x4)
        | r => readReg r s) ∧
      ∀ r, r ≠ hostRegAt a → readReg r t = readReg r s

/-- STATUS (10_state.md R35), at 0x004: BUSY, DONE and FAIL are bits 0, 1 and 2, RESULT bits 15..8, LAST_OP bits 23..16,
PSTATE bits 25..24, and the rest reads 0; the result codes have the numbers of 60_exceptions.md R260, all but OK's being
failures, and PSTATE's four states those of R59. -/
def Obligations.StatusReadsAsItsFields : Prop :=
  (∀ s : State,
    (s.readAt 0x004).getLsbD 0 = s.busy ∧ (s.readAt 0x004).getLsbD 1 = s.done ∧ (s.readAt 0x004).getLsbD 2 = s.fail ∧
    (s.readAt 0x004).extractLsb' 3 5 = 0 ∧ (s.readAt 0x004).extractLsb' 8 8 = s.result.toByte ∧
    (s.readAt 0x004).extractLsb' 16 8 = s.lastOp ∧ (s.readAt 0x004).extractLsb' 24 2 = s.pstate.toBits ∧
    (s.readAt 0x004).extractLsb' 26 6 = 0) ∧
  (Code.ok.toByte = 0x00 ∧ Code.auxErrEcho.toByte = 0x01 ∧ Code.auxTimeout.toByte = 0x02 ∧ Code.busErr.toByte = 0x03 ∧
    Code.edidRetryExhausted.toByte = 0x04 ∧ Code.edidInitFail.toByte = 0x05 ∧ Code.pllRange.toByte = 0x06 ∧
    Code.fwTimeout.toByte = 0x07 ∧ Code.hpdTimeout.toByte = 0x08 ∧ Code.illegalCmd.toByte = 0x09 ∧
    Code.stateErr.toByte = 0x0A ∧ ∀ c : Code, c.fails = true ↔ c ≠ .ok) ∧
  PState.off.toBits = 0 ∧ PState.poweringUp.toBits = 1 ∧ PState.firmwareLoaded.toBits = 2 ∧ PState.linkReady.toBits = 3

/-- The host register map (10_state.md R32): which register stands at each offset, and what a read of it shows: the
committed fields, each in its bits (R34, R39-R56), and 0 elsewhere. STATUS, the two buffers and the unmapped offsets have
statements of their own. -/
def Obligations.HostRegisterMap : Prop :=
  (∀ a : WordIndex, hostRegAt a = hostRegAtOffset (4 * a.toNat)) ∧
  (∀ e ∈ ([(0x000, .cmd), (0x004, .status), (0x008, .rdata), (0x00C, .auxLastStatus), (0x010, .errAcc),
      (0x014, .lastAddr), (0x018, .gpioOut), (0x01C, .fwInfo), (0x020, .dbuf 0), (0x024, .dbuf 1), (0x028, .dbuf 2),
      (0x02C, .dbuf 3), (0x030, .pllClkHz), (0x034, .pllM), (0x038, .pllN), (0x03C, .pllPd), (0x040, .pllActualHz),
      (0x044, .tPixclkKhz), (0x048, .tHactive), (0x04C, .tHfp), (0x050, .tHsync), (0x054, .tHbp), (0x058, .tVactive),
      (0x05C, .tVfp), (0x060, .tVsync), (0x064, .tVbp), (0x068, .tFlags), (0x06C, .edidSize), (0x070, .edidBlocks),
      (0x074, .edidValidLen)] : List (Nat × HostReg)), hostRegAtOffset e.1 = e.2) ∧
  (∀ k : Fin 128, hostRegAtOffset (0x100 + 4 * k.val) = .edidBuf k.val) ∧
  ∀ s : State,
    (s.readAt 0x000 = s.cmd ∧ s.readAt 0x008 = s.results.rdata ∧
      (s.readAt 0x00C).toNat = s.results.auxLastStatus.toNat) ∧
    ((s.readAt 0x010).getLsbD 0 = s.errAcc.bus ∧ (s.readAt 0x010).getLsbD 1 = s.errAcc.wa ∧
      (s.readAt 0x010).getLsbD 2 = s.errAcc.tmo ∧ (s.readAt 0x010).getLsbD 3 = s.errAcc.echo ∧
      (s.readAt 0x010).getLsbD 4 = s.errAcc.ovr ∧ (s.readAt 0x010).getLsbD 5 = s.errAcc.ill ∧
      (s.readAt 0x010).getLsbD 6 = s.errAcc.pbus ∧ (s.readAt 0x010).extractLsb' 7 25 = 0) ∧
    ((s.readAt 0x014).extractLsb' 0 8 = s.lastAddr.sa ∧ (s.readAt 0x014).getLsbD 8 = s.lastAddr.valid ∧
      (s.readAt 0x014).extractLsb' 9 23 = 0) ∧
    ((s.readAt 0x018).getLsbD 0 = s.videoEn ∧ (s.readAt 0x018).getLsbD 1 = s.videoRstRel ∧
      (s.readAt 0x018).getLsbD 2 = s.pnegEnPin ∧ (s.readAt 0x018).extractLsb' 3 29 = 0) ∧
    ((s.readAt 0x01C).extractLsb' 0 8 = s.results.fwVersion ∧ (s.readAt 0x01C).extractLsb' 8 8 = s.results.fwRevision ∧
      (s.readAt 0x01C).extractLsb' 16 16 = 0) ∧
    (s.readAt 0x030 = s.inputs.pllClkHz ∧ (s.readAt 0x034).toNat = s.results.pllM.toNat ∧
      (s.readAt 0x038).toNat = s.results.pllN.toNat ∧ (s.readAt 0x03C).toNat = s.results.pllPd.toNat ∧
      s.readAt 0x040 = s.results.pllActualHz) ∧
    (s.readAt 0x044 = s.inputs.tPixclkKhz ∧ (s.readAt 0x048).toNat = s.inputs.tHactive.toNat ∧
      (s.readAt 0x04C).toNat = s.inputs.tHfp.toNat ∧ (s.readAt 0x050).toNat = s.inputs.tHsync.toNat ∧
      (s.readAt 0x054).toNat = s.inputs.tHbp.toNat ∧ (s.readAt 0x058).toNat = s.inputs.tVactive.toNat ∧
      (s.readAt 0x05C).toNat = s.inputs.tVfp.toNat ∧ (s.readAt 0x060).toNat = s.inputs.tVsync.toNat ∧
      (s.readAt 0x064).toNat = s.inputs.tVbp.toNat) ∧
    ((s.readAt 0x068).getLsbD 0 = s.inputs.hsyncPol ∧ (s.readAt 0x068).getLsbD 1 = s.inputs.vsyncPol ∧
      (s.readAt 0x068).extractLsb' 2 30 = 0 ∧ (s.readAt 0x06C).toNat = s.inputs.edidSize.toNat) ∧
    ((s.readAt 0x070).extractLsb' 0 8 = s.results.edidCount ∧ (s.readAt 0x070).extractLsb' 8 8 = s.results.edidRaw ∧
      (s.readAt 0x070).extractLsb' 16 16 = 0 ∧ (s.readAt 0x074).toNat = s.results.edidValidLen.toNat)

/-- The unmapped offsets of the host space (10_state.md R32, R60): 0x078-0x0FC and 0x300-0x3FC. A read of one returns 0,
and a write to one changes nothing, or sets OVR under R61. -/
def Obligations.UnmappedOffsetsReadZero : Prop :=
  ∀ a : WordIndex,
    (hostRegAt a = .unmapped ↔ (0x078 ≤ 4 * a.toNat ∧ 4 * a.toNat ≤ 0x0FC) ∨ 0x300 ≤ 4 * a.toNat) ∧
    (hostRegAt a = .unmapped → ∀ (s : State) (v : Word) (rest : List HostInput),
      readReg (hostRegAt a) s = 0x00000000 ∧
      (s.host = .write a v :: rest →
        step s = .next (if s.busy then { s with host := rest, errAcc := { s.errAcc with ovr := true } }
          else { s with host := rest })))

/-- Buffer packing (20_memory.md R81): byte k of a buffer is byte lane k mod 4 of the word at base + 4·(k div 4), the
base being 0x020 for DBUF and 0x100 for EDID_BUF. -/
def Obligations.BuffersArePackedLittleEndian : Prop :=
  (∀ (s : State) (k : Fin 16),
    (readReg (hostRegAtOffset (0x020 + 4 * (k.val / 4))) s).extractLsb' (8 * (k.val % 4)) 8 = s.results.dbuf[k]) ∧
  (∀ (s : State) (k : Nat), k < 512 →
    (readReg (hostRegAtOffset (0x100 + 4 * (k / 4))) s).extractLsb' (8 * (k % 4)) 8 = s.edidByte k)

/-- Writes while a command runs (10_state.md R61): a write is dropped where it lands and sets OVR, and changes nothing else;
so no command's inputs, nor PNEG_EN, change while it runs. The points where it lands (`hostWindow`) are the model's choice
(log entry 4). -/
def Obligations.WritesWhileBusyOnlySetOverrun : Prop :=
  (∀ (s : State) (a : WordIndex) (v : Word) (rest : List HostInput), s.host = .write a v :: rest →
    hostWindow s = hostWindow { s with host := rest, errAcc := { s.errAcc with ovr := true } }) ∧
  (∀ (s : State) (a : WordIndex) (v : Word) (rest : List HostInput), s.host = .write a v :: rest → s.busy = true →
    step s = .next { s with host := rest, errAcc := { s.errAcc with ovr := true } }) ∧
  (∀ (i : Instr) (s t : State), s.noReset = true → exec i s = .next t →
    t.inputs = s.inputs ∧ t.gpio.pnegEn = s.gpio.pnegEn)

/-- Reads while a command runs (10_state.md R33, 70_reset_and_hazards.md R296): whatever the host reads during a
command, of a register that is not live, is the value of the previous commit. The points at which it reads are the
model's (log entry 4). -/
def Obligations.ReadsWhileBusySeeThePreviousCommit : Prop :=
  ∀ (i : Instr) (s t : State), exec i s = .next t →
    ∃ l, t.hostLog = s.hostLog ++ l ∧
      ∀ r ∈ l, heldWhileRunning (hostRegAt r.a) = true → r.v = readReg (hostRegAt r.a) s

/-- A reset that the host asserts before a command's first event abandons it (70_reset_and_hazards.md R292): nothing
commits, no event is issued, and the state is the reset state. That a reset lands at the points of log entry 4 is the
model's choice (log entry 8). -/
def Obligations.ResetAbandonsTheCommand : Prop :=
  ∀ (i : Instr) (s : State) (rest : List HostInput), s.host = .reset :: rest →
    exec i s = .next (s.setHost rest).engineReset

/-- How a command ends (10_state.md R33, R37; 70_reset_and_hazards.md R292): with its commit, or, only if the host
asserts a reset, abandoned: then the state is a reset state, and what stays is the trace so far, the parameters and
the rest of the host's inputs (the model's fields, log entry 17). -/
def Obligations.EveryCommandCommitsOrIsReset : Prop :=
  ∀ (i : Instr) (s t : State), exec i s = .next t →
    (t.resets = s.resets ∧ t.busy = false ∧ t.done = true ∧ t.fail = t.result.fails ∧ t.results = t.shadow ∧
      t.lastAddr = t.la ∧ (∃ o, t.errAcc = ErrAcc.orAcc { s.errAcc with ovr := s.errAcc.ovr || o } t.acc)) ∨
    (HostInput.reset ∈ s.host ∧ ∃ u : State, t = u.engineReset ∧ u.resets = s.resets ∧ u.params = s.params ∧
      s.trace <+: u.trace ∧ u.host <:+ s.host)

/-! ## Register access -/

/-- The workaround (41_register_access.md R120, R122): nothing on the sub-address of the previous access; on another,
the last-address memory is updated and one zero write goes to its reserved offset, whose failure sets only the WA flag.
The offset is WA_TABLE's for the sub-address, and 0x00 for one that is not in it (R121). Stated with a host that leaves
the command alone. The queue of ready answers, which the write takes one of, is the model's choice (log entry 3). -/
def Obligations.WorkaroundFiresOnASwitch : Prop :=
  (∀ (p : Params) (sa : Byte) (s : State), s.quiet = true →
    (s.la = ⟨true, sa⟩ → workaround p sa s = .ok () s) ∧
    (s.la ≠ ⟨true, sa⟩ →
      ∃ ok, workaround p sa s = .ok ()
        { s with la := ⟨true, sa⟩, acc := s.acc.or { wa := !ok }, chip := s.chip.tail,
                 trace := s.trace ++ [.w sa [waOffset p sa, 0x00] ok] })) ∧
  (∀ (p : ParamSet) (sa : Byte),
    (∀ off, (sa, off) ∈ p.params.WA_TABLE → waOffset p.params sa = off) ∧
    ((∀ off, (sa, off) ∉ p.params.WA_TABLE) → waOffset p.params sa = 0x00))

/-- Every command's trace (41_register_access.md R122, R123, R135): between its accesses stand exactly the workaround
writes that the changes of sub-address ask for, counted from the previous command's last access; the last-address
memory follows; and ERR_ACC.WA is set exactly when it was set before or one of the workaround writes failed. -/
def Obligations.WorkaroundsFollowTheAddressSwitches : Prop :=
  ∀ (i : Instr) (s t : State), s.noReset = true → exec i s = .next t →
    ∃ acts : List Act, t.trace = s.trace ++ weave s.params.params s.la acts ∧ t.la = weaveLa s.la acts ∧
      t.errAcc.wa = (s.errAcc.wa || weaveWa s.la acts)

/-- NOP (30_encoding.md R106): RDATA 0, code OK, no event, in every PSTATE, and whatever its word's other fields hold. -/
def Obligations.NopCompletes : Prop :=
  encode .nop = 0x00000000 ∧ (∀ w : Word, opField w = 0x00 → decodeWord w = .ok .nop) ∧
  ∀ s : State, s.noReset = true →
    ∃ x, Side.takenFrom x s ∧ exec .nop s = .next (s.completed x {} { s.results with rdata := 0 } s.pstate .ok)

/-- REG_READ (41_register_access.md R130): one read after its workaround; RDATA is the byte, or 0 with BUS_ERR. REG_WRITE
(R131): one write after its workaround; RDATA 0. -/
def Obligations.RegReadAndRegWriteComplete : Prop :=
  ∀ (sa off : Byte) (s : State), s.noReset = true →
    (∃ (d : RdDraw) (x : Side), x.takenFrom s ∧
      exec (.regRead sa off) s = .next (s.completed x (readEff ⟨sa, off⟩ d)
        { s.results with rdata := (d.v.getD 0).setWidth 32 } s.pstate (if d.v.isSome then .ok else .busErr))) ∧
    (∀ value : Byte, ∃ (d : WrDraw) (x : Side), x.takenFrom s ∧
      exec (.regWrite sa off value) s = .next (s.completed x (writeEff ⟨sa, off⟩ value d)
        { s.results with rdata := 0 } s.pstate (if d.ok then .ok else .busErr)))

/-- REG_READ_BLOCK with a length in 1..16 (41_register_access.md R132): DBUF byte k is the k-th byte read for k < len and
0 past it; on BUS_ERR, DBUF is unchanged. -/
def Obligations.RegReadBlockCompletes : Prop :=
  ∀ (sa off len : Byte) (s : State), s.noReset = true → 1 ≤ len.toNat → len.toNat ≤ 16 →
    ∃ (d : BlkDraw) (x : Side), x.takenFrom s ∧
      exec (.regReadBlock sa off len) s = .next (s.completed x (blockEff ⟨sa, off⟩ len.toNat d)
        (match d.v with
        | none => { s.results with rdata := 0 }
        | some b => { s.results with
            rdata := 0
            dbuf := Vector.ofFn fun k => if k.val < len.toNat then b[k] else 0 })
        s.pstate (if d.v.isSome then .ok else .busErr))

/-- REG_SET and REG_CLR (41_register_access.md R127, R128, R133, R134): a read, and, if it succeeded, the write of the
byte with the mask's bits set (cleared); RDATA is the value written above the value read, 0 when the read failed. -/
def Obligations.RegSetAndRegClrComplete : Prop :=
  ∀ (sa off mask : Byte) (s : State), s.noReset = true →
    (∃ (d : RmwDraw) (x : Side), x.takenFrom s ∧
      exec (.regSet sa off mask) s = .next (s.completed x (setEff ⟨sa, off⟩ mask d)
        { s.results with rdata := match d.v with
            | none => 0
            | some v => v.setWidth 32 ||| ((v ||| mask).setWidth 32 <<< 8) }
        s.pstate (if d.good then .ok else .busErr))) ∧
    (∃ (d : RmwDraw) (x : Side), x.takenFrom s ∧
      exec (.regClr sa off mask) s = .next (s.completed x (clrEff ⟨sa, off⟩ mask d)
        { s.results with rdata := match d.v with
            | none => 0
            | some v => v.setWidth 32 ||| ((v &&& ~~~mask).setWidth 32 <<< 8) }
        s.pstate (if d.good then .ok else .busErr)))

/-- A poll read that fails sets the PBUS flag and never BUS (41_register_access.md R136), so no command's code is BUS_ERR
for it. RegPoll differs from RegRead in these two flags alone: same value, and the same state but for them. -/
def Obligations.FailedPollsNeverSetBus : Prop :=
  ∀ (p : Params) (l : Loc) (s : State), s.params.params = p → s.noReset = true →
    ∃ (v : Option Byte) (t : State), regPoll p l s = .ok v t ∧ t.acc.bus = s.acc.bus ∧
      t.acc.pbus = (s.acc.pbus || v.isNone) ∧
      regRead p l s = .ok v { t with acc := { t.acc with bus := s.acc.bus || v.isNone, pbus := s.acc.pbus } }

/-! ## AUX -/

/-- AUX_WRITE and AUX_READ (42_aux.md R142-R146, R149-R151): the setup steps, then polls 2 ms apart until one sees the
enable bit clear, at most 150, then the reread; RDATA is the last status byte above the polls performed, and the code is
the op's outcome. -/
def Obligations.AuxWriteAndAuxReadComplete : Prop :=
  ∀ s : State, s.noReset = true →
    (∀ offset : Byte, ∃ (d : AuxWriteDraw) (x : Side), d.wait.legal s.params.params = true ∧ x.takenFrom s ∧
      exec (.auxWrite offset) s = .next (s.completed x (auxWriteEff s.params.params offset d)
        { s.results.withStatus (auxWriteEff s.params.params offset d) with
          rdata := BitVec.ofNat 32 d.wait.polls |||
            (((auxWriteEff s.params.params offset d).status s.results).setWidth 32 <<< 8) }
        s.pstate (AuxRes.endCode d.res (auxWriteEff s.params.params offset d)))) ∧
    (∀ lenCmd : Byte, ∃ (d : AuxReadDraw) (x : Side), d.wait.legal s.params.params = true ∧ x.takenFrom s ∧
      exec (.auxRead lenCmd) s = .next (s.completed x (auxReadEff s.params.params lenCmd d)
        { s.results.withStatus (auxReadEff s.params.params lenCmd d) with
          rdata := BitVec.ofNat 32 d.wait.polls |||
            (((auxReadEff s.params.params lenCmd d).status s.results).setWidth 32 <<< 8) }
        s.pstate (AuxRes.endCode d.res (auxReadEff s.params.params lenCmd d))))

/-- The timeout of AuxWait (42_aux.md R145), with a chip that has enough answers ready (log entry 3), none of which shows the
enable bit clear, and a host that leaves the command alone: exactly 150 delays of 2 ms and 150 poll reads, no reread, the
outcome A_TMO and the TMO flag. -/
def Obligations.AuxWaitTimesOutAfter150Polls : Prop :=
  ∀ (s : State) (sa : Byte), s.quiet = true → s.la = ⟨true, sa⟩ →
    s.params.params.CHIP_MAP.L_AUX_CTRL_STATUS.sa = sa → 150 ≤ s.chip.length →
    (∀ a ∈ s.chip, a.ok = true → a.data[0] &&& s.params.params.CHIP_MAP.M_AUX_OP_EN ≠ 0) →
    ∃ (t : State) (evs : List Event), auxWait s.params.params s = .ok (.tmo, 150) t ∧ t.trace = s.trace ++ evs ∧
      evs.length = 300 ∧ evs.count (.d 2) = 150 ∧ busCount evs = 150 ∧ delayMs evs = 300 ∧ t.acc.tmo = true ∧
      ∀ e ∈ evs, e = .d 2 ∨ ∃ v, e = readEvent s.params.params.CHIP_MAP.L_AUX_CTRL_STATUS v

/-- AUX_RESET (42_aux.md R147, R152): the bit is set and then cleared, the clear attempted even if the set failed. -/
def Obligations.AuxResetCompletes : Prop :=
  ∀ s : State, s.noReset = true →
    ∃ (d : PulseDraw) (x : Side), x.takenFrom s ∧
      exec .auxReset s = .next (s.completed x (auxResetEff s.params.params d) { s.results with rdata := 0 } s.pstate
        (if d.set.good = true ∧ d.clr.good = true then .ok else .busErr))

/-! ## EDID -/

/-- EDID_BLOCK_COUNT (43_edid.md R160, R171): the two AUX ops at offset 0x7E, then the byte read; their outcomes do not
end the command, and only an accumulated bus failure gives BUS_ERR. The count is the byte clamped: 0..3 are kept, and
4..255 become 1 (R161). -/
def Obligations.EdidBlockCountCompletes : Prop :=
  (∀ v : Byte, edidClamp v = if v.toNat > 3 then 1 else v) ∧
  ∀ s : State, s.noReset = true →
    ∃ (d : CountDraw) (x : Side), d.legal s.params.params = true ∧ x.takenFrom s ∧
      exec .edidBlockCount s = .next (s.completed x (countEff s.params.params d)
        { s.results.withStatus (countEff s.params.params d) with
          edidCount := edidClamp d.raw
          edidRaw := d.raw
          rdata := (edidClamp d.raw).setWidth 32 ||| (d.raw.setWidth 32 <<< 8) }
        s.pstate (countEff s.params.params d).acc.endCode)

/-- EDID_READ_CHUNK (43_edid.md R162-R164, R172): up to 3 attempts, only an echo of the AuxRead being retried, each echo
followed by an AUX reset. EDID_READ_SEGMENT (R165, R173): the three setup steps, then the chunk if all of them
succeeded; else the worst outcome's code and no attempt. -/
def Obligations.EdidReadChunkAndSegmentComplete : Prop :=
  ∀ (offset : Byte) (s : State), s.noReset = true →
    (∃ (d : ChunkDraw) (x : Side), d.legal s.params.params = true ∧ x.takenFrom s ∧
      exec (.edidReadChunk offset) s = .next (s.completed x (chunkEff s.params.params offset d)
        (Results.withChunk (s.results.withStatus (chunkEff s.params.params offset d)) d.chunk)
        s.pstate (Chunk.endCode d.chunk (chunkEff s.params.params offset d)))) ∧
    (∀ segment : Byte, ∃ (d : SegDraw) (x : Side), d.legal s.params.params = true ∧ x.takenFrom s ∧
      exec (.edidReadSegment segment offset) s = .next (s.completed x (segEff s.params.params segment offset d)
        (Results.withChunk (s.results.withStatus (segEff s.params.params segment offset d)) d.result)
        s.pstate (Chunk.endCode d.result (segEff s.params.params segment offset d))))

/-- EDID_READ_FULL (43_edid.md R165-R170): it ends at once with EDID_INIT_FAIL when the initial addressing fails; else
the block count, the chunks in order up to the first that fails, each copied where it fits whole, and the final AUX
reset. -/
def Obligations.EdidReadFullCompletes : Prop :=
  ∀ s : State, s.noReset = true →
    (∃ (d : InitDraw) (x : Side), d.good = false ∧ x.takenFrom s ∧
      exec .edidReadFull s = .next (s.completed x (initEff s.params.params d) { s.results with rdata := 0 } s.pstate
        .edidInitFail)) ∨
    (∃ (d : FullDraw) (x : Side), d.legal s.params.params = true ∧ x.takenFrom s ∧
      exec .edidReadFull s = .next (s.completed x (fullEff s.params.params d)
        { s.results.withStatus (fullEff s.params.params d) with
          edidCount := d.blocks
          edidRaw := d.count.raw
          edidBuf := piecesBuf (State.fitSize s) 0 s.results.edidBuf d.pieces
          edidValidLen := BitVec.ofNat 10 (16 * fitting (State.fitSize s) (okPieces d.pieces))
          rdata := d.blocks.setWidth 32 ||| (BitVec.ofNat 32 (okPieces d.pieces) <<< 8) }
        s.pstate ((failCode d.pieces).getD (fullEff s.params.params d).acc.endCode)))

/-- The counts of a full read whose code is OK (43_edid.md R174): with clamped count c it read 8·(c + 1) chunks, and
EDID_VALID_LEN is `min(128·(c + 1), 16·(size div 16))`. -/
def Obligations.EdidReadFullCounts : Prop :=
  ∀ s t : State, s.noReset = true → exec .edidReadFull s = .next t → t.result = .ok →
    t.results.edidValidLen.toNat = min (128 * (t.results.edidCount.toNat + 1)) (16 * (State.fitSize s / 16)) ∧
    t.results.rdata = t.results.edidCount.setWidth 32 ||| (BitVec.ofNat 32 (8 * (t.results.edidCount.toNat + 1)) <<< 8) ∧
    t.results.edidCount.toNat ≤ 3

/-- MemWrite (00_scope.md R11; 10_state.md R57; 20_memory.md R87): n bytes from index a on, in order; every other byte is
as it was, an index of 512 or more is no byte of EDID_BUF (no rule forms one; that a write there does nothing is the
model's choice, log entry 12), and a write keeps the canonical form. -/
def Obligations.MemWriteStoresTheBytes : Prop :=
  ∀ (m : Memory) (a : Nat) (v : List Byte),
    (∀ i (h : i < v.length), a + i < 512 → Memory.readByte (Memory.write m a v) (a + i) = some v[i]) ∧
    (∀ b, b < a ∨ a + v.length ≤ b ∨ 512 ≤ b → Memory.readByte (Memory.write m a v) b = Memory.readByte m b) ∧
    (Memory.wf m = true → Memory.wf (Memory.write m a v) = true)

/-! ## PLL and video -/

/-- PLL_SOLVE (44_pll.md R190): no event; the coefficients on success, with PLL_ACTUAL_HZ saturated at 32 bits; nothing
but RDATA on PLL_RANGE. -/
def Obligations.PllSolveCompletes : Prop :=
  ∀ s : State, s.noReset = true →
    ∃ x, Side.takenFrom x s ∧
      exec .pllSolve s = .next
        (match pllSolve s.params.params s.inputs.pllClkHz.toNat with
        | some c => s.completed x {}
            { s.results with
              rdata := 0
              pllM := BitVec.ofNat 24 c.m
              pllN := BitVec.ofNat 24 c.n
              pllPd := BitVec.ofNat 5 c.pd
              pllActualHz := BitVec.ofNat 32 (min c.act 0xFFFFFFFF) }
            s.pstate .ok
        | none => s.completed x {} { s.results with rdata := 0 } s.pstate .pllRange)

/-- GcdSub (44_pll.md R196): the Euclidean subtraction form gives the ordinary gcd, which the model's Reduce uses (log
entry 13). -/
def Obligations.SubtractionGcdIsTheGcd : Prop := ∀ a b : Nat, 1 ≤ a → 1 ≤ b → gcdSub (a + b) a b = Nat.gcd a b

/-- The divider search and the snapping (44_pll.md R193, R194): the smallest divider that meets the preferred bound, else
the smallest that meets the absolute one; snapped, it divides 27,000,000. -/
def Obligations.DividerSearchFindsTheSmallest : Prop :=
  (∀ (p : Params) (clk d : Nat), pickDivider p clk = some d ↔
    (1 ≤ d ∧ d ≤ 16 ∧ p.PLL_OUT_FREQ_MIN / d ≤ clk ∧ ∀ q, 1 ≤ q → q < d → clk < p.PLL_OUT_FREQ_MIN / q) ∨
    ((∀ q, 1 ≤ q → q ≤ 16 → clk < p.PLL_OUT_FREQ_MIN / q) ∧
      1 ≤ d ∧ d ≤ 16 ∧ p.PLL_OUT_FREQ_ABS_MIN / d ≤ clk ∧ ∀ q, 1 ≤ q → q < d → clk < p.PLL_OUT_FREQ_ABS_MIN / q)) ∧
  (∀ d, 1 ≤ d → d ≤ 16 →
    snap d = (if d = 7 then 8 else if d = 11 then 12 else if d = 13 ∨ d = 14 then 15 else d) ∧
    snap d ∈ [1, 2, 3, 4, 5, 6, 8, 9, 10, 12, 15, 16] ∧ snap d ∣ 27000000)

/-- Step 7 (44_pll.md R197): the result is the reduced pair divided by the smallest i ≥ 1 at which both fit 24 bits. -/
def Obligations.FitDividesByTheSmallestDivisor : Prop :=
  ∀ m n : Nat, ∃ i, 1 ≤ i ∧ fit24 m n = (m / i, n / i) ∧ m / i ≤ 0xFFFFFF ∧ n / i ≤ 0xFFFFFF ∧
    ∀ j, 1 ≤ j → j < i → 0xFFFFFF < m / j ∨ 0xFFFFFF < n / j

/-- What every Ok result of the solver satisfies (44_pll.md R191, R198, R199, R200): its post-divider is the snapped
divider of the search, and the pair, the achieved clock and the bounds are as the steps give them. -/
def Obligations.SolverOutputProperties : Prop :=
  ∀ (p : ParamSet) (clk : Nat) (c : PllCoeffs), pllSolve p.params clk = some c →
    (∃ d, pickDivider p.params clk = some d ∧ c.pd = snap d) ∧
    1 ≤ c.m ∧ c.m ≤ 0xFFFFFF ∧ 1 ≤ c.n ∧ c.n ≤ 0xFFFFFF ∧ (0xFFFFFF < 2 * c.m ∨ 0xFFFFFF < 2 * c.n) ∧
    c.pd ∈ [1, 2, 3, 4, 5, 6, 8, 9, 10, 12, 15, 16] ∧ clk * c.pd ≤ p.params.PLL_OUT_FREQ_ABS_MAX ∧
    c.act = c.m * 27000000 / c.n / c.pd ∧
    ∃ i j, 1 ≤ i ∧
      c.m = 2 ^ j * (clk / Nat.gcd clk (27000000 / c.pd) / i) ∧
      c.n = 2 ^ j * (27000000 / c.pd / Nat.gcd clk (27000000 / c.pd) / i) ∧
      Nat.gcd c.m c.n = 2 ^ j * Nat.gcd (clk / Nat.gcd clk (27000000 / c.pd) / i)
        (27000000 / c.pd / Nat.gcd clk (27000000 / c.pd) / i) ∧
      (∀ k, 1 ≤ k → k < i → 0xFFFFFF < clk / Nat.gcd clk (27000000 / c.pd) / k ∨
        0xFFFFFF < 27000000 / c.pd / Nat.gcd clk (27000000 / c.pd) / k) ∧
      (i = 1 → Nat.gcd c.m c.n = 2 ^ j ∧ c.m * 27000000 = clk * c.pd * c.n ∧ c.m * 27000000 / c.n = clk * c.pd ∧
        c.act = clk)

/-- Idempotence (44_pll.md R201): steps 6 to 8 on an Ok output give it back exactly when its gcd is a power of two. -/
def Obligations.ReduceIsIdempotentOnPowersOfTwo : Prop :=
  ∀ (m0 n0 m n : Nat), 1 ≤ m0 → 1 ≤ n0 → reduce m0 n0 = some (m, n) →
    (reduce m n = some (m, n) ↔ ∃ k, Nat.gcd m n = 2 ^ k)

/-- Reachability and bounds of the solver (44_pll.md R192, R195, R202), where the zero case of R197 is ruled out: inside
the envelope only the output check rejects; the bounds themselves succeed and one unit past them fails. That the output
check also rejects a divider that was not snapped follows R193 and R195, against a sentence of R202 (log entry 25). -/
def Obligations.SolverAcceptsTheEnvelope : Prop :=
  ∀ p : ParamSet, p.params.PLL_OUT_FREQ_ABS_MAX / 27000000 ≤ 0xFFFFFF →
    (∀ clk, p.params.PLL_OUT_FREQ_ABS_MIN / 16 ≤ clk → clk ≤ p.params.PLL_OUT_FREQ_ABS_MAX →
      ∃ d, pickDivider p.params clk = some d ∧
        (pllSolve p.params clk = none ↔ p.params.PLL_OUT_FREQ_ABS_MAX < clk * snap d)) ∧
    (pllSolve p.params p.params.PLL_OUT_FREQ_ABS_MAX).isSome = true ∧
    (pllSolve p.params (p.params.PLL_OUT_FREQ_ABS_MIN / 16)).isSome = true ∧
    (∀ clk, p.params.PLL_OUT_FREQ_ABS_MAX < clk → pllSolve p.params clk = none) ∧
    (∀ clk, clk < p.params.PLL_OUT_FREQ_ABS_MIN / 16 → pllSolve p.params clk = none)

/-- Scenario A (44_pll.md R203): with the test bounds 74,300,000 Hz gives these coefficients, and with every parameter
set that accepts this clock the achieved clock is exact. -/
def Obligations.ScenarioAIsExact : Prop :=
  (∀ p : ParamSet, p.params.PLL_OUT_FREQ_MIN = 520000000 → p.params.PLL_OUT_FREQ_ABS_MIN = 300000000 →
    p.params.PLL_OUT_FREQ_ABS_MAX = 800000000 →
    pllSolve p.params 74300000 = some { m := 12173312, n := 552960, pd := 8, act := 74300000 }) ∧
  (∀ (p : ParamSet) (c : PllCoeffs), pllSolve p.params 74300000 = some c → c.act = 74300000)

/-- VIDEO_CONFIG (45_video_config.md R220-R230): the solver first, and on PLL_RANGE no event at all; else every step in
order, all writes attempted, the PLL registers written, and BUS_ERR if any transaction but a workaround write failed. -/
def Obligations.VideoConfigCompletes : Prop :=
  ∀ s : State, s.noReset = true →
    (∀ c, pllSolve s.params.params (s.inputs.tPixclkKhz.toNat * 1000) = some c →
      ∃ (d : VideoDraw) (x : Side), d.legal = true ∧ x.takenFrom s ∧
        exec .videoConfig s = .next (s.completed x (videoEff s.params.params s.inputs c d)
          (Results.withPll { s.results with rdata := 0 } c) s.pstate
          (videoEff s.params.params s.inputs c d).acc.endCode)) ∧
    (pllSolve s.params.params (s.inputs.tPixclkKhz.toNat * 1000) = none →
      ∃ x, Side.takenFrom x s ∧
        exec .videoConfig s = .next (s.completed x {} { s.results with rdata := 0 } s.pstate .pllRange))

/-- The event count of VIDEO_CONFIG (45_video_config.md R231): 39 bus transactions and the failed reads taken off, not
counting workaround writes, and one delay of 1 ms; none at all on PLL_RANGE. -/
def Obligations.VideoConfigEventCount : Prop :=
  ∀ s t : State, s.noReset = true → exec .videoConfig s = .next t →
    (t.result = .pllRange → t.trace = s.trace) ∧
    (t.result ≠ .pllRange →
      ∃ acts : List Act, t.trace = s.trace ++ weave s.params.params s.la acts ∧
        busCount (acts.map Act.ev) + acts.countP Act.failedRead = 39 ∧
        (acts.map Act.ev).filter (fun e => (Event.busSa e).isNone) = [.d 1])

/-- MN_STROBE (45_video_config.md R229, R232): both ready bits low, 1 ms, both high. -/
def Obligations.MnStrobeCompletes : Prop :=
  ∀ s : State, s.noReset = true →
    ∃ (low high : RmwDraw) (x : Side), x.takenFrom s ∧
      exec .mnStrobe s = .next (s.completed x (strobeEff s.params.params low high) { s.results with rdata := 0 }
        s.pstate (strobeEff s.params.params low high).acc.endCode)

/-! ## Power and link -/

/-- POWER_UP in Off (46_power_link.md R240-R244): up to 3 attempts, each powering on, polling up to FW_POLL_MAX times and
powering down when none was ready; the first ready poll ends it in FirmwareLoaded with FW_INFO written and code OK, and
three failed attempts end it in Off with FW_TIMEOUT. -/
def Obligations.PowerUpCompletes : Prop :=
  ∀ s : State, s.noReset = true → s.pstate = .off →
    (∃ (as : List (List FwDraw)) (x : Side), as.length = 3 ∧ as.all (failedLegal s.params.params) = true ∧
      x.takenFrom s ∧
      exec .powerUp s = .next (s.completed x (failedEff s.params.params as) { s.results with rdata := 3 } .off
        .fwTimeout)) ∨
    (∃ (as : List (List FwDraw)) (d : ReadyDraw) (vr : Byte × Byte) (x : Side), as.length < 3 ∧
      as.all (failedLegal s.params.params) = true ∧ d.legal s.params.params vr = true ∧ x.takenFrom s ∧
      exec .powerUp s = .next (s.completed x ((failedEff s.params.params as).seq (readyEff s.params.params d))
        { s.results with fwVersion := vr.1, fwRevision := vr.2, rdata := BitVec.ofNat 32 (as.length + 1) }
        .firmwareLoaded .ok))

/-- WAIT_HPD in FirmwareLoaded (46_power_link.md R245-R248): polls 10 ms apart; the first that sees HPD is followed by the
start sequence and LinkReady; after 10,000 that do not, HPD_TIMEOUT in FirmwareLoaded. -/
def Obligations.WaitHpdCompletes : Prop :=
  ∀ s : State, s.noReset = true → s.pstate = .firmwareLoaded →
    (∃ (d : HpdDraw) (x : Side), d.legal s.params.params = true ∧ x.takenFrom s ∧
      exec .waitHpd s = .next (s.completed x (hpdEff s.params.params d)
        { s.results with rdata := BitVec.ofNat 32 (d.before.length + 1) } .linkReady
        (hpdEff s.params.params d).acc.endCode)) ∨
    (∃ (ds : List RdDraw) (x : Side), ds.length = 10000 ∧ ds.all (noHpd s.params.params) = true ∧ x.takenFrom s ∧
      exec .waitHpd s = .next (s.completed x (hpdPollsEff s.params.params ds) { s.results with rdata := 10000 }
        .firmwareLoaded .hpdTimeout))

/-- The HPD timeout (46_power_link.md R248), with a chip that has enough answers ready (log entry 3), none of which shows
HPD, and a host that leaves the command alone: exactly 10,000 delays of 10 ms and 10,000 poll reads, nothing else, and PSTATE
stays FirmwareLoaded. -/
def Obligations.HpdTimeoutAfter10000Polls : Prop :=
  ∀ s : State, s.quiet = true → s.pstate = .firmwareLoaded →
    s.la = ⟨true, s.params.params.CHIP_MAP.L_SYS_STATUS.sa⟩ → 10000 ≤ s.chip.length →
    (∀ a ∈ s.chip, a.ok = true → a.data[0] &&& s.params.params.CHIP_MAP.M_HPD = 0) →
    ∃ (t : State) (evs : List Event), exec .waitHpd s = .next t ∧ t.result = .hpdTimeout ∧ t.pstate = .firmwareLoaded ∧
      t.results.rdata = 10000 ∧ t.trace = s.trace ++ evs ∧ evs.length = 20000 ∧ evs.count (.d 10) = 10000 ∧
      busCount evs = 10000 ∧ ∀ e ∈ evs, e = .d 10 ∨ ∃ v, e = readEvent s.params.params.CHIP_MAP.L_SYS_STATUS v

/-- POWER_ROLE (46_power_link.md R249), in every PSTATE: RDATA is the status byte with the role bit above it, or 0 with
BUS_ERR. -/
def Obligations.PowerRoleCompletes : Prop :=
  ∀ s : State, s.noReset = true →
    ∃ (d : RdDraw) (x : Side), x.takenFrom s ∧
      exec .powerRole s = .next (s.completed x (readEff s.params.params.CHIP_MAP.L_SYS_STATUS d)
        { s.results with rdata := match d.v with
            | none => 0
            | some v => v.setWidth 32 + (if v &&& s.params.params.CHIP_MAP.M_ROLE ≠ 0 then 0x100 else 0) }
        s.pstate (if d.v.isSome then .ok else .busErr))

/-- POWER_OFF in FirmwareLoaded and LinkReady (46_power_link.md R243, R250): reset asserted, power removed, T_OFF_MS, and
PSTATE Off; no bus transaction. -/
def Obligations.PowerOffCompletes : Prop :=
  ∀ s : State, s.noReset = true → s.pstate = .firmwareLoaded ∨ s.pstate = .linkReady →
    ∃ x, Side.takenFrom x s ∧
      exec .powerOff s = .next (s.completed x
        { acts := [⟨.g .RST_REL false, true⟩, ⟨.g .PWR_EN false, true⟩, ⟨.d s.params.params.T_OFF_MS, true⟩] }
        { s.results with rdata := 0 } .off .ok)

/-! ## Refusals -/

/-- Refusals at decode (30_encoding.md R105, R107): every OP value outside R102, and a block read with a length outside
1..16, is refused with ILLEGAL_CMD, with no event. -/
def Obligations.IllegalCommandsAreRefused : Prop :=
  (∀ (s : State) (w : Word) (rest : List HostInput), s.busy = false → s.host = .write cmdIndex w :: rest →
    HostInput.reset ∉ rest →
    (0x06 ≤ (opField w).toNat ∧ (opField w).toNat ≤ 0x0F) ∨ (0x13 ≤ (opField w).toNat ∧ (opField w).toNat ≤ 0x1F) ∨
      (0x24 ≤ (opField w).toNat ∧ (opField w).toNat ≤ 0x2F) ∨ (0x31 ≤ (opField w).toNat ∧ (opField w).toNat ≤ 0x3F) ∨
      (0x42 ≤ (opField w).toNat ∧ (opField w).toNat ≤ 0x4F) ∨ 0x54 ≤ (opField w).toNat →
    Refuses (step s) ((s.setHost rest).accept w) .illegalCmd) ∧
  (∀ (sa off len : Byte) (s : State), s.noReset = true → len.toNat = 0 ∨ 16 < len.toNat →
    Refuses (exec (.regReadBlock sa off len) s) s .illegalCmd)

/-- The state preconditions (46_power_link.md R251): POWER_UP outside Off, WAIT_HPD outside FirmwareLoaded, and POWER_OFF
outside FirmwareLoaded and LinkReady are refused with STATE_ERR, with no event and PSTATE unchanged; no other command,
and none of these three elsewhere, ends with STATE_ERR. That POWER_OFF is refused in PoweringUp is the model's reading of
R251 against the pseudocode of R250 (log entry 21). -/
def Obligations.StatePreconditions : Prop :=
  (∀ s : State, s.noReset = true →
    (s.pstate ≠ .off → Refuses (exec .powerUp s) s .stateErr) ∧
    (s.pstate ≠ .firmwareLoaded → Refuses (exec .waitHpd s) s .stateErr) ∧
    (s.pstate ≠ .firmwareLoaded → s.pstate ≠ .linkReady → Refuses (exec .powerOff s) s .stateErr)) ∧
  (∀ (i : Instr) (s t : State), s.noReset = true → exec i s = .next t → t.result = .stateErr →
    (i = .powerUp ∧ s.pstate ≠ .off) ∨ (i = .waitHpd ∧ s.pstate ≠ .firmwareLoaded) ∨
      (i = .powerOff ∧ s.pstate ≠ .firmwareLoaded ∧ s.pstate ≠ .linkReady))

/-! ## The whole machine -/

/-- A step always has a next state: the engine has no traps and no fault (60_exceptions.md R266; log entry 18), and no
command is left without a meaning. -/
def Obligations.EveryStepAnswersANextState : Prop :=
  (∀ (i : Instr) (s : State), ∃ t, exec i s = .next t) ∧ ∀ s : State, ∃ t, step s = .next t

/-- The invariant of Safety.lean: idle between commands (a step is a whole command, log entry 16), FAIL in step with RESULT, never PoweringUp, LAST_ADDR the
last-address memory, EDID_BUF canonical, PLL_PD a snapped divider, the block count at most 3, and every byte that
EDID_VALID_LEN counts written. -/
def Obligations.StepKeepsTheInvariant : Prop := ∀ s t : State, s.Inv → step s = .next t → t.Inv

/-- The last-address memory, when valid, is the sub-address of the last bus transaction (10_state.md R58, 41_register_access.md
R123), over every command, host access and reset. -/
def Obligations.StepKeepsTheLastAddress : Prop := ∀ s t : State, s.laTracks → step s = .next t → t.laTracks

/-- The trace only grows, the reset count never falls, and the parameters never change (00_scope.md R15, R8;
70_reset_and_hazards.md R291). The three are fields of the model's own (log entries 1 and 17). -/
def Obligations.TheTraceOnlyGrows : Prop :=
  ∀ s t : State, step s = .next t → s.trace <+: t.trace ∧ s.resets ≤ t.resets ∧ t.params = s.params

/-- Which commands write which result registers (10_state.md R38, R41, R44, R45, R47-R50, R56, R57): every other command
leaves them as they were. -/
def Obligations.ResultRegistersHaveTheirOwners : Prop :=
  ∀ (i : Instr) (s t : State), s.noReset = true → exec i s = .next t →
    (i ≠ .edidReadFull → t.results.edidBuf = s.results.edidBuf ∧ t.results.edidValidLen = s.results.edidValidLen ∧
      (∀ a, t.edidByte a = s.edidByte a)) ∧
    (i ≠ .edidReadFull → i ≠ .edidBlockCount →
      t.results.edidCount = s.results.edidCount ∧ t.results.edidRaw = s.results.edidRaw) ∧
    ((∀ sa off len, i ≠ .regReadBlock sa off len) → (∀ o, i ≠ .edidReadChunk o) → (∀ g o, i ≠ .edidReadSegment g o) →
      t.results.dbuf = s.results.dbuf) ∧
    (i ≠ .pllSolve → i ≠ .videoConfig →
      t.results.pllM = s.results.pllM ∧ t.results.pllN = s.results.pllN ∧ t.results.pllPd = s.results.pllPd ∧
      t.results.pllActualHz = s.results.pllActualHz) ∧
    (i ≠ .powerUp → t.results.fwVersion = s.results.fwVersion ∧ t.results.fwRevision = s.results.fwRevision) ∧
    ((∀ o, i ≠ .auxWrite o) → (∀ c, i ≠ .auxRead c) → i ≠ .edidBlockCount → (∀ o, i ≠ .edidReadChunk o) →
      (∀ g o, i ≠ .edidReadSegment g o) → i ≠ .edidReadFull → t.results.auxLastStatus = s.results.auxLastStatus)

/-- The pins (10_state.md R43): PWR_EN and RST_REL are moved only by POWER_UP and POWER_OFF, which leave both low in Off
and both high in FirmwareLoaded; PNEG_EN by no command. -/
def Obligations.OnlyThePowerCommandsMoveThePins : Prop :=
  ∀ (i : Instr) (s t : State), s.noReset = true → exec i s = .next t →
    t.gpio.pnegEn = s.gpio.pnegEn ∧
    (i ≠ .powerUp → i ≠ .powerOff → t.gpio = s.gpio) ∧
    (i = .powerUp → s.pstate = .off →
      (t.pstate = .firmwareLoaded → t.videoEn = true ∧ t.videoRstRel = true) ∧
      (t.pstate = .off → t.videoEn = false ∧ t.videoRstRel = false)) ∧
    (i = .powerOff → t.result = .ok → t.videoEn = false ∧ t.videoRstRel = false)

/-- The effect of each code on PSTATE (60_exceptions.md R269). -/
def Obligations.CodeDecidesPstate : Prop :=
  ∀ (i : Instr) (s t : State), s.noReset = true → exec i s = .next t →
    t.pstate =
      (match i, t.result with
      | .powerUp, .ok => .firmwareLoaded
      | .powerUp, .fwTimeout => .off
      | .waitHpd, .ok => .linkReady
      | .waitHpd, .busErr => .linkReady
      | .waitHpd, .hpdTimeout => .firmwareLoaded
      | .powerOff, .ok => .off
      | _, _ => s.pstate)

/-- The delay ceilings (60_exceptions.md R276, 70_reset_and_hazards.md R302): no command runs the timebase past its
ceiling. The model's readings: nothing but a delay moves the counter, so the bound is one on delays and not on the time
that the bus takes (log entry 9), and the counter never wraps (log entry 26). -/
def Obligations.DelayCeilings : Prop :=
  ∀ (i : Instr) (s t : State), s.noReset = true → exec i s = .next t →
    s.timebase ≤ t.timebase ∧
    t.timebase ≤ s.timebase + delayCeiling s.params.params i * s.params.params.CLK_PER_MS

/-- The chip's answers (00_scope.md R12; the queue of ready answers is the model's, log entry 3): the transactions of a
command take the answers the chip has ready, in order, one each. -/
def Obligations.AnswersAreTakenInOrder : Prop :=
  ∀ (i : Instr) (s t : State), exec i s = .next t →
    ∃ evs, t.trace = s.trace ++ evs ∧ t.chip = s.chip.drop (busCount evs) ∧ Answered s.chip evs
end

