-- ==== Sys2Proof/Laws/Bits.lean ====
section
/-! SUPPORT. The bits of a host register's parts: a flag in its place (`bitAt`), a narrower field shifted to its place,
and a field at bit 0. With these a read of a register is taken apart bit by bit. -/

namespace Sys2Proof.Machine

/-- A flag placed at bit `n` is that bit, and no other. -/
theorem getLsbD_bitAt (b : Bool) {n : Nat} (i : Nat) (hn : n < 32) : (bitAt b n).getLsbD i = (b && decide (i = n)) := by
  cases b
  · simp [bitAt]
  · by_cases h : i = n
    · subst h; simp [bitAt, hn]
    · simp [bitAt, h, BitVec.getLsbD_one]; omega

/-- A field shifted to bit `k` of a word, where it fits, has its bits from bit `k` on. -/
theorem getLsbD_field {w : Nat} (v : BitVec w) (k i : Nat) (h : k + w ≤ 32) :
    (v.setWidth 32 <<< k).getLsbD i = (decide (k ≤ i) && v.getLsbD (i - k)) := by
  by_cases hk : k ≤ i
  · by_cases hi : i < 32
    · simp [hk, hi, Nat.not_lt.mpr hk]
    · rw [BitVec.getLsbD_of_ge _ _ (by omega), BitVec.getLsbD_of_ge v _ (by omega)]; simp
  · simp [hk, Nat.lt_of_not_le hk]

/-- A field alone in a word, at bit 0, reads as its value. -/
theorem toNat_field {w : Nat} (v : BitVec w) (h : w ≤ 32) : (v.setWidth 32).toNat = v.toNat := by
  rw [BitVec.toNat_setWidth]
  exact Nat.mod_eq_of_lt (Nat.lt_of_lt_of_le v.isLt (Nat.pow_le_pow_right (by omega) h))

end Sys2Proof.Machine
end

