-- ==== Sys2Proof/Laws/Memory.lean ====
section
/-! SUPPORT. EDID_BUF: a byte read after a write of one byte, and the canonical form, which every memory operation keeps
and the reset state has. -/

namespace Sys2Proof.Machine

theorem Memory.readByte_below {m : Memory} {lo a : Nat} (h : Memory.risesFrom lo m = true) (ha : a < lo) :
    Memory.readByte m a = none := by
  induction m generalizing lo with
  | nil => rfl
  | cons c m ih =>
    obtain ⟨a', b⟩ := c
    simp only [Memory.risesFrom, Bool.and_eq_true, decide_eq_true_eq] at h
    rw [Memory.readByte, if_neg (by omega)]
    exact ih h.2 (by omega)

/-- A byte read after an insertion: the byte put there, else the byte that was there. -/
theorem Memory.readByte_insertCell (m : Memory) (a b : Nat) (v : Byte) :
    Memory.readByte (Memory.insertCell m a v) b = if b = a then some v else Memory.readByte m b := by
  induction m with
  | nil => simp only [Memory.insertCell, Memory.readByte, eq_comm]
  | cons c m ih =>
    obtain ⟨a', v'⟩ := c
    rw [Memory.insertCell]
    split
    · simp only [Memory.readByte, eq_comm]
    · split
      · next h =>
        subst h
        simp only [Memory.readByte]
        by_cases hb : a' = b
        · rw [if_pos hb, if_pos hb.symm]
        · rw [if_neg hb, if_neg (fun h => hb h.symm), if_neg hb]
      · next h1 h2 =>
        simp only [Memory.readByte, ih]
        by_cases hb : a' = b
        · rw [if_pos hb, if_pos hb, if_neg (by omega)]
        · rw [if_neg hb, if_neg hb]

/-- A byte read after one byte was written: an index of 512 or more is no byte (20_memory.md R87). -/
theorem Memory.readByte_writeByte (m : Memory) (a b : Nat) (v : Byte) :
    Memory.readByte (Memory.writeByte m a v) b = if b = a ∧ a < 512 then some v else Memory.readByte m b := by
  rw [Memory.writeByte]
  split
  · next h =>
    have h' : a < 512 := h
    simp only [Memory.readByte_insertCell, h', and_true]
  · next h =>
    have h' : ¬ a < 512 := h
    rw [if_neg (fun hh => h' hh.2)]

theorem Memory.insertCell_rises {m : Memory} {lo a : Nat} {v : Byte} (h : Memory.risesFrom lo m = true)
    (hl : lo ≤ a) (ha : a < Config.EDID_BUF_LEN) : Memory.risesFrom lo (Memory.insertCell m a v) = true := by
  induction m generalizing lo with
  | nil => simp only [Memory.insertCell, Memory.risesFrom, hl, ha, decide_true, Bool.and_self]
  | cons c m ih =>
    obtain ⟨a', v'⟩ := c
    have h0 := h
    simp only [Memory.risesFrom, Bool.and_eq_true, decide_eq_true_eq] at h
    rw [Memory.insertCell]
    split
    · next h1 =>
      simp only [Memory.risesFrom, Bool.and_eq_true, decide_eq_true_eq]
      exact ⟨⟨hl, ha⟩, ⟨by omega, h.1.2⟩, h.2⟩
    · split
      · next h1 h2 =>
        subst h2
        simp only [Memory.risesFrom, Bool.and_eq_true, decide_eq_true_eq]
        exact ⟨⟨hl, ha⟩, h.2⟩
      · next h1 h2 =>
        simp only [Memory.risesFrom, Bool.and_eq_true, decide_eq_true_eq]
        exact ⟨h.1, ih h.2 (by omega)⟩

/-- A write of one byte keeps the canonical form. -/
theorem Memory.wf_writeByte {m : Memory} (h : Memory.wf m = true) (a : Nat) (v : Byte) :
    Memory.wf (Memory.writeByte m a v) = true := by
  rw [Memory.writeByte]
  split
  · exact Memory.insertCell_rises h (Nat.zero_le _) ‹_›
  · exact h

/-- A write of several bytes keeps the canonical form. -/
theorem Memory.wf_write {m : Memory} (h : Memory.wf m = true) (a : Nat) (v : List Byte) :
    Memory.wf (Memory.write m a v) = true := by
  induction v generalizing m a with
  | nil => exact h
  | cons b v ih => exact ih (Memory.wf_writeByte h a b) (a + 1)

/-- In canonical form, memories that read the same are the same. -/
theorem Memory.ext_of_wf {m n : Memory} {lo : Nat} (hm : Memory.risesFrom lo m = true) (hn : Memory.risesFrom lo n = true)
    (h : ∀ a, Memory.readByte m a = Memory.readByte n a) : m = n := by
  induction m generalizing n lo with
  | nil =>
    cases n with
    | nil => rfl
    | cons c n => have := h c.1; simp [Memory.readByte] at this
  | cons c m ih =>
    obtain ⟨a, v⟩ := c
    cases n with
    | nil => have := h a; simp [Memory.readByte] at this
    | cons d n =>
      obtain ⟨b, w⟩ := d
      simp only [Memory.risesFrom, Bool.and_eq_true, decide_eq_true_eq] at hm hn
      have h1 := h a
      have h2 := h b
      simp only [Memory.readByte, if_true] at h1 h2
      have hab : a = b := by
        by_contra hne
        rw [if_neg (fun hh => hne hh.symm)] at h1
        rw [if_neg hne] at h2
        rcases Nat.lt_or_gt_of_ne hne with hlt | hgt
        · rw [Memory.readByte_below hn.2 (by omega)] at h1; cases h1
        · rw [Memory.readByte_below hm.2 (by omega)] at h2; cases h2
      subst hab
      rw [if_pos rfl, Option.some.injEq] at h1
      subst h1
      rw [ih hm.2 hn.2 fun x => ?_]
      by_cases hx : x < a + 1
      · rw [Memory.readByte_below hm.2 hx, Memory.readByte_below hn.2 hx]
      · have h3 := h x
        simp only [Memory.readByte] at h3
        rwa [if_neg (by omega), if_neg (by omega)] at h3

/-- The reset state's memory has the canonical form. -/
theorem Memory.wf_reset : Memory.wf State.reset.results.edidBuf = true := rfl

end Sys2Proof.Machine
end

