-- ==== Sys2Proof/Laws/PerInstr.lean ====
section
/-! SUPPORT. Statements for every command, one lemma for each constructor. `OpByte`: the word the assembler writes for a
command holds the command's OP byte in bits [7:0] (30_encoding.md R101-R103). -/

namespace Sys2Proof.Laws.OpByte

/-- The encoding of `i` holds `i`'s OP byte in its OP field. -/
def Statement (i : Instr) : Prop := opField (encode i) = i.opcode

theorem commandWord_op (op a b c : Byte) : opField (commandWord op a b c) = op := by
  unfold opField commandWord
  ext i hi
  simp
  interval_cases i <;> simp

theorem nop : Statement .nop := commandWord_op _ _ _ _
theorem regRead (sa off : Byte) : Statement (.regRead sa off) := commandWord_op _ _ _ _
theorem regWrite (sa off value : Byte) : Statement (.regWrite sa off value) := commandWord_op _ _ _ _
theorem regReadBlock (sa off len : Byte) : Statement (.regReadBlock sa off len) := commandWord_op _ _ _ _
theorem regSet (sa off mask : Byte) : Statement (.regSet sa off mask) := commandWord_op _ _ _ _
theorem regClr (sa off mask : Byte) : Statement (.regClr sa off mask) := commandWord_op _ _ _ _
theorem auxWrite (offset : Byte) : Statement (.auxWrite offset) := commandWord_op _ _ _ _
theorem auxRead (lenCmd : Byte) : Statement (.auxRead lenCmd) := commandWord_op _ _ _ _
theorem auxReset : Statement .auxReset := commandWord_op _ _ _ _
theorem edidBlockCount : Statement .edidBlockCount := commandWord_op _ _ _ _
theorem edidReadChunk (offset : Byte) : Statement (.edidReadChunk offset) := commandWord_op _ _ _ _
theorem edidReadSegment (segment offset : Byte) : Statement (.edidReadSegment segment offset) := commandWord_op _ _ _ _
theorem edidReadFull : Statement .edidReadFull := commandWord_op _ _ _ _
theorem pllSolve : Statement .pllSolve := commandWord_op _ _ _ _
theorem videoConfig : Statement .videoConfig := commandWord_op _ _ _ _
theorem mnStrobe : Statement .mnStrobe := commandWord_op _ _ _ _
theorem powerUp : Statement .powerUp := commandWord_op _ _ _ _
theorem waitHpd : Statement .waitHpd := commandWord_op _ _ _ _
theorem powerRole : Statement .powerRole := commandWord_op _ _ _ _
theorem powerOff : Statement .powerOff := commandWord_op _ _ _ _

end Sys2Proof.Laws.OpByte
end

