-- ==== Sys2Proof/Laws/State.lean ====
section
/-! SUPPORT. What each single update of the state does to each field (true by `rfl`), so that no proof unfolds a record
update. -/

namespace Sys2Proof.Machine

/-! ### setHost -/

@[simp] theorem State.setHost_cmd (h : List HostInput) (s : State) : (s.setHost h).cmd = s.cmd := rfl
@[simp] theorem State.setHost_busy (h : List HostInput) (s : State) : (s.setHost h).busy = s.busy := rfl
@[simp] theorem State.setHost_done (h : List HostInput) (s : State) : (s.setHost h).done = s.done := rfl
@[simp] theorem State.setHost_fail (h : List HostInput) (s : State) : (s.setHost h).fail = s.fail := rfl
@[simp] theorem State.setHost_result (h : List HostInput) (s : State) : (s.setHost h).result = s.result := rfl
@[simp] theorem State.setHost_lastOp (h : List HostInput) (s : State) : (s.setHost h).lastOp = s.lastOp := rfl
@[simp] theorem State.setHost_pstate (h : List HostInput) (s : State) : (s.setHost h).pstate = s.pstate := rfl
@[simp] theorem State.setHost_results (h : List HostInput) (s : State) : (s.setHost h).results = s.results := rfl
@[simp] theorem State.setHost_lastAddr (h : List HostInput) (s : State) : (s.setHost h).lastAddr = s.lastAddr := rfl
@[simp] theorem State.setHost_errAcc (h : List HostInput) (s : State) : (s.setHost h).errAcc = s.errAcc := rfl
@[simp] theorem State.setHost_gpio (h : List HostInput) (s : State) : (s.setHost h).gpio = s.gpio := rfl
@[simp] theorem State.setHost_inputs (h : List HostInput) (s : State) : (s.setHost h).inputs = s.inputs := rfl
@[simp] theorem State.setHost_la (h : List HostInput) (s : State) : (s.setHost h).la = s.la := rfl
@[simp] theorem State.setHost_shadow (h : List HostInput) (s : State) : (s.setHost h).shadow = s.shadow := rfl
@[simp] theorem State.setHost_acc (h : List HostInput) (s : State) : (s.setHost h).acc = s.acc := rfl
@[simp] theorem State.setHost_loop (h : List HostInput) (s : State) : (s.setHost h).loop = s.loop := rfl
@[simp] theorem State.setHost_timebase (h : List HostInput) (s : State) : (s.setHost h).timebase = s.timebase := rfl
@[simp] theorem State.setHost_params (h : List HostInput) (s : State) : (s.setHost h).params = s.params := rfl
@[simp] theorem State.setHost_chip (h : List HostInput) (s : State) : (s.setHost h).chip = s.chip := rfl
@[simp] theorem State.setHost_host (h : List HostInput) (s : State) : (s.setHost h).host = h := rfl
@[simp] theorem State.setHost_hostLog (h : List HostInput) (s : State) : (s.setHost h).hostLog = s.hostLog := rfl
@[simp] theorem State.setHost_trace (h : List HostInput) (s : State) : (s.setHost h).trace = s.trace := rfl
@[simp] theorem State.setHost_resets (h : List HostInput) (s : State) : (s.setHost h).resets = s.resets := rfl

/-! ### logRead -/

@[simp] theorem State.logRead_cmd (a : WordIndex) (s : State) : (s.logRead a).cmd = s.cmd := rfl
@[simp] theorem State.logRead_busy (a : WordIndex) (s : State) : (s.logRead a).busy = s.busy := rfl
@[simp] theorem State.logRead_done (a : WordIndex) (s : State) : (s.logRead a).done = s.done := rfl
@[simp] theorem State.logRead_fail (a : WordIndex) (s : State) : (s.logRead a).fail = s.fail := rfl
@[simp] theorem State.logRead_result (a : WordIndex) (s : State) : (s.logRead a).result = s.result := rfl
@[simp] theorem State.logRead_lastOp (a : WordIndex) (s : State) : (s.logRead a).lastOp = s.lastOp := rfl
@[simp] theorem State.logRead_pstate (a : WordIndex) (s : State) : (s.logRead a).pstate = s.pstate := rfl
@[simp] theorem State.logRead_results (a : WordIndex) (s : State) : (s.logRead a).results = s.results := rfl
@[simp] theorem State.logRead_lastAddr (a : WordIndex) (s : State) : (s.logRead a).lastAddr = s.lastAddr := rfl
@[simp] theorem State.logRead_errAcc (a : WordIndex) (s : State) : (s.logRead a).errAcc = s.errAcc := rfl
@[simp] theorem State.logRead_gpio (a : WordIndex) (s : State) : (s.logRead a).gpio = s.gpio := rfl
@[simp] theorem State.logRead_inputs (a : WordIndex) (s : State) : (s.logRead a).inputs = s.inputs := rfl
@[simp] theorem State.logRead_la (a : WordIndex) (s : State) : (s.logRead a).la = s.la := rfl
@[simp] theorem State.logRead_shadow (a : WordIndex) (s : State) : (s.logRead a).shadow = s.shadow := rfl
@[simp] theorem State.logRead_acc (a : WordIndex) (s : State) : (s.logRead a).acc = s.acc := rfl
@[simp] theorem State.logRead_loop (a : WordIndex) (s : State) : (s.logRead a).loop = s.loop := rfl
@[simp] theorem State.logRead_timebase (a : WordIndex) (s : State) : (s.logRead a).timebase = s.timebase := rfl
@[simp] theorem State.logRead_params (a : WordIndex) (s : State) : (s.logRead a).params = s.params := rfl
@[simp] theorem State.logRead_chip (a : WordIndex) (s : State) : (s.logRead a).chip = s.chip := rfl
@[simp] theorem State.logRead_host (a : WordIndex) (s : State) : (s.logRead a).host = s.host := rfl
@[simp] theorem State.logRead_hostLog (a : WordIndex) (s : State) : (s.logRead a).hostLog = s.hostLog ++ [{ a := a, v := readReg (hostRegAt a) s }] := rfl
@[simp] theorem State.logRead_trace (a : WordIndex) (s : State) : (s.logRead a).trace = s.trace := rfl
@[simp] theorem State.logRead_resets (a : WordIndex) (s : State) : (s.logRead a).resets = s.resets := rfl

/-! ### overrun -/

@[simp] theorem State.overrun_cmd (s : State) : (s.overrun).cmd = s.cmd := rfl
@[simp] theorem State.overrun_busy (s : State) : (s.overrun).busy = s.busy := rfl
@[simp] theorem State.overrun_done (s : State) : (s.overrun).done = s.done := rfl
@[simp] theorem State.overrun_fail (s : State) : (s.overrun).fail = s.fail := rfl
@[simp] theorem State.overrun_result (s : State) : (s.overrun).result = s.result := rfl
@[simp] theorem State.overrun_lastOp (s : State) : (s.overrun).lastOp = s.lastOp := rfl
@[simp] theorem State.overrun_pstate (s : State) : (s.overrun).pstate = s.pstate := rfl
@[simp] theorem State.overrun_results (s : State) : (s.overrun).results = s.results := rfl
@[simp] theorem State.overrun_lastAddr (s : State) : (s.overrun).lastAddr = s.lastAddr := rfl
@[simp] theorem State.overrun_errAcc (s : State) : (s.overrun).errAcc = { s.errAcc with ovr := true } := rfl
@[simp] theorem State.overrun_gpio (s : State) : (s.overrun).gpio = s.gpio := rfl
@[simp] theorem State.overrun_inputs (s : State) : (s.overrun).inputs = s.inputs := rfl
@[simp] theorem State.overrun_la (s : State) : (s.overrun).la = s.la := rfl
@[simp] theorem State.overrun_shadow (s : State) : (s.overrun).shadow = s.shadow := rfl
@[simp] theorem State.overrun_acc (s : State) : (s.overrun).acc = s.acc := rfl
@[simp] theorem State.overrun_loop (s : State) : (s.overrun).loop = s.loop := rfl
@[simp] theorem State.overrun_timebase (s : State) : (s.overrun).timebase = s.timebase := rfl
@[simp] theorem State.overrun_params (s : State) : (s.overrun).params = s.params := rfl
@[simp] theorem State.overrun_chip (s : State) : (s.overrun).chip = s.chip := rfl
@[simp] theorem State.overrun_host (s : State) : (s.overrun).host = s.host := rfl
@[simp] theorem State.overrun_hostLog (s : State) : (s.overrun).hostLog = s.hostLog := rfl
@[simp] theorem State.overrun_trace (s : State) : (s.overrun).trace = s.trace := rfl
@[simp] theorem State.overrun_resets (s : State) : (s.overrun).resets = s.resets := rfl

/-! ### busEvent -/

@[simp] theorem State.busEvent_cmd (e : Event) (s : State) : (s.busEvent e).cmd = s.cmd := rfl
@[simp] theorem State.busEvent_busy (e : Event) (s : State) : (s.busEvent e).busy = s.busy := rfl
@[simp] theorem State.busEvent_done (e : Event) (s : State) : (s.busEvent e).done = s.done := rfl
@[simp] theorem State.busEvent_fail (e : Event) (s : State) : (s.busEvent e).fail = s.fail := rfl
@[simp] theorem State.busEvent_result (e : Event) (s : State) : (s.busEvent e).result = s.result := rfl
@[simp] theorem State.busEvent_lastOp (e : Event) (s : State) : (s.busEvent e).lastOp = s.lastOp := rfl
@[simp] theorem State.busEvent_pstate (e : Event) (s : State) : (s.busEvent e).pstate = s.pstate := rfl
@[simp] theorem State.busEvent_results (e : Event) (s : State) : (s.busEvent e).results = s.results := rfl
@[simp] theorem State.busEvent_lastAddr (e : Event) (s : State) : (s.busEvent e).lastAddr = s.lastAddr := rfl
@[simp] theorem State.busEvent_errAcc (e : Event) (s : State) : (s.busEvent e).errAcc = s.errAcc := rfl
@[simp] theorem State.busEvent_gpio (e : Event) (s : State) : (s.busEvent e).gpio = s.gpio := rfl
@[simp] theorem State.busEvent_inputs (e : Event) (s : State) : (s.busEvent e).inputs = s.inputs := rfl
@[simp] theorem State.busEvent_la (e : Event) (s : State) : (s.busEvent e).la = s.la := rfl
@[simp] theorem State.busEvent_shadow (e : Event) (s : State) : (s.busEvent e).shadow = s.shadow := rfl
@[simp] theorem State.busEvent_acc (e : Event) (s : State) : (s.busEvent e).acc = s.acc := rfl
@[simp] theorem State.busEvent_loop (e : Event) (s : State) : (s.busEvent e).loop = s.loop := rfl
@[simp] theorem State.busEvent_timebase (e : Event) (s : State) : (s.busEvent e).timebase = s.timebase := rfl
@[simp] theorem State.busEvent_params (e : Event) (s : State) : (s.busEvent e).params = s.params := rfl
@[simp] theorem State.busEvent_chip (e : Event) (s : State) : (s.busEvent e).chip = s.chip.tail := rfl
@[simp] theorem State.busEvent_host (e : Event) (s : State) : (s.busEvent e).host = s.host := rfl
@[simp] theorem State.busEvent_hostLog (e : Event) (s : State) : (s.busEvent e).hostLog = s.hostLog := rfl
@[simp] theorem State.busEvent_trace (e : Event) (s : State) : (s.busEvent e).trace = s.trace ++ [e] := rfl
@[simp] theorem State.busEvent_resets (e : Event) (s : State) : (s.busEvent e).resets = s.resets := rfl

/-! ### delayed -/

@[simp] theorem State.delayed_cmd (p : Params) (ms : Nat) (s : State) : (s.delayed p ms).cmd = s.cmd := rfl
@[simp] theorem State.delayed_busy (p : Params) (ms : Nat) (s : State) : (s.delayed p ms).busy = s.busy := rfl
@[simp] theorem State.delayed_done (p : Params) (ms : Nat) (s : State) : (s.delayed p ms).done = s.done := rfl
@[simp] theorem State.delayed_fail (p : Params) (ms : Nat) (s : State) : (s.delayed p ms).fail = s.fail := rfl
@[simp] theorem State.delayed_result (p : Params) (ms : Nat) (s : State) : (s.delayed p ms).result = s.result := rfl
@[simp] theorem State.delayed_lastOp (p : Params) (ms : Nat) (s : State) : (s.delayed p ms).lastOp = s.lastOp := rfl
@[simp] theorem State.delayed_pstate (p : Params) (ms : Nat) (s : State) : (s.delayed p ms).pstate = s.pstate := rfl
@[simp] theorem State.delayed_results (p : Params) (ms : Nat) (s : State) : (s.delayed p ms).results = s.results := rfl
@[simp] theorem State.delayed_lastAddr (p : Params) (ms : Nat) (s : State) : (s.delayed p ms).lastAddr = s.lastAddr := rfl
@[simp] theorem State.delayed_errAcc (p : Params) (ms : Nat) (s : State) : (s.delayed p ms).errAcc = s.errAcc := rfl
@[simp] theorem State.delayed_gpio (p : Params) (ms : Nat) (s : State) : (s.delayed p ms).gpio = s.gpio := rfl
@[simp] theorem State.delayed_inputs (p : Params) (ms : Nat) (s : State) : (s.delayed p ms).inputs = s.inputs := rfl
@[simp] theorem State.delayed_la (p : Params) (ms : Nat) (s : State) : (s.delayed p ms).la = s.la := rfl
@[simp] theorem State.delayed_shadow (p : Params) (ms : Nat) (s : State) : (s.delayed p ms).shadow = s.shadow := rfl
@[simp] theorem State.delayed_acc (p : Params) (ms : Nat) (s : State) : (s.delayed p ms).acc = s.acc := rfl
@[simp] theorem State.delayed_loop (p : Params) (ms : Nat) (s : State) : (s.delayed p ms).loop = s.loop := rfl
@[simp] theorem State.delayed_timebase (p : Params) (ms : Nat) (s : State) : (s.delayed p ms).timebase = s.timebase + ms * p.CLK_PER_MS := rfl
@[simp] theorem State.delayed_params (p : Params) (ms : Nat) (s : State) : (s.delayed p ms).params = s.params := rfl
@[simp] theorem State.delayed_chip (p : Params) (ms : Nat) (s : State) : (s.delayed p ms).chip = s.chip := rfl
@[simp] theorem State.delayed_host (p : Params) (ms : Nat) (s : State) : (s.delayed p ms).host = s.host := rfl
@[simp] theorem State.delayed_hostLog (p : Params) (ms : Nat) (s : State) : (s.delayed p ms).hostLog = s.hostLog := rfl
@[simp] theorem State.delayed_trace (p : Params) (ms : Nat) (s : State) : (s.delayed p ms).trace = s.trace ++ [.d ms] := rfl
@[simp] theorem State.delayed_resets (p : Params) (ms : Nat) (s : State) : (s.delayed p ms).resets = s.resets := rfl

/-! ### pinSet -/

@[simp] theorem State.pinSet_cmd (pin : Pin) (v : Bool) (s : State) : (s.pinSet pin v).cmd = s.cmd := rfl
@[simp] theorem State.pinSet_busy (pin : Pin) (v : Bool) (s : State) : (s.pinSet pin v).busy = s.busy := rfl
@[simp] theorem State.pinSet_done (pin : Pin) (v : Bool) (s : State) : (s.pinSet pin v).done = s.done := rfl
@[simp] theorem State.pinSet_fail (pin : Pin) (v : Bool) (s : State) : (s.pinSet pin v).fail = s.fail := rfl
@[simp] theorem State.pinSet_result (pin : Pin) (v : Bool) (s : State) : (s.pinSet pin v).result = s.result := rfl
@[simp] theorem State.pinSet_lastOp (pin : Pin) (v : Bool) (s : State) : (s.pinSet pin v).lastOp = s.lastOp := rfl
@[simp] theorem State.pinSet_pstate (pin : Pin) (v : Bool) (s : State) : (s.pinSet pin v).pstate = s.pstate := rfl
@[simp] theorem State.pinSet_results (pin : Pin) (v : Bool) (s : State) : (s.pinSet pin v).results = s.results := rfl
@[simp] theorem State.pinSet_lastAddr (pin : Pin) (v : Bool) (s : State) : (s.pinSet pin v).lastAddr = s.lastAddr := rfl
@[simp] theorem State.pinSet_errAcc (pin : Pin) (v : Bool) (s : State) : (s.pinSet pin v).errAcc = s.errAcc := rfl
@[simp] theorem State.pinSet_gpio (pin : Pin) (v : Bool) (s : State) : (s.pinSet pin v).gpio = s.gpio.setPin pin v := rfl
@[simp] theorem State.pinSet_inputs (pin : Pin) (v : Bool) (s : State) : (s.pinSet pin v).inputs = s.inputs := rfl
@[simp] theorem State.pinSet_la (pin : Pin) (v : Bool) (s : State) : (s.pinSet pin v).la = s.la := rfl
@[simp] theorem State.pinSet_shadow (pin : Pin) (v : Bool) (s : State) : (s.pinSet pin v).shadow = s.shadow := rfl
@[simp] theorem State.pinSet_acc (pin : Pin) (v : Bool) (s : State) : (s.pinSet pin v).acc = s.acc := rfl
@[simp] theorem State.pinSet_loop (pin : Pin) (v : Bool) (s : State) : (s.pinSet pin v).loop = s.loop := rfl
@[simp] theorem State.pinSet_timebase (pin : Pin) (v : Bool) (s : State) : (s.pinSet pin v).timebase = s.timebase := rfl
@[simp] theorem State.pinSet_params (pin : Pin) (v : Bool) (s : State) : (s.pinSet pin v).params = s.params := rfl
@[simp] theorem State.pinSet_chip (pin : Pin) (v : Bool) (s : State) : (s.pinSet pin v).chip = s.chip := rfl
@[simp] theorem State.pinSet_host (pin : Pin) (v : Bool) (s : State) : (s.pinSet pin v).host = s.host := rfl
@[simp] theorem State.pinSet_hostLog (pin : Pin) (v : Bool) (s : State) : (s.pinSet pin v).hostLog = s.hostLog := rfl
@[simp] theorem State.pinSet_trace (pin : Pin) (v : Bool) (s : State) : (s.pinSet pin v).trace = s.trace ++ [.g pin v] := rfl
@[simp] theorem State.pinSet_resets (pin : Pin) (v : Bool) (s : State) : (s.pinSet pin v).resets = s.resets := rfl

/-! ### setPState -/

@[simp] theorem State.setPState_cmd (x : PState) (s : State) : (s.setPState x).cmd = s.cmd := rfl
@[simp] theorem State.setPState_busy (x : PState) (s : State) : (s.setPState x).busy = s.busy := rfl
@[simp] theorem State.setPState_done (x : PState) (s : State) : (s.setPState x).done = s.done := rfl
@[simp] theorem State.setPState_fail (x : PState) (s : State) : (s.setPState x).fail = s.fail := rfl
@[simp] theorem State.setPState_result (x : PState) (s : State) : (s.setPState x).result = s.result := rfl
@[simp] theorem State.setPState_lastOp (x : PState) (s : State) : (s.setPState x).lastOp = s.lastOp := rfl
@[simp] theorem State.setPState_pstate (x : PState) (s : State) : (s.setPState x).pstate = x := rfl
@[simp] theorem State.setPState_results (x : PState) (s : State) : (s.setPState x).results = s.results := rfl
@[simp] theorem State.setPState_lastAddr (x : PState) (s : State) : (s.setPState x).lastAddr = s.lastAddr := rfl
@[simp] theorem State.setPState_errAcc (x : PState) (s : State) : (s.setPState x).errAcc = s.errAcc := rfl
@[simp] theorem State.setPState_gpio (x : PState) (s : State) : (s.setPState x).gpio = s.gpio := rfl
@[simp] theorem State.setPState_inputs (x : PState) (s : State) : (s.setPState x).inputs = s.inputs := rfl
@[simp] theorem State.setPState_la (x : PState) (s : State) : (s.setPState x).la = s.la := rfl
@[simp] theorem State.setPState_shadow (x : PState) (s : State) : (s.setPState x).shadow = s.shadow := rfl
@[simp] theorem State.setPState_acc (x : PState) (s : State) : (s.setPState x).acc = s.acc := rfl
@[simp] theorem State.setPState_loop (x : PState) (s : State) : (s.setPState x).loop = s.loop := rfl
@[simp] theorem State.setPState_timebase (x : PState) (s : State) : (s.setPState x).timebase = s.timebase := rfl
@[simp] theorem State.setPState_params (x : PState) (s : State) : (s.setPState x).params = s.params := rfl
@[simp] theorem State.setPState_chip (x : PState) (s : State) : (s.setPState x).chip = s.chip := rfl
@[simp] theorem State.setPState_host (x : PState) (s : State) : (s.setPState x).host = s.host := rfl
@[simp] theorem State.setPState_hostLog (x : PState) (s : State) : (s.setPState x).hostLog = s.hostLog := rfl
@[simp] theorem State.setPState_trace (x : PState) (s : State) : (s.setPState x).trace = s.trace := rfl
@[simp] theorem State.setPState_resets (x : PState) (s : State) : (s.setPState x).resets = s.resets := rfl

/-! ### setLa -/

@[simp] theorem State.setLa_cmd (sa : Byte) (s : State) : (s.setLa sa).cmd = s.cmd := rfl
@[simp] theorem State.setLa_busy (sa : Byte) (s : State) : (s.setLa sa).busy = s.busy := rfl
@[simp] theorem State.setLa_done (sa : Byte) (s : State) : (s.setLa sa).done = s.done := rfl
@[simp] theorem State.setLa_fail (sa : Byte) (s : State) : (s.setLa sa).fail = s.fail := rfl
@[simp] theorem State.setLa_result (sa : Byte) (s : State) : (s.setLa sa).result = s.result := rfl
@[simp] theorem State.setLa_lastOp (sa : Byte) (s : State) : (s.setLa sa).lastOp = s.lastOp := rfl
@[simp] theorem State.setLa_pstate (sa : Byte) (s : State) : (s.setLa sa).pstate = s.pstate := rfl
@[simp] theorem State.setLa_results (sa : Byte) (s : State) : (s.setLa sa).results = s.results := rfl
@[simp] theorem State.setLa_lastAddr (sa : Byte) (s : State) : (s.setLa sa).lastAddr = s.lastAddr := rfl
@[simp] theorem State.setLa_errAcc (sa : Byte) (s : State) : (s.setLa sa).errAcc = s.errAcc := rfl
@[simp] theorem State.setLa_gpio (sa : Byte) (s : State) : (s.setLa sa).gpio = s.gpio := rfl
@[simp] theorem State.setLa_inputs (sa : Byte) (s : State) : (s.setLa sa).inputs = s.inputs := rfl
@[simp] theorem State.setLa_la (sa : Byte) (s : State) : (s.setLa sa).la = { valid := true, sa := sa } := rfl
@[simp] theorem State.setLa_shadow (sa : Byte) (s : State) : (s.setLa sa).shadow = s.shadow := rfl
@[simp] theorem State.setLa_acc (sa : Byte) (s : State) : (s.setLa sa).acc = s.acc := rfl
@[simp] theorem State.setLa_loop (sa : Byte) (s : State) : (s.setLa sa).loop = s.loop := rfl
@[simp] theorem State.setLa_timebase (sa : Byte) (s : State) : (s.setLa sa).timebase = s.timebase := rfl
@[simp] theorem State.setLa_params (sa : Byte) (s : State) : (s.setLa sa).params = s.params := rfl
@[simp] theorem State.setLa_chip (sa : Byte) (s : State) : (s.setLa sa).chip = s.chip := rfl
@[simp] theorem State.setLa_host (sa : Byte) (s : State) : (s.setLa sa).host = s.host := rfl
@[simp] theorem State.setLa_hostLog (sa : Byte) (s : State) : (s.setLa sa).hostLog = s.hostLog := rfl
@[simp] theorem State.setLa_trace (sa : Byte) (s : State) : (s.setLa sa).trace = s.trace := rfl
@[simp] theorem State.setLa_resets (sa : Byte) (s : State) : (s.setLa sa).resets = s.resets := rfl

/-! ### orAcc -/

@[simp] theorem State.orAcc_cmd (a : Acc) (s : State) : (s.orAcc a).cmd = s.cmd := rfl
@[simp] theorem State.orAcc_busy (a : Acc) (s : State) : (s.orAcc a).busy = s.busy := rfl
@[simp] theorem State.orAcc_done (a : Acc) (s : State) : (s.orAcc a).done = s.done := rfl
@[simp] theorem State.orAcc_fail (a : Acc) (s : State) : (s.orAcc a).fail = s.fail := rfl
@[simp] theorem State.orAcc_result (a : Acc) (s : State) : (s.orAcc a).result = s.result := rfl
@[simp] theorem State.orAcc_lastOp (a : Acc) (s : State) : (s.orAcc a).lastOp = s.lastOp := rfl
@[simp] theorem State.orAcc_pstate (a : Acc) (s : State) : (s.orAcc a).pstate = s.pstate := rfl
@[simp] theorem State.orAcc_results (a : Acc) (s : State) : (s.orAcc a).results = s.results := rfl
@[simp] theorem State.orAcc_lastAddr (a : Acc) (s : State) : (s.orAcc a).lastAddr = s.lastAddr := rfl
@[simp] theorem State.orAcc_errAcc (a : Acc) (s : State) : (s.orAcc a).errAcc = s.errAcc := rfl
@[simp] theorem State.orAcc_gpio (a : Acc) (s : State) : (s.orAcc a).gpio = s.gpio := rfl
@[simp] theorem State.orAcc_inputs (a : Acc) (s : State) : (s.orAcc a).inputs = s.inputs := rfl
@[simp] theorem State.orAcc_la (a : Acc) (s : State) : (s.orAcc a).la = s.la := rfl
@[simp] theorem State.orAcc_shadow (a : Acc) (s : State) : (s.orAcc a).shadow = s.shadow := rfl
@[simp] theorem State.orAcc_acc (a : Acc) (s : State) : (s.orAcc a).acc = s.acc.or a := rfl
@[simp] theorem State.orAcc_loop (a : Acc) (s : State) : (s.orAcc a).loop = s.loop := rfl
@[simp] theorem State.orAcc_timebase (a : Acc) (s : State) : (s.orAcc a).timebase = s.timebase := rfl
@[simp] theorem State.orAcc_params (a : Acc) (s : State) : (s.orAcc a).params = s.params := rfl
@[simp] theorem State.orAcc_chip (a : Acc) (s : State) : (s.orAcc a).chip = s.chip := rfl
@[simp] theorem State.orAcc_host (a : Acc) (s : State) : (s.orAcc a).host = s.host := rfl
@[simp] theorem State.orAcc_hostLog (a : Acc) (s : State) : (s.orAcc a).hostLog = s.hostLog := rfl
@[simp] theorem State.orAcc_trace (a : Acc) (s : State) : (s.orAcc a).trace = s.trace := rfl
@[simp] theorem State.orAcc_resets (a : Acc) (s : State) : (s.orAcc a).resets = s.resets := rfl

/-! ### setShadow -/

@[simp] theorem State.setShadow_cmd (r : Results) (s : State) : (s.setShadow r).cmd = s.cmd := rfl
@[simp] theorem State.setShadow_busy (r : Results) (s : State) : (s.setShadow r).busy = s.busy := rfl
@[simp] theorem State.setShadow_done (r : Results) (s : State) : (s.setShadow r).done = s.done := rfl
@[simp] theorem State.setShadow_fail (r : Results) (s : State) : (s.setShadow r).fail = s.fail := rfl
@[simp] theorem State.setShadow_result (r : Results) (s : State) : (s.setShadow r).result = s.result := rfl
@[simp] theorem State.setShadow_lastOp (r : Results) (s : State) : (s.setShadow r).lastOp = s.lastOp := rfl
@[simp] theorem State.setShadow_pstate (r : Results) (s : State) : (s.setShadow r).pstate = s.pstate := rfl
@[simp] theorem State.setShadow_results (r : Results) (s : State) : (s.setShadow r).results = s.results := rfl
@[simp] theorem State.setShadow_lastAddr (r : Results) (s : State) : (s.setShadow r).lastAddr = s.lastAddr := rfl
@[simp] theorem State.setShadow_errAcc (r : Results) (s : State) : (s.setShadow r).errAcc = s.errAcc := rfl
@[simp] theorem State.setShadow_gpio (r : Results) (s : State) : (s.setShadow r).gpio = s.gpio := rfl
@[simp] theorem State.setShadow_inputs (r : Results) (s : State) : (s.setShadow r).inputs = s.inputs := rfl
@[simp] theorem State.setShadow_la (r : Results) (s : State) : (s.setShadow r).la = s.la := rfl
@[simp] theorem State.setShadow_shadow (r : Results) (s : State) : (s.setShadow r).shadow = r := rfl
@[simp] theorem State.setShadow_acc (r : Results) (s : State) : (s.setShadow r).acc = s.acc := rfl
@[simp] theorem State.setShadow_loop (r : Results) (s : State) : (s.setShadow r).loop = s.loop := rfl
@[simp] theorem State.setShadow_timebase (r : Results) (s : State) : (s.setShadow r).timebase = s.timebase := rfl
@[simp] theorem State.setShadow_params (r : Results) (s : State) : (s.setShadow r).params = s.params := rfl
@[simp] theorem State.setShadow_chip (r : Results) (s : State) : (s.setShadow r).chip = s.chip := rfl
@[simp] theorem State.setShadow_host (r : Results) (s : State) : (s.setShadow r).host = s.host := rfl
@[simp] theorem State.setShadow_hostLog (r : Results) (s : State) : (s.setShadow r).hostLog = s.hostLog := rfl
@[simp] theorem State.setShadow_trace (r : Results) (s : State) : (s.setShadow r).trace = s.trace := rfl
@[simp] theorem State.setShadow_resets (r : Results) (s : State) : (s.setShadow r).resets = s.resets := rfl

/-! ### setLoop -/

@[simp] theorem State.setLoop_cmd (l : Loops) (s : State) : (s.setLoop l).cmd = s.cmd := rfl
@[simp] theorem State.setLoop_busy (l : Loops) (s : State) : (s.setLoop l).busy = s.busy := rfl
@[simp] theorem State.setLoop_done (l : Loops) (s : State) : (s.setLoop l).done = s.done := rfl
@[simp] theorem State.setLoop_fail (l : Loops) (s : State) : (s.setLoop l).fail = s.fail := rfl
@[simp] theorem State.setLoop_result (l : Loops) (s : State) : (s.setLoop l).result = s.result := rfl
@[simp] theorem State.setLoop_lastOp (l : Loops) (s : State) : (s.setLoop l).lastOp = s.lastOp := rfl
@[simp] theorem State.setLoop_pstate (l : Loops) (s : State) : (s.setLoop l).pstate = s.pstate := rfl
@[simp] theorem State.setLoop_results (l : Loops) (s : State) : (s.setLoop l).results = s.results := rfl
@[simp] theorem State.setLoop_lastAddr (l : Loops) (s : State) : (s.setLoop l).lastAddr = s.lastAddr := rfl
@[simp] theorem State.setLoop_errAcc (l : Loops) (s : State) : (s.setLoop l).errAcc = s.errAcc := rfl
@[simp] theorem State.setLoop_gpio (l : Loops) (s : State) : (s.setLoop l).gpio = s.gpio := rfl
@[simp] theorem State.setLoop_inputs (l : Loops) (s : State) : (s.setLoop l).inputs = s.inputs := rfl
@[simp] theorem State.setLoop_la (l : Loops) (s : State) : (s.setLoop l).la = s.la := rfl
@[simp] theorem State.setLoop_shadow (l : Loops) (s : State) : (s.setLoop l).shadow = s.shadow := rfl
@[simp] theorem State.setLoop_acc (l : Loops) (s : State) : (s.setLoop l).acc = s.acc := rfl
@[simp] theorem State.setLoop_loop (l : Loops) (s : State) : (s.setLoop l).loop = l := rfl
@[simp] theorem State.setLoop_timebase (l : Loops) (s : State) : (s.setLoop l).timebase = s.timebase := rfl
@[simp] theorem State.setLoop_params (l : Loops) (s : State) : (s.setLoop l).params = s.params := rfl
@[simp] theorem State.setLoop_chip (l : Loops) (s : State) : (s.setLoop l).chip = s.chip := rfl
@[simp] theorem State.setLoop_host (l : Loops) (s : State) : (s.setLoop l).host = s.host := rfl
@[simp] theorem State.setLoop_hostLog (l : Loops) (s : State) : (s.setLoop l).hostLog = s.hostLog := rfl
@[simp] theorem State.setLoop_trace (l : Loops) (s : State) : (s.setLoop l).trace = s.trace := rfl
@[simp] theorem State.setLoop_resets (l : Loops) (s : State) : (s.setLoop l).resets = s.resets := rfl

/-! ### start -/

@[simp] theorem State.start_cmd (s : State) : (s.start).cmd = s.cmd := rfl
@[simp] theorem State.start_busy (s : State) : (s.start).busy = true := rfl
@[simp] theorem State.start_done (s : State) : (s.start).done = false := rfl
@[simp] theorem State.start_fail (s : State) : (s.start).fail = s.fail := rfl
@[simp] theorem State.start_result (s : State) : (s.start).result = s.result := rfl
@[simp] theorem State.start_lastOp (s : State) : (s.start).lastOp = s.lastOp := rfl
@[simp] theorem State.start_pstate (s : State) : (s.start).pstate = s.pstate := rfl
@[simp] theorem State.start_results (s : State) : (s.start).results = s.results := rfl
@[simp] theorem State.start_lastAddr (s : State) : (s.start).lastAddr = s.lastAddr := rfl
@[simp] theorem State.start_errAcc (s : State) : (s.start).errAcc = s.errAcc := rfl
@[simp] theorem State.start_gpio (s : State) : (s.start).gpio = s.gpio := rfl
@[simp] theorem State.start_inputs (s : State) : (s.start).inputs = s.inputs := rfl
@[simp] theorem State.start_la (s : State) : (s.start).la = s.la := rfl
@[simp] theorem State.start_shadow (s : State) : (s.start).shadow = s.results := rfl
@[simp] theorem State.start_acc (s : State) : (s.start).acc = {} := rfl
@[simp] theorem State.start_loop (s : State) : (s.start).loop = {} := rfl
@[simp] theorem State.start_timebase (s : State) : (s.start).timebase = s.timebase := rfl
@[simp] theorem State.start_params (s : State) : (s.start).params = s.params := rfl
@[simp] theorem State.start_chip (s : State) : (s.start).chip = s.chip := rfl
@[simp] theorem State.start_host (s : State) : (s.start).host = s.host := rfl
@[simp] theorem State.start_hostLog (s : State) : (s.start).hostLog = s.hostLog := rfl
@[simp] theorem State.start_trace (s : State) : (s.start).trace = s.trace := rfl
@[simp] theorem State.start_resets (s : State) : (s.start).resets = s.resets := rfl

/-! ### accept -/

@[simp] theorem State.accept_cmd (w : Word) (s : State) : (s.accept w).cmd = w := rfl
@[simp] theorem State.accept_busy (w : Word) (s : State) : (s.accept w).busy = true := rfl
@[simp] theorem State.accept_done (w : Word) (s : State) : (s.accept w).done = false := rfl
@[simp] theorem State.accept_fail (w : Word) (s : State) : (s.accept w).fail = s.fail := rfl
@[simp] theorem State.accept_result (w : Word) (s : State) : (s.accept w).result = s.result := rfl
@[simp] theorem State.accept_lastOp (w : Word) (s : State) : (s.accept w).lastOp = opField w := rfl
@[simp] theorem State.accept_pstate (w : Word) (s : State) : (s.accept w).pstate = s.pstate := rfl
@[simp] theorem State.accept_results (w : Word) (s : State) : (s.accept w).results = s.results := rfl
@[simp] theorem State.accept_lastAddr (w : Word) (s : State) : (s.accept w).lastAddr = s.lastAddr := rfl
@[simp] theorem State.accept_errAcc (w : Word) (s : State) : (s.accept w).errAcc = s.errAcc := rfl
@[simp] theorem State.accept_gpio (w : Word) (s : State) : (s.accept w).gpio = s.gpio := rfl
@[simp] theorem State.accept_inputs (w : Word) (s : State) : (s.accept w).inputs = s.inputs := rfl
@[simp] theorem State.accept_la (w : Word) (s : State) : (s.accept w).la = s.la := rfl
@[simp] theorem State.accept_shadow (w : Word) (s : State) : (s.accept w).shadow = s.results := rfl
@[simp] theorem State.accept_acc (w : Word) (s : State) : (s.accept w).acc = {} := rfl
@[simp] theorem State.accept_loop (w : Word) (s : State) : (s.accept w).loop = {} := rfl
@[simp] theorem State.accept_timebase (w : Word) (s : State) : (s.accept w).timebase = s.timebase := rfl
@[simp] theorem State.accept_params (w : Word) (s : State) : (s.accept w).params = s.params := rfl
@[simp] theorem State.accept_chip (w : Word) (s : State) : (s.accept w).chip = s.chip := rfl
@[simp] theorem State.accept_host (w : Word) (s : State) : (s.accept w).host = s.host := rfl
@[simp] theorem State.accept_hostLog (w : Word) (s : State) : (s.accept w).hostLog = s.hostLog := rfl
@[simp] theorem State.accept_trace (w : Word) (s : State) : (s.accept w).trace = s.trace := rfl
@[simp] theorem State.accept_resets (w : Word) (s : State) : (s.accept w).resets = s.resets := rfl

/-! ### commit -/

@[simp] theorem State.commit_cmd (c : Code) (s : State) : (s.commit c).cmd = s.cmd := rfl
@[simp] theorem State.commit_busy (c : Code) (s : State) : (s.commit c).busy = false := rfl
@[simp] theorem State.commit_done (c : Code) (s : State) : (s.commit c).done = true := rfl
@[simp] theorem State.commit_fail (c : Code) (s : State) : (s.commit c).fail = c.fails := rfl
@[simp] theorem State.commit_result (c : Code) (s : State) : (s.commit c).result = c := rfl
@[simp] theorem State.commit_lastOp (c : Code) (s : State) : (s.commit c).lastOp = s.lastOp := rfl
@[simp] theorem State.commit_pstate (c : Code) (s : State) : (s.commit c).pstate = s.pstate := rfl
@[simp] theorem State.commit_results (c : Code) (s : State) : (s.commit c).results = s.shadow := rfl
@[simp] theorem State.commit_lastAddr (c : Code) (s : State) : (s.commit c).lastAddr = s.la := rfl
@[simp] theorem State.commit_errAcc (c : Code) (s : State) : (s.commit c).errAcc = s.errAcc.orAcc s.acc := rfl
@[simp] theorem State.commit_gpio (c : Code) (s : State) : (s.commit c).gpio = s.gpio := rfl
@[simp] theorem State.commit_inputs (c : Code) (s : State) : (s.commit c).inputs = s.inputs := rfl
@[simp] theorem State.commit_la (c : Code) (s : State) : (s.commit c).la = s.la := rfl
@[simp] theorem State.commit_shadow (c : Code) (s : State) : (s.commit c).shadow = s.shadow := rfl
@[simp] theorem State.commit_acc (c : Code) (s : State) : (s.commit c).acc = s.acc := rfl
@[simp] theorem State.commit_loop (c : Code) (s : State) : (s.commit c).loop = s.loop := rfl
@[simp] theorem State.commit_timebase (c : Code) (s : State) : (s.commit c).timebase = s.timebase := rfl
@[simp] theorem State.commit_params (c : Code) (s : State) : (s.commit c).params = s.params := rfl
@[simp] theorem State.commit_chip (c : Code) (s : State) : (s.commit c).chip = s.chip := rfl
@[simp] theorem State.commit_host (c : Code) (s : State) : (s.commit c).host = s.host := rfl
@[simp] theorem State.commit_hostLog (c : Code) (s : State) : (s.commit c).hostLog = s.hostLog := rfl
@[simp] theorem State.commit_trace (c : Code) (s : State) : (s.commit c).trace = s.trace := rfl
@[simp] theorem State.commit_resets (c : Code) (s : State) : (s.commit c).resets = s.resets := rfl

/-! ### engineReset -/

@[simp] theorem State.engineReset_cmd (s : State) : (s.engineReset).cmd = State.reset.cmd := rfl
@[simp] theorem State.engineReset_busy (s : State) : (s.engineReset).busy = State.reset.busy := rfl
@[simp] theorem State.engineReset_done (s : State) : (s.engineReset).done = State.reset.done := rfl
@[simp] theorem State.engineReset_fail (s : State) : (s.engineReset).fail = State.reset.fail := rfl
@[simp] theorem State.engineReset_result (s : State) : (s.engineReset).result = State.reset.result := rfl
@[simp] theorem State.engineReset_lastOp (s : State) : (s.engineReset).lastOp = State.reset.lastOp := rfl
@[simp] theorem State.engineReset_pstate (s : State) : (s.engineReset).pstate = State.reset.pstate := rfl
@[simp] theorem State.engineReset_results (s : State) : (s.engineReset).results = State.reset.results := rfl
@[simp] theorem State.engineReset_lastAddr (s : State) : (s.engineReset).lastAddr = State.reset.lastAddr := rfl
@[simp] theorem State.engineReset_errAcc (s : State) : (s.engineReset).errAcc = State.reset.errAcc := rfl
@[simp] theorem State.engineReset_gpio (s : State) : (s.engineReset).gpio = State.reset.gpio := rfl
@[simp] theorem State.engineReset_inputs (s : State) : (s.engineReset).inputs = State.reset.inputs := rfl
@[simp] theorem State.engineReset_la (s : State) : (s.engineReset).la = State.reset.la := rfl
@[simp] theorem State.engineReset_shadow (s : State) : (s.engineReset).shadow = State.reset.shadow := rfl
@[simp] theorem State.engineReset_acc (s : State) : (s.engineReset).acc = State.reset.acc := rfl
@[simp] theorem State.engineReset_loop (s : State) : (s.engineReset).loop = State.reset.loop := rfl
@[simp] theorem State.engineReset_timebase (s : State) : (s.engineReset).timebase = State.reset.timebase := rfl
@[simp] theorem State.engineReset_params (s : State) : (s.engineReset).params = s.params := rfl
@[simp] theorem State.engineReset_chip (s : State) : (s.engineReset).chip = s.chip := rfl
@[simp] theorem State.engineReset_host (s : State) : (s.engineReset).host = s.host := rfl
@[simp] theorem State.engineReset_hostLog (s : State) : (s.engineReset).hostLog = s.hostLog := rfl
@[simp] theorem State.engineReset_trace (s : State) : (s.engineReset).trace = s.trace := rfl
@[simp] theorem State.engineReset_resets (s : State) : (s.engineReset).resets = s.resets + 1 := rfl

/-! ### Updates in sequence -/

theorem State.setHost_host_self (s : State) : s.setHost s.host = s := rfl

@[simp] theorem State.start_accept (w : Word) (s : State) : (s.accept w).start = s.accept w := rfl

@[simp] theorem State.start_start (s : State) : s.start.start = s.start := rfl

/-! ### Pins (10_state.md R43) -/

@[simp] theorem Gpio.setPin_pnegEn (g : Gpio) (pin : Pin) (v : Bool) : (g.setPin pin v).pnegEn = g.pnegEn := by
  cases pin <;> rfl

@[simp] theorem Gpio.setPin_pwrEn (g : Gpio) (v : Bool) : (g.setPin .PWR_EN v).pwrEn = v := rfl

@[simp] theorem Gpio.setPin_rstRel (g : Gpio) (v : Bool) : (g.setPin .RST_REL v).rstRel = v := rfl

@[simp] theorem Gpio.setPin_PWR_EN_rstRel (g : Gpio) (v : Bool) : (g.setPin .PWR_EN v).rstRel = g.rstRel := rfl

@[simp] theorem Gpio.setPin_RST_REL_pwrEn (g : Gpio) (v : Bool) : (g.setPin .RST_REL v).pwrEn = g.pwrEn := rfl

/-! ### Flags (10_state.md R40) -/

@[simp] theorem Acc.or_bus (a b : Acc) : (a.or b).bus = (a.bus || b.bus) := rfl
@[simp] theorem Acc.or_wa (a b : Acc) : (a.or b).wa = (a.wa || b.wa) := rfl
@[simp] theorem Acc.or_tmo (a b : Acc) : (a.or b).tmo = (a.tmo || b.tmo) := rfl
@[simp] theorem Acc.or_echo (a b : Acc) : (a.or b).echo = (a.echo || b.echo) := rfl
@[simp] theorem Acc.or_ill (a b : Acc) : (a.or b).ill = (a.ill || b.ill) := rfl
@[simp] theorem Acc.or_pbus (a b : Acc) : (a.or b).pbus = (a.pbus || b.pbus) := rfl
@[simp] theorem ErrAcc.orAcc_bus (e : ErrAcc) (a : Acc) : (e.orAcc a).bus = (e.bus || a.bus) := rfl
@[simp] theorem ErrAcc.orAcc_wa (e : ErrAcc) (a : Acc) : (e.orAcc a).wa = (e.wa || a.wa) := rfl
@[simp] theorem ErrAcc.orAcc_tmo (e : ErrAcc) (a : Acc) : (e.orAcc a).tmo = (e.tmo || a.tmo) := rfl
@[simp] theorem ErrAcc.orAcc_echo (e : ErrAcc) (a : Acc) : (e.orAcc a).echo = (e.echo || a.echo) := rfl
@[simp] theorem ErrAcc.orAcc_ovr (e : ErrAcc) (a : Acc) : (e.orAcc a).ovr = e.ovr := rfl
@[simp] theorem ErrAcc.orAcc_ill (e : ErrAcc) (a : Acc) : (e.orAcc a).ill = (e.ill || a.ill) := rfl
@[simp] theorem ErrAcc.orAcc_pbus (e : ErrAcc) (a : Acc) : (e.orAcc a).pbus = (e.pbus || a.pbus) := rfl

/-- Reserved result codes are never produced, and only OK does not fail (60_exceptions.md R260). -/
theorem Code.fails_iff (c : Code) : c.fails = true ↔ c ≠ .ok := by cases c <;> decide

@[simp] theorem Code.fails_ok : Code.ok.fails = false := by decide

/-! ### Host writes -/

/-- A host write changes ERR_ACC, PNEG_EN or an input register, and nothing else (10_state.md R32). -/
theorem writeReg_changes (r : HostReg) (v : Word) (s : State) :
    ∃ e g i, writeReg r v s = { s with errAcc := e, gpio := { s.gpio with pnegEn := g }, inputs := i } := by
  cases r <;> exact ⟨_, _, _, rfl⟩

end Sys2Proof.Machine
end

