-- ==== Sys2Proof/Laws/Proc.lean ====
section
/-! SUPPORT. What a procedure does on a state: the monad's laws, and one lemma for each shared operation that says
everything it can do. -/

namespace Sys2Proof.Machine

variable {α β : Type}

/-! ## The monad on a state -/

@[simp] theorem bind_apply (x : Proc α) (f : α → Proc β) (s : State) :
    (x >>= f) s = match x s with
      | .ok a t => f a t
      | .error e t => .error e t := by
  show EStateM.bind x f s = _
  unfold EStateM.bind
  cases x s <;> rfl

@[simp] theorem map_apply (f : α → β) (x : Proc α) (s : State) :
    (f <$> x) s = match x s with
      | .ok a t => .ok (f a) t
      | .error e t => .error e t := by
  show EStateM.map f x s = _
  unfold EStateM.map
  cases x s <;> rfl

@[simp] theorem pure_apply (a : α) (s : State) : (pure a : Proc α) s = .ok a s := rfl

@[simp] theorem get_apply (s : State) : (get : Proc State) s = .ok s s := rfl

@[simp] theorem set_apply (t s : State) : (set t : Proc PUnit) s = .ok ⟨⟩ t := rfl

@[simp] theorem modify_apply (f : State → State) (s : State) : (modify f : Proc PUnit) s = .ok ⟨⟩ (f s) := rfl

@[simp] theorem endState_ok (a : α) (s : State) : endState (.ok a s : EStateM.Result Halt State α) = s := rfl

@[simp] theorem endState_error (e : Halt) (s : State) : endState (.error e s : EStateM.Result Halt State α) = s := rfl

@[simp] theorem raiseFlags_apply (a : Acc) (s : State) : raiseFlags a s = .ok () (s.orAcc a) := rfl

@[simp] theorem writeShadow_apply (f : Results → Results) (s : State) :
    writeShadow f s = .ok () (s.setShadow (f s.shadow)) := rfl

@[simp] theorem setRdata_apply (v : Word) (s : State) :
    setRdata v s = .ok () (s.setShadow { s.shadow with rdata := v }) := rfl

@[simp] theorem setPoll_apply (i : Nat) (s : State) :
    setPoll i s = .ok () (s.setLoop { s.loop with poll := i }) := rfl

@[simp] theorem setAttempt_apply (i : Nat) (s : State) :
    setAttempt i s = .ok () (s.setLoop { s.loop with attempt := i }) := rfl

@[simp] theorem setChunk_apply (i : Nat) (s : State) :
    setChunk i s = .ok () (s.setLoop { s.loop with chunk := i }) := rfl

@[simp] theorem endCode_apply (s : State) : endCode s = .ok s.acc.endCode s := rfl

@[simp] theorem refuse_apply (c : Code) (s : State) :
    refuse c s = .ok c ((s.orAcc { ill := true }).setShadow { s.shadow with rdata := 0 }) := rfl

/-! ## The host while a command runs -/

/-- Everything the host can do to a running command without a reset: take inputs, read, and set OVR
(10_state.md R33, R61). -/
theorem serveHost_ok {h : List HostInput} {s t : State} {u : Unit} (hr : serveHost h s = .ok u t) :
    ∃ h' l o, t = { s with host := h', hostLog := s.hostLog ++ l, errAcc := { s.errAcc with ovr := s.errAcc.ovr || o } } := by
  induction h generalizing s with
  | nil =>
    simp only [serveHost, EStateM.Result.ok.injEq, true_and] at hr
    exact ⟨[], [], false, by subst hr; simp [State.setHost]⟩
  | cons x rest ih =>
    cases x with
    | read a =>
      obtain ⟨h', l, o, rfl⟩ := ih hr
      exact ⟨h', _ :: l, o, by simp [State.logRead]; rfl⟩
    | write a v =>
      obtain ⟨h', l, o, rfl⟩ := ih hr
      exact ⟨h', l, true, by simp [State.overrun]⟩
    | reset => simp [serveHost] at hr
    | pass =>
      simp only [serveHost, EStateM.Result.ok.injEq, true_and] at hr
      exact ⟨rest, [], false, by subst hr; simp [State.setHost]⟩
    | wait =>
      simp only [serveHost, EStateM.Result.ok.injEq, true_and] at hr
      exact ⟨.wait :: rest, [], false, by subst hr; simp [State.setHost]⟩

/-- The only other thing the host can do: reset the engine, after reads and dropped writes
(70_reset_and_hazards.md R292). -/
theorem serveHost_error {h : List HostInput} {s t : State} {e : Halt} (hr : serveHost h s = .error e t) :
    HostInput.reset ∈ h ∧
    ∃ h' l, t = ({ s with host := h', hostLog := s.hostLog ++ l }).engineReset := by
  induction h generalizing s with
  | nil => simp [serveHost] at hr
  | cons x rest ih =>
    cases x with
    | read a =>
      obtain ⟨hm, h', l, rfl⟩ := ih hr
      exact ⟨by simp [hm], h', _ :: l, by simp [State.logRead, State.engineReset]; rfl⟩
    | write a v =>
      obtain ⟨hm, h', l, rfl⟩ := ih hr
      exact ⟨by simp [hm], h', l, by simp [State.overrun, State.engineReset]⟩
    | reset =>
      simp only [serveHost, EStateM.Result.error.injEq, true_and] at hr
      exact ⟨by simp, rest, [], by subst hr; simp [State.setHost, State.engineReset]⟩
    | pass => simp [serveHost] at hr
    | wait => simp [serveHost] at hr

/-- What the host leaves pending is a tail of what it had. -/
theorem serveHost_host_suffix {h : List HostInput} {s : State} : (endState (serveHost h s)).host <:+ h := by
  induction h generalizing s with
  | nil => exact List.suffix_refl _
  | cons x rest ih =>
    cases x with
    | read a => exact (ih (s := s.logRead a)).trans (List.suffix_cons _ _)
    | write a v => exact (ih (s := s.overrun)).trans (List.suffix_cons _ _)
    | reset => exact List.suffix_cons _ _
    | pass => exact List.suffix_cons _ _
    | wait => exact List.suffix_refl _

theorem hostWindow_apply (s : State) : hostWindow s = serveHost s.host s := rfl

/-- A host that leaves the command alone changes nothing. -/
@[simp] theorem hostWindow_quiet {s : State} (h : s.quiet = true) : hostWindow s = .ok () s := by
  rw [hostWindow_apply]
  unfold State.quiet at h
  split at h
  · next h0 =>
    have hs : s.setHost [] = s := by rw [← h0]; rfl
    rw [h0]
    show EStateM.Result.ok () (s.setHost []) = _
    rw [hs]
  · next rest h0 =>
    have hs : s.setHost (.wait :: rest) = s := by rw [← h0]; rfl
    rw [h0]
    show EStateM.Result.ok () (s.setHost (.wait :: rest)) = _
    rw [hs]
  · cases h

/-- When the host's next act is a reset, the command is abandoned here (70_reset_and_hazards.md R292). -/
theorem hostWindow_reset {s : State} {rest : List HostInput} (h : s.host = .reset :: rest) :
    hostWindow s = .error .reset (s.setHost rest).engineReset := by
  rw [hostWindow_apply, h]; rfl

/-! ## Primitives: everything each of them can do -/

/-- The transaction's event: the answer's `ok`, and for a read its first n bytes (00_scope.md R12, R15). -/
theorem busW_apply (sa : Byte) (bytes : List Byte) (s : State) :
    busW sa bytes s = match hostWindow s with
      | .ok _ t => .ok (t.answer (.w sa bytes)).ok (t.busEvent (.w sa bytes (t.answer (.w sa bytes)).ok))
      | .error e t => .error e t := by
  simp only [busW, bind_apply]
  cases hostWindow s <;> rfl

theorem busWR_apply (sa : Byte) (wb : List Byte) (n : Nat) (s : State) :
    busWR sa wb n s = match hostWindow s with
      | .ok _ t =>
        if (t.answer (.wr sa wb n)).ok then
          .ok (some ((t.answer (.wr sa wb n)).data.toList.take n))
            (t.busEvent (.wr sa wb n true ((t.answer (.wr sa wb n)).data.toList.take n)))
        else .ok none (t.busEvent (.wr sa wb n false []))
      | .error e t => .error e t := by
  simp only [busWR, bind_apply]
  cases hostWindow s with
  | ok u t => simp only [get_apply]; split <;> rfl
  | error e t => rfl

theorem delay_apply (p : Params) (ms : Nat) (s : State) :
    delay p ms s = match hostWindow s with
      | .ok _ t => .ok () (t.delayed p ms)
      | .error e t => .error e t := by
  simp only [delay, bind_apply]
  cases hostWindow s <;> rfl

theorem gpioSet_apply (pin : Pin) (v : Bool) (s : State) :
    gpioSet pin v s = match hostWindow s with
      | .ok _ t => .ok () (t.pinSet pin v)
      | .error e t => .error e t := by
  simp only [gpioSet, bind_apply]
  cases hostWindow s <;> rfl

theorem setPState_apply (x : PState) (s : State) :
    setPState x s = match hostWindow s with
      | .ok _ t => .ok () (t.setPState x)
      | .error e t => .error e t := by
  simp only [setPState, bind_apply]
  cases hostWindow s <;> rfl

theorem finish_apply (c : Code) (s : State) :
    finish c s = match hostWindow s with
      | .ok _ t => .ok () (t.commit c)
      | .error e t => .error e t := by
  simp only [finish, bind_apply]
  cases hostWindow s <;> rfl

/-- The workaround does nothing on the same sub-address, and one write with the memory updated first on another
(41_register_access.md R120). -/
theorem workaround_apply (p : Params) (sa : Byte) (s : State) :
    workaround p sa s =
      if s.la.valid = true ∧ s.la.sa = sa then .ok () s
      else match busW sa [waOffset p sa, Config.WA_VALUE] (s.setLa sa) with
        | .ok ok t => .ok () (if ok then t else t.orAcc { wa := true })
        | .error e t => .error e t := by
  simp only [workaround, bind_apply, get_apply]
  split
  · rfl
  · simp only [bind_apply, set_apply]
    cases busW sa [waOffset p sa, Config.WA_VALUE] (s.setLa sa) with
    | ok ok t => cases ok <;> rfl
    | error e t => rfl

/-- Running a command: its rule from the started state, then the commit (10_state.md R33). -/
theorem runCommand_next (body : Params → Proc Code) (s : State) :
    runCommand body s = .next (match body s.params.params s.start with
      | .ok c t => endState (finish c t)
      | .error _ t => t) := by
  unfold runCommand
  rw [bind_apply]
  cases body s.params.params s.start <;> rfl

/-- When the rule runs to its end and the host is quiet, the command completes with its commit. -/
theorem runCommand_commit {body : Params → Proc Code} {s t : State} {c : Code}
    (h : body s.params.params s.start = .ok c t) (hq : t.quiet = true) :
    runCommand body s = .next (t.commit c) := by
  rw [runCommand_next, h]
  simp only [finish_apply, hostWindow_quiet hq, endState_ok]

end Sys2Proof.Machine
end

