-- ==== Sys2Proof/Laws/Rel.lean ====
section
/-! SUPPORT. "Say once what a procedure can do": a property `P` of procedures that the primitives have and that sequences
keep holds of every procedure and of every command's rule (`exec_body`). Two properties come ready: `Rel R E` (a run that
ends keeps the relation `R` between its first and last state, and one that a reset abandons ends `E`-related to its first),
and `Cut` (a run depends on the host's inputs only up to the reset that abandons it). -/

namespace Sys2Proof.Machine

variable {α β : Type} {R E : State → State → Prop} {p : Params} {P : (α : Type) → Proc α → Prop}

/-! ## Properties of procedures -/

/-- What a property of procedures must meet to hold of every command's rule. -/
structure Kept (P : (α : Type) → Proc α → Prop) (p : Params) : Prop where
  pure : ∀ {α : Type} (a : α), P α (pure a)
  bind : ∀ {α β : Type} {x : Proc α} {f : α → Proc β}, P α x → (∀ a, P β (f a)) → P β (x >>= f)
  getThen : ∀ {α : Type} {f : State → Proc α}, (∀ s h, f (s.setHost h) = f s) → (∀ s, P α (f s)) → P α (get >>= f)
  window : P Unit hostWindow
  read : ∀ l, P _ (regRead p l)
  poll : ∀ l, P _ (regPoll p l)
  write : ∀ l v, P _ (regWrite p l v)
  block : ∀ l n, P _ (regReadBlock p l n)
  delayed : ∀ ms, P PUnit (modify (State.delayed p ms))
  pinSet : ∀ pin v, P PUnit (modify (State.pinSet pin v))
  pstate : ∀ x, P PUnit (modify (State.setPState x))
  flags : ∀ a, P _ (raiseFlags a)
  setPoll : ∀ i, P _ (setPoll i)
  setAttempt : ∀ i, P _ (setAttempt i)
  setChunk : ∀ i, P _ (setChunk i)
  setRdata : ∀ v, P _ (setRdata v)
  setAuxLast : ∀ v, P _ (setAuxLast v)
  dbuf : ∀ d, P _ (writeShadow fun r => { r with dbuf := d })
  setEdidBlocks : ∀ c r, P _ (setEdidBlocks c r)
  buf : ∀ k d, P _ (writeShadow fun r => { r with edidBuf := Memory.write r.edidBuf (chunkDest k) d })
  len : ∀ n, P _ (writeShadow fun r => { r with edidValidLen := n })
  setPll : ∀ c, P _ (setPll c)
  setFwInfo : ∀ v r, P _ (setFwInfo v r)

namespace Kept

variable (h : Kept P p)
include h

theorem endCode : P _ endCode := h.getThen (fun _ _ => rfl) fun _ => h.pure _

theorem refuse (c : Code) : P _ (refuse c) := h.bind (h.flags _) fun _ => h.bind (h.setRdata _) fun _ => h.pure _

theorem delay (ms : Nat) : P _ (delay p ms) := h.bind h.window fun _ => h.delayed ms

theorem gpioSet (pin : Pin) (v : Bool) : P _ (gpioSet pin v) := h.bind h.window fun _ => h.pinSet pin v

theorem setPState (x : PState) : P _ (setPState x) := h.bind h.window fun _ => h.pstate x

/-! ## Register procedures and commands -/

theorem regModify (l : Loc) (f : Byte → Byte) : P _ (regModify p l f) := by
  refine h.bind (h.read l) fun r => ?_
  cases r with
  | some v => exact h.bind (h.write l _) fun _ => h.pure _
  | none => exact h.pure _

theorem regSet (l : Loc) (m : Byte) : P _ (regSet p l m) := h.regModify l _

theorem regClr (l : Loc) (m : Byte) : P _ (regClr p l m) := h.regModify l _

theorem regWriteAll (ws : List (Loc × Byte)) : P _ (regWriteAll p ws) := by
  induction ws with
  | nil => exact h.pure _
  | cons w ws ih => exact h.bind (h.write w.1 w.2) fun _ => ih

theorem cmdNop : P _ cmdNop := h.bind (h.setRdata 0) fun _ => h.pure _

theorem cmdRegRead (sa off : Byte) : P _ (cmdRegRead p sa off) := by
  refine h.bind (h.read _) fun r => ?_
  cases r <;> exact h.bind (h.setRdata _) fun _ => h.pure _

theorem cmdRegWrite (sa off v : Byte) : P _ (cmdRegWrite p sa off v) :=
  h.bind (h.write _ _) fun _ => h.bind (h.setRdata _) fun _ => h.pure _

theorem cmdRegReadBlock (sa off len : Byte) :
    P _ (cmdRegReadBlock p sa off len) := by
  unfold Machine.cmdRegReadBlock
  split
  · refine h.bind (h.block _ _) fun r => ?_
    cases r with
    | some r => exact h.bind (h.dbuf _) fun _ => h.bind (h.setRdata _) fun _ => h.pure _
    | none => exact h.bind (h.setRdata _) fun _ => h.pure _
  · exact h.refuse _

theorem cmdRegSet (sa off m : Byte) : P _ (cmdRegSet p sa off m) :=
  h.bind (h.regSet _ _) fun _ => h.bind (h.setRdata _) fun _ => h.pure _

theorem cmdRegClr (sa off m : Byte) : P _ (cmdRegClr p sa off m) :=
  h.bind (h.regClr _ _) fun _ => h.bind (h.setRdata _) fun _ => h.pure _

/-! ## AUX -/

theorem auxReread (i : Nat) : P _ (auxReread p i) := by
  refine h.bind (h.read _) fun r => ?_
  cases r with
  | none => exact h.pure _
  | some s2 =>
    refine h.bind (h.setAuxLast s2) fun _ => ?_
    split
    · exact h.bind (h.flags _) fun _ => h.pure _
    · exact h.pure _

theorem auxPolls (n i : Nat) : P _ (auxPolls p n i) := by
  induction n generalizing i with
  | zero => exact h.bind (h.flags _) fun _ => h.pure _
  | succ n ih =>
    refine h.bind (h.setPoll i) fun _ => h.bind (h.delay _) fun _ => h.bind (h.poll _) fun r => ?_
    cases r with
    | none => exact ih _
    | some s =>
      refine h.bind (h.setAuxLast s) fun _ => ?_
      split
      · exact h.auxReread i
      · exact ih _

theorem auxWait : P _ (auxWait p) := h.auxPolls _ _

theorem auxWrite (offset : Byte) : P _ (auxWrite p offset) :=
  h.bind (h.write _ _) fun _ => h.bind (h.write _ _) fun _ => h.bind (h.regSet _ _) fun _ =>
    h.bind h.auxWait fun _ => h.pure _

theorem auxRead (cmd : Byte) : P _ (auxRead p cmd) :=
  h.bind (h.write _ _) fun _ => h.bind (h.regSet _ _) fun _ => h.bind h.auxWait fun _ => h.pure _

theorem auxAddrOnly (dev : Byte) : P _ (auxAddrOnly p dev) :=
  h.bind (h.write _ _) fun _ => h.bind (h.write _ _) fun _ => h.bind (h.write _ _) fun _ =>
    h.bind h.auxWait fun _ => h.pure _

theorem auxReset : P _ (auxReset p) := h.bind (h.regSet _ _) fun _ => h.bind (h.regClr _ _) fun _ => h.pure _

theorem auxReport (r : AuxRes × Nat) : P _ (auxReport r) := by
  refine h.getThen (fun _ _ => rfl) fun s => h.bind (h.setRdata _) fun _ => ?_
  obtain ⟨w, n⟩ := r
  cases w with
  | ok => exact h.endCode
  | echo => exact h.pure _
  | tmo => exact h.pure _
  | bus => exact h.pure _

theorem cmdAuxWrite (offset : Byte) : P _ (cmdAuxWrite p offset) := h.bind (h.auxWrite _) fun r => h.auxReport r

theorem cmdAuxRead (lenCmd : Byte) : P _ (cmdAuxRead p lenCmd) := h.bind (h.auxRead _) fun r => h.auxReport r

theorem cmdAuxReset : P _ (cmdAuxReset p) := h.bind h.auxReset fun _ => h.bind (h.setRdata _) fun _ => h.pure _

/-! ## EDID -/

theorem blockCount : P _ (blockCount p) := by
  refine h.bind (h.auxWrite _) fun _ => h.bind (h.auxRead _) fun _ => h.bind (h.read _) fun r => ?_
  cases r <;> exact h.pure _

theorem edidAttempts (offset : Byte) (n t : Nat) : P _ (edidAttempts p offset n t) := by
  induction n generalizing t with
  | zero => exact h.pure _
  | succ n ih =>
    refine h.bind (h.setAttempt t) fun _ => h.bind (h.auxWrite _) fun _ => h.bind (h.auxRead _) fun r => ?_
    obtain ⟨w, k⟩ := r
    cases w with
    | echo => exact h.bind h.auxReset fun _ => ih _
    | tmo => exact h.pure _
    | bus => exact h.pure _
    | ok =>
      refine h.bind (h.block _ _) fun b => ?_
      cases b <;> exact h.pure _

theorem edidChunk (offset : Byte) : P _ (edidChunk p offset) := h.edidAttempts _ _ _

theorem edidSegChunk (seg offset : Byte) : P _ (edidSegChunk p seg offset) := by
  refine h.bind (h.auxAddrOnly _) fun r1 => h.bind (h.auxWrite _) fun r2 => h.bind (h.write _ _) fun ok3 => ?_
  by_cases hw : (r1.1.worse r2.1).worse (if ok3 then .ok else .bus) = AuxRes.ok
  · simp only [hw, if_true]; exact h.edidChunk _
  · simp only [hw, if_false]; exact h.pure _

theorem edidInit : P _ (edidInit p) :=
  h.bind (h.write _ _) fun _ => h.bind (h.write _ _) fun _ => h.bind (h.regClr _ _) fun _ => h.pure _

theorem readChunk (k : Nat) : P _ (readChunk p k) := by
  unfold Machine.readChunk
  dsimp only
  split
  · exact h.edidChunk _
  · exact h.edidSegChunk _ _

theorem edidCollect     (size n k nOk nCopied : Nat) : P _ (edidCollect p size n k nOk nCopied) := by
  induction n generalizing k nOk nCopied with
  | zero => exact h.pure _
  | succ n ih =>
    refine h.bind (h.setChunk k) fun _ => h.bind (h.readChunk k) fun c => ?_
    split
    · exact h.pure _
    · split
      · exact h.bind (h.buf k c.data) fun _ => ih _ _ _
      · exact ih _ _ _

theorem cmdEdidReadFull
         : P _ (cmdEdidReadFull p) := by
  refine h.getThen (fun _ _ => rfl) fun s => h.bind h.edidInit fun ok => ?_
  cases ok with
  | false => exact h.bind (h.setRdata _) fun _ => h.pure _
  | true =>
    refine h.bind h.blockCount fun cr => h.bind (h.setEdidBlocks _ _) fun _ =>
      h.bind (h.edidCollect _ _ _ _ _) fun r => h.bind h.auxReset fun _ =>
      h.bind (h.len _) fun _ => h.bind (h.setRdata _) fun _ => ?_
    cases r.fail with
    | some c => exact h.pure _
    | none => exact h.endCode

theorem cmdEdidBlockCount :
    P _ (cmdEdidBlockCount p) :=
  h.bind h.blockCount fun _ => h.bind (h.setEdidBlocks _ _) fun _ => h.bind (h.setRdata _) fun _ => h.endCode

theorem chunkReport (c : Chunk) :
    P _ (chunkReport c) := by
  unfold Machine.chunkReport
  split
  · exact h.bind (h.dbuf _) fun _ => h.bind (h.setRdata _) fun _ => h.endCode
  · exact h.bind (h.setRdata _) fun _ => h.pure _

theorem cmdEdidReadChunk (offset : Byte) :
    P _ (cmdEdidReadChunk p offset) := h.bind (h.edidChunk _) fun c => h.chunkReport c

theorem cmdEdidReadSegment (segment offset : Byte) :
    P _ (cmdEdidReadSegment p segment offset) := h.bind (h.edidSegChunk _ _) fun c => h.chunkReport c

/-! ## PLL and video -/

theorem cmdPllSolve :
    P _ (cmdPllSolve p) := by
  refine h.getThen (fun _ _ => rfl) fun s => h.bind (h.setRdata _) fun _ => ?_
  cases pllSolve p s.inputs.pllClkHz.toNat with
  | none => exact h.pure _
  | some c => exact h.bind (h.setPll c) fun _ => h.pure _

theorem programLanes : P _ (programLanes p) :=
  h.bind (h.regClr _ _) fun _ => h.bind (h.regSet _ _) fun _ => h.bind (h.regSet _ _) fun _ => h.pure _

theorem programPostdiv (pd : Nat) : P _ (programPostdiv p pd) :=
  h.bind (h.write _ _) fun _ => h.bind (h.regClr _ _) fun _ => h.bind (h.regSet _ _) fun _ => h.pure _

theorem mnStrobe : P _ (mnStrobe p) :=
  h.bind (h.regClr _ _) fun _ => h.bind (h.delay _) fun _ => h.bind (h.regSet _ _) fun _ => h.pure _

theorem cmdVideoConfig :
    P _ (cmdVideoConfig p) := by
  refine h.getThen (fun _ _ => rfl) fun s => h.bind (h.setRdata _) fun _ => ?_
  cases pllSolve p (s.inputs.tPixclkKhz.toNat * 1000) with
  | none => exact h.pure _
  | some c =>
    exact h.bind (h.setPll c) fun _ => h.bind (h.regWriteAll _) fun _ => h.bind h.programLanes fun _ =>
      h.bind (h.regWriteAll _) fun _ => h.bind (h.regWriteAll _) fun _ => h.bind (h.regWriteAll _) fun _ =>
      h.bind (h.regWriteAll _) fun _ => h.bind (h.programPostdiv _) fun _ => h.bind h.mnStrobe fun _ => h.endCode

theorem cmdMnStrobe : P _ (cmdMnStrobe p) := h.bind h.mnStrobe fun _ => h.bind (h.setRdata _) fun _ => h.endCode

/-! ## Power and link -/

theorem fwReady : P _ (fwReady p) := by
  refine h.bind (h.poll _) fun r => ?_
  cases r with
  | none => exact h.pure _
  | some v =>
    dsimp only
    split
    · exact h.pure _
    · refine h.bind (h.poll _) fun ver => h.bind (h.poll _) fun rev => ?_
      cases ver <;> cases rev <;> exact h.pure _

theorem fwPolls (n k : Nat) : P _ (fwPolls p n k) := by
  induction n generalizing k with
  | zero => exact h.pure _
  | succ n ih =>
    refine h.bind (h.setPoll k) fun _ => h.bind h.fwReady fun r => ?_
    cases r with
    | some vr => exact h.pure _
    | none => exact h.bind (h.delay _) fun _ => ih _

theorem powerDown : P _ (powerDown p) :=
  h.bind (h.gpioSet _ _) fun _ => h.bind (h.gpioSet _ _) fun _ => h.bind (h.delay _) fun _ => h.setPState _

theorem powerOn : P _ (powerOn p) :=
  h.bind (h.setPState _) fun _ => h.bind (h.gpioSet _ _) fun _ => h.bind (h.delay _) fun _ =>
    h.bind (h.gpioSet _ _) fun _ => h.delay _

theorem powerAttempts
     (n a : Nat) :
    P _ (powerAttempts p n a) := by
  induction n generalizing a with
  | zero => exact h.bind (h.setRdata _) fun _ => h.pure _
  | succ n ih =>
    refine h.bind (h.setAttempt a) fun _ => h.bind (h.powerOn) fun _ => h.bind (h.fwPolls _ _) fun r => ?_
    cases r with
    | some vr =>
      exact h.bind (h.setFwInfo vr.1 vr.2) fun _ => h.bind (h.setPState _) fun _ =>
        h.bind (h.setRdata _) fun _ => h.endCode
    | none => exact h.bind (h.powerDown) fun _ => ih _

theorem cmdPowerUp
     : P _ (cmdPowerUp p) := by
  refine h.getThen (fun _ _ => rfl) fun s => ?_
  split
  · exact h.refuse _
  · exact h.powerAttempts _ _

theorem startSequence : P _ (startSequence p) :=
  h.bind (h.regClr _ _) fun _ => h.bind (h.regSet _ _) fun _ => h.bind (h.regSet _ _) fun _ => h.pure _

theorem hpdSeen (i : Nat) : P _ (hpdSeen p i) :=
  h.bind h.startSequence fun _ => h.bind (h.setPState _) fun _ => h.bind (h.setRdata _) fun _ => h.endCode

theorem hpdPolls (n i : Nat) : P _ (hpdPolls p n i) := by
  induction n generalizing i with
  | zero => exact h.bind (h.setRdata _) fun _ => h.pure _
  | succ n ih =>
    refine h.bind (h.setPoll i) fun _ => h.bind (h.delay _) fun _ => h.bind (h.poll _) fun r => ?_
    cases r with
    | none => exact ih _
    | some s =>
      dsimp only
      split
      · exact h.hpdSeen i
      · exact ih _

theorem cmdWaitHpd : P _ (cmdWaitHpd p) := by
  refine h.getThen (fun _ _ => rfl) fun s => ?_
  split
  · exact h.refuse _
  · exact h.hpdPolls _ _

theorem cmdPowerRole : P _ (cmdPowerRole p) := by
  refine h.bind (h.read _) fun r => ?_
  cases r <;> exact h.bind (h.setRdata _) fun _ => h.pure _

theorem cmdPowerOff :
    P _ (cmdPowerOff p) := by
  refine h.getThen (fun _ _ => rfl) fun s => ?_
  split
  · exact h.refuse _
  · exact h.bind (h.powerDown) fun _ => h.bind (h.setRdata _) fun _ => h.pure _

end Kept


/-- Every command is a rule run from its start to its commit, and its rule has every property that the primitives have. -/
theorem exec_body (i : Instr) :
    ∃ body : Params → Proc Code, (∀ s, exec i s = runCommand body s) ∧
      ∀ (P : (α : Type) → Proc α → Prop) (p : Params), Kept P p → P _ (body p) := by
  cases i with
  | nop => exact ⟨fun _ => cmdNop, fun _ => rfl, fun _ _ h => h.cmdNop⟩
  | regRead sa off => exact ⟨fun p => cmdRegRead p sa off, fun _ => rfl, fun _ _ h => h.cmdRegRead sa off⟩
  | regWrite sa off v => exact ⟨fun p => cmdRegWrite p sa off v, fun _ => rfl, fun _ _ h => h.cmdRegWrite sa off v⟩
  | regReadBlock sa off len =>
    exact ⟨fun p => cmdRegReadBlock p sa off len, fun _ => rfl, fun _ _ h => h.cmdRegReadBlock sa off len⟩
  | regSet sa off m => exact ⟨fun p => cmdRegSet p sa off m, fun _ => rfl, fun _ _ h => h.cmdRegSet sa off m⟩
  | regClr sa off m => exact ⟨fun p => cmdRegClr p sa off m, fun _ => rfl, fun _ _ h => h.cmdRegClr sa off m⟩
  | auxWrite o => exact ⟨fun p => cmdAuxWrite p o, fun _ => rfl, fun _ _ h => h.cmdAuxWrite o⟩
  | auxRead c => exact ⟨fun p => cmdAuxRead p c, fun _ => rfl, fun _ _ h => h.cmdAuxRead c⟩
  | auxReset => exact ⟨cmdAuxReset, fun _ => rfl, fun _ _ h => h.cmdAuxReset⟩
  | edidBlockCount => exact ⟨cmdEdidBlockCount, fun _ => rfl, fun _ _ h => h.cmdEdidBlockCount⟩
  | edidReadChunk o => exact ⟨fun p => cmdEdidReadChunk p o, fun _ => rfl, fun _ _ h => h.cmdEdidReadChunk o⟩
  | edidReadSegment g o =>
    exact ⟨fun p => cmdEdidReadSegment p g o, fun _ => rfl, fun _ _ h => h.cmdEdidReadSegment g o⟩
  | edidReadFull => exact ⟨cmdEdidReadFull, fun _ => rfl, fun _ _ h => h.cmdEdidReadFull⟩
  | pllSolve => exact ⟨cmdPllSolve, fun _ => rfl, fun _ _ h => h.cmdPllSolve⟩
  | videoConfig => exact ⟨cmdVideoConfig, fun _ => rfl, fun _ _ h => h.cmdVideoConfig⟩
  | mnStrobe => exact ⟨cmdMnStrobe, fun _ => rfl, fun _ _ h => h.cmdMnStrobe⟩
  | powerUp => exact ⟨cmdPowerUp, fun _ => rfl, fun _ _ h => h.cmdPowerUp⟩
  | waitHpd => exact ⟨cmdWaitHpd, fun _ => rfl, fun _ _ h => h.cmdWaitHpd⟩
  | powerRole => exact ⟨cmdPowerRole, fun _ => rfl, fun _ _ h => h.cmdPowerRole⟩
  | powerOff => exact ⟨cmdPowerOff, fun _ => rfl, fun _ _ h => h.cmdPowerOff⟩

/-! ## Relations between the first and the last state -/

/-- A run that ends leaves a state `R`-related to its first; one that a reset abandons, a state `E`-related to it. -/
def Rel (R E : State → State → Prop) (α : Type) (x : Proc α) : Prop :=
  ∀ s, match x s with
    | .ok _ t => R s t
    | .error _ t => E s t

/-- What makes `Rel R E` a property of procedures: `R` composes, `E` may follow `R`, and the primitives keep them. -/
structure Relates (R E : State → State → Prop) (p : Params) : Prop where
  refl : ∀ s, R s s
  trans : ∀ a b c, R a b → R b c → R a c
  transE : ∀ a b c, R a b → E b c → E a c
  window : Rel R E _ hostWindow
  bus : ∀ e s, R s (s.busEvent e)
  la : ∀ sa s, R s (s.setLa sa)
  delayed : ∀ ms s, R s (s.delayed p ms)
  pin : ∀ pin v s, R s (s.pinSet pin v)
  pstate : ∀ x s, R s (s.setPState x)
  flags : ∀ a s, R s (s.orAcc a)
  loop : ∀ l s, R s (s.setLoop l)
  shadow : ∀ r s, R s (s.setShadow r)

theorem rel_bind (ht : ∀ a b c, R a b → R b c → R a c) (he : ∀ a b c, R a b → E b c → E a c) {x : Proc α}
    {f : α → Proc β} (hx : Rel R E _ x) (hf : ∀ a, Rel R E _ (f a)) : Rel R E _ (x >>= f) := by
  intro s
  have h := hx s
  rw [bind_apply]
  cases hxs : x s with
  | error e t => rw [hxs] at h; exact h
  | ok a t =>
    rw [hxs] at h
    have h2 := hf a t
    show match f a t with
      | .ok _ u => R s u
      | .error _ u => E s u
    cases hft : f a t with
    | ok b u => rw [hft] at h2; exact ht _ _ _ h h2
    | error e u => rw [hft] at h2; exact he _ _ _ h h2

namespace Relates

variable (h : Relates R E p)
include h

theorem afterWindow {x : Proc α} {f : State → State} {g : State → α}
    (hx : ∀ s, x s = match hostWindow s with
      | .ok _ t => .ok (g t) (f t)
      | .error e t => .error e t) (hf : ∀ s, R s (f s)) : Rel R E _ x := by
  intro s
  have hw := h.window s
  rw [hx]
  cases hs : hostWindow s with
  | ok u t => rw [hs] at hw; exact h.trans _ _ _ hw (hf t)
  | error e t => rw [hs] at hw; exact hw

theorem busW (sa : Byte) (bytes : List Byte) : Rel R E _ (busW sa bytes) :=
  h.afterWindow (fun s => busW_apply sa bytes s) fun _ => h.bus _ _

theorem busWR (sa : Byte) (wb : List Byte) (n : Nat) : Rel R E _ (busWR sa wb n) := by
  refine h.afterWindow (g := fun t => if (t.answer (.wr sa wb n)).ok then
      some ((t.answer (.wr sa wb n)).data.toList.take n) else none)
    (f := fun t => if (t.answer (.wr sa wb n)).ok then
      t.busEvent (.wr sa wb n true ((t.answer (.wr sa wb n)).data.toList.take n)) else t.busEvent (.wr sa wb n false []))
    (fun s => ?_) fun s => ?_
  · rw [busWR_apply]
    cases hostWindow s with
    | ok u t => simp only; split <;> rfl
    | error e t => rfl
  · by_cases ho : (s.answer (.wr sa wb n)).ok = true
    · simp only [ho, if_true]; exact h.bus _ _
    · simp only [ho]; exact h.bus _ _

theorem workaround (sa : Byte) : Rel R E _ (workaround p sa) := by
  intro s
  rw [workaround_apply]
  by_cases hl : s.la.valid = true ∧ s.la.sa = sa
  · rw [if_pos hl]; exact h.refl s
  · rw [if_neg hl]
    have hb := h.busW sa [waOffset p sa, Config.WA_VALUE] (s.setLa sa)
    cases hs : Machine.busW sa [waOffset p sa, Config.WA_VALUE] (s.setLa sa) with
    | ok ok t =>
      rw [hs] at hb
      cases ok
      · exact h.trans _ _ _ (h.la sa s) (h.trans _ _ _ hb (h.flags _ t))
      · exact h.trans _ _ _ (h.la sa s) hb
    | error e t => rw [hs] at hb; exact h.transE _ _ _ (h.la sa s) hb

/-- A relation that the primitives keep is kept by every command's rule. -/
theorem kept : Kept (Rel R E) p where
  pure _ := h.refl
  bind := rel_bind h.trans h.transE
  getThen _ hf := rel_bind h.trans h.transE (x := get) (fun s => h.refl s) hf
  window := h.window
  read l := by
    refine rel_bind h.trans h.transE (h.workaround l.sa) fun _ => rel_bind h.trans h.transE (h.busWR _ _ _) fun r => ?_
    cases r with
    | some r => exact h.refl
    | none => exact rel_bind h.trans h.transE (x := raiseFlags _) (h.flags _) fun _ => h.refl
  poll l := by
    refine rel_bind h.trans h.transE (h.workaround l.sa) fun _ => rel_bind h.trans h.transE (h.busWR _ _ _) fun r => ?_
    cases r with
    | some r => exact h.refl
    | none => exact rel_bind h.trans h.transE (x := raiseFlags _) (h.flags _) fun _ => h.refl
  block l n := by
    refine rel_bind h.trans h.transE (h.workaround l.sa) fun _ => rel_bind h.trans h.transE (h.busWR _ _ _) fun r => ?_
    cases r with
    | some r => exact h.refl
    | none => exact rel_bind h.trans h.transE (x := raiseFlags _) (h.flags _) fun _ => h.refl
  write l v := by
    refine rel_bind h.trans h.transE (h.workaround l.sa) fun _ => rel_bind h.trans h.transE (h.busW _ _) fun ok => ?_
    cases ok with
    | true => exact h.refl
    | false => exact rel_bind h.trans h.transE (x := raiseFlags _) (h.flags _) fun _ => h.refl
  delayed := h.delayed
  pinSet := h.pin
  pstate := h.pstate
  flags := h.flags
  setPoll _ s := h.loop _ s
  setAttempt _ s := h.loop _ s
  setChunk _ s := h.loop _ s
  setRdata _ s := h.shadow _ s
  setAuxLast _ s := h.shadow _ s
  dbuf _ s := h.shadow _ s
  setEdidBlocks _ _ s := h.shadow _ s
  buf _ _ s := h.shadow _ s
  len _ s := h.shadow _ s
  setPll _ s := h.shadow _ s
  setFwInfo _ _ s := h.shadow _ s

end Relates

/-- What a command did, by relations that its primitives keep: it committed after a related run, or was abandoned. -/
theorem exec_relates (h : ∀ p, Relates R E p) {i : Instr} {s t : State} (he : exec i s = .next t) :
    (∃ c u, R s.start u ∧ t = u.commit c) ∨ E s.start t := by
  obtain ⟨body, hrun, hbody⟩ := exec_body i
  have hk := h s.params.params
  have hb := hbody _ _ hk.kept s.start
  rw [hrun, runCommand_next] at he
  cases he
  cases hx : body s.params.params s.start with
  | error e u => rw [hx] at hb; exact .inr hb
  | ok c u =>
    rw [hx] at hb
    have hw := hk.window u
    simp only [finish_apply]
    cases hu : hostWindow u with
    | ok _ v => rw [hu] at hw; exact .inl ⟨c, v, hk.trans _ _ _ hb hw, rfl⟩
    | error e v => rw [hu] at hw; exact .inr (hk.transE _ _ _ hb hw)

/-! ## Resets among the pending inputs -/

/-- `s` with a reset and more inputs behind what the host has pending. -/
def State.resetAfter (s : State) (post : List HostInput) : State := s.setHost (s.host ++ .reset :: post)

/-- A run on a host without a reset ends; and with a reset behind its inputs the same run is either abandoned or ends
the same, the reset still pending. -/
def Cut (α : Type) (x : Proc α) : Prop :=
  ∀ (s : State) (post : List HostInput), HostInput.reset ∉ s.host →
    ∃ a t, x s = .ok a t ∧ HostInput.reset ∉ t.host ∧
      (x (s.resetAfter post) = .ok a (t.resetAfter post) ∨ ∃ e, ∃ v : State, x (s.resetAfter post) = .error e v.engineReset)

theorem cut_modify {f : State → State} (hh : ∀ s, (f s).host = s.host)
    (hf : ∀ s h, f (s.setHost h) = (f s).setHost h) : Cut PUnit (modify f) := by
  intro s post hn
  refine ⟨⟨⟩, f s, rfl, by rw [hh]; exact hn, .inl ?_⟩
  rw [modify_apply, State.resetAfter, hf, State.resetAfter, hh]

theorem cut_bind {x : Proc α} {f : α → Proc β} (hx : Cut α x) (hf : ∀ a, Cut β (f a)) : Cut β (x >>= f) := by
  intro s post hn
  obtain ⟨a, t, h1, h2, h3⟩ := hx s post hn
  obtain ⟨b, u, g1, g2, g3⟩ := hf a t post h2
  refine ⟨b, u, by rw [bind_apply, h1]; exact g1, g2, ?_⟩
  rw [bind_apply]
  rcases h3 with h3 | ⟨e, v, h3⟩ <;> rw [h3]
  · exact g3
  · exact .inr ⟨e, v, rfl⟩

theorem cut_window : Cut Unit hostWindow := by
  intro s post hn
  have key : ∀ (h : List HostInput) (s : State), HostInput.reset ∉ h →
      ∃ t, serveHost h s = .ok () t ∧ HostInput.reset ∉ t.host ∧ ∀ k,
        (serveHost (h ++ .reset :: post) (s.setHost k) = .ok () (t.resetAfter post) ∨
          ∃ e, ∃ v : State, serveHost (h ++ .reset :: post) (s.setHost k) = .error e v.engineReset) := by
    intro h
    induction h with
    | nil => exact fun s _ => ⟨_, rfl, by simp, fun k => .inr ⟨_, _, rfl⟩⟩
    | cons i h ih =>
      intro s hn
      have hr : HostInput.reset ∉ h := fun hm => hn (List.mem_cons_of_mem _ hm)
      cases i with
      | pass => exact ⟨_, rfl, hr, fun k => .inl rfl⟩
      | wait => exact ⟨_, rfl, hn, fun k => .inl rfl⟩
      | reset => simp at hn
      | read a =>
        obtain ⟨t, h1, h2, h3⟩ := ih (s.logRead a) hr
        exact ⟨t, h1, h2, h3⟩
      | write a v =>
        obtain ⟨t, h1, h2, h3⟩ := ih s.overrun hr
        exact ⟨t, h1, h2, h3⟩
  obtain ⟨t, h1, h2, h3⟩ := key s.host s hn
  exact ⟨(), t, h1, h2, h3 (s.host ++ .reset :: post)⟩

theorem State.answer_setHost (s : State) (h : List HostInput) (r : BusRequest) :
    (s.setHost h).answer r = s.answer r := rfl

theorem cut_busW (sa : Byte) (bytes : List Byte) : Cut _ (busW sa bytes) := by
  intro s post hn
  obtain ⟨_, t, h1, h2, h3⟩ := cut_window s post hn
  refine ⟨(t.answer (.w sa bytes)).ok, t.busEvent (.w sa bytes (t.answer (.w sa bytes)).ok), by rw [busW_apply, h1], h2, ?_⟩
  rw [busW_apply]
  rcases h3 with h3 | ⟨e, v, h3⟩ <;> rw [h3]
  · exact .inl rfl
  · exact .inr ⟨_, _, rfl⟩

theorem cut_busWR (sa : Byte) (wb : List Byte) (n : Nat) : Cut _ (busWR sa wb n) := by
  intro s post hn
  obtain ⟨_, t, h1, h2, h3⟩ := cut_window s post hn
  rw [busWR_apply, h1]
  by_cases ho : (t.answer (.wr sa wb n)).ok = true
  · refine ⟨_, _, if_pos ho, h2, ?_⟩
    rw [busWR_apply]
    rcases h3 with h3 | ⟨e, v, h3⟩ <;> rw [h3]
    · exact .inl (if_pos ho)
    · exact .inr ⟨_, _, rfl⟩
  · refine ⟨_, _, if_neg ho, h2, ?_⟩
    rw [busWR_apply]
    rcases h3 with h3 | ⟨e, v, h3⟩ <;> rw [h3]
    · exact .inl (if_neg ho)
    · exact .inr ⟨_, _, rfl⟩

theorem cut_pure (a : α) : Cut α (pure a) := fun s _ hn => ⟨a, s, rfl, hn, .inl rfl⟩

theorem cut_flags (a : Acc) : Cut _ (raiseFlags a) := cut_modify (fun _ => rfl) fun _ _ => rfl

theorem cut_workaround (sa : Byte) : Cut _ (workaround p sa) := by
  intro s post hn
  by_cases hl : s.la.valid = true ∧ s.la.sa = sa
  · exact ⟨(), s, by rw [workaround_apply, if_pos hl], hn, .inl (by rw [workaround_apply]; exact if_pos hl)⟩
  · obtain ⟨ok, t, h1, h2, h3⟩ := cut_busW sa [waOffset p sa, Config.WA_VALUE] (s.setLa sa) post hn
    refine ⟨(), if ok then t else t.orAcc { wa := true }, by rw [workaround_apply, if_neg hl, h1], ?_, ?_⟩
    · cases ok <;> exact h2
    · rw [workaround_apply, if_neg (show ¬((s.resetAfter post).la.valid = true ∧ (s.resetAfter post).la.sa = sa) from hl)]
      rcases h3 with h3 | ⟨e, v, h3⟩
      · left
        rw [show (s.resetAfter post).setLa sa = (s.setLa sa).resetAfter post from rfl, h3]
        cases ok <;> rfl
      · right
        rw [show (s.resetAfter post).setLa sa = (s.setLa sa).resetAfter post from rfl, h3]
        exact ⟨e, v, rfl⟩

theorem cut_kept : Kept Cut p where
  pure := cut_pure
  bind := cut_bind
  getThen {α f} hi hf := by
    intro s post hn
    obtain ⟨a, t, h1, h2, h3⟩ := hf s s post hn
    refine ⟨a, t, h1, h2, ?_⟩
    have hf' : f (s.resetAfter post) = f s := hi s _
    show f (s.resetAfter post) (s.resetAfter post) = _ ∨ ∃ e, ∃ v : State, f (s.resetAfter post) (s.resetAfter post) = _
    rw [hf']
    exact h3
  window := cut_window
  read l := by
    refine cut_bind (cut_workaround l.sa) fun _ => cut_bind (cut_busWR _ _ _) fun r => ?_
    cases r with
    | some r => exact cut_pure _
    | none => exact cut_bind (cut_flags _) fun _ => cut_pure _
  poll l := by
    refine cut_bind (cut_workaround l.sa) fun _ => cut_bind (cut_busWR _ _ _) fun r => ?_
    cases r with
    | some r => exact cut_pure _
    | none => exact cut_bind (cut_flags _) fun _ => cut_pure _
  block l n := by
    refine cut_bind (cut_workaround l.sa) fun _ => cut_bind (cut_busWR _ _ _) fun r => ?_
    cases r with
    | some r => exact cut_pure _
    | none => exact cut_bind (cut_flags _) fun _ => cut_pure _
  write l v := by
    refine cut_bind (cut_workaround l.sa) fun _ => cut_bind (cut_busW _ _) fun ok => ?_
    cases ok with
    | true => exact cut_pure _
    | false => exact cut_bind (cut_flags _) fun _ => cut_pure _
  delayed _ := cut_modify (fun _ => rfl) fun _ _ => rfl
  pinSet _ _ := cut_modify (fun _ => rfl) fun _ _ => rfl
  pstate _ := cut_modify (fun _ => rfl) fun _ _ => rfl
  flags := cut_flags
  setPoll _ := cut_modify (fun _ => rfl) fun _ _ => rfl
  setAttempt _ := cut_modify (fun _ => rfl) fun _ _ => rfl
  setChunk _ := cut_modify (fun _ => rfl) fun _ _ => rfl
  setRdata _ := cut_modify (fun _ => rfl) fun _ _ => rfl
  setAuxLast _ := cut_modify (fun _ => rfl) fun _ _ => rfl
  dbuf _ := cut_modify (fun _ => rfl) fun _ _ => rfl
  setEdidBlocks _ _ := cut_modify (fun _ => rfl) fun _ _ => rfl
  buf _ _ := cut_modify (fun _ => rfl) fun _ _ => rfl
  len _ := cut_modify (fun _ => rfl) fun _ _ => rfl
  setPll _ := cut_modify (fun _ => rfl) fun _ _ => rfl
  setFwInfo _ _ := cut_modify (fun _ => rfl) fun _ _ => rfl

/-- A reset behind the host's pending inputs abandons the command, or leaves it as it is without one
(70_reset_and_hazards.md R292). -/
theorem exec_resetAfter (i : Instr) {s : State} (hn : HostInput.reset ∉ s.host) (post : List HostInput) :
    (∃ t, exec i s = .next t ∧ HostInput.reset ∉ t.host ∧ exec i (s.resetAfter post) = .next (t.resetAfter post)) ∨
      ∃ v : State, exec i (s.resetAfter post) = .next v.engineReset := by
  obtain ⟨body, hrun, hbody⟩ := exec_body i
  have hb : Cut _ (body s.params.params >>= finish) :=
    cut_bind (hbody _ _ cut_kept) fun _ => cut_bind cut_window fun _ => cut_modify (fun _ => rfl) fun _ _ => rfl
  obtain ⟨a, t, h1, h2, h3⟩ := hb s.start post hn
  rcases h3 with h3 | ⟨e, v, h3⟩
  · refine .inl ⟨t, ?_, h2, ?_⟩
    · rw [hrun]; exact congrArg (fun r => Host.Outcome.next (endState r)) h1
    · rw [hrun]; exact congrArg (fun r => Host.Outcome.next (endState r)) h3
  · refine .inr ⟨v, ?_⟩
    rw [hrun]; exact congrArg (fun r => Host.Outcome.next (endState r)) h3

end Sys2Proof.Machine
end

