-- ==== Sys2Proof/Laws/Run.lean ====
section
/-! SUPPORT. What a procedure did to a running command's state, as an effect: `Did u e r st v` says that the engine went
from `u` to `v` by the events and flags of `e`, with shadow `r` and power state `st`, while the host took what it had
pending. One lemma for each procedure says which effect it has; effects compose by `Effect.seq`. -/

namespace Sys2Proof.Machine

/-- The state a running command reaches from `u` with effect `e`, shadow `r` and power state `st`. -/
def State.ran (u : State) (x : Side) (e : Effect) (r : Results) (st : PState) : State :=
  let evs := weave u.params.params u.la e.acts
  { u with
    pstate := st
    shadow := r
    la := weaveLa u.la e.acts
    acc := u.acc.or (e.acc.or { wa := weaveWa u.la e.acts })
    errAcc := { u.errAcc with ovr := u.errAcc.ovr || x.ovr }
    gpio := u.gpio.after evs
    timebase := u.timebase + delayMs evs * u.params.params.CLK_PER_MS
    trace := u.trace ++ evs
    chip := u.chip.drop (busCount evs)
    loop := x.loop
    host := x.left
    hostLog := u.hostLog ++ x.reads }

/-- A running command went from `u` to `v` by effect `e`. -/
def Did (u : State) (e : Effect) (r : Results) (st : PState) (v : State) : Prop :=
  ∃ x : Side, x.takenFrom u ∧ v = u.ran x e r st

/-! ## Flags and events compose -/

theorem Acc.or_assoc (a b c : Acc) : (a.or b).or c = a.or (b.or c) := by simp [Acc.or, Bool.or_assoc]

theorem Acc.or_comm (a b : Acc) : a.or b = b.or a := by simp [Acc.or, Bool.or_comm]

theorem Acc.or_left_comm (a b c : Acc) : a.or (b.or c) = b.or (a.or c) := by
  rw [← Acc.or_assoc, Acc.or_comm a b, Acc.or_assoc]

@[simp] theorem Acc.or_none (a : Acc) : a.or {} = a := by simp [Acc.or]

@[simp] theorem Acc.none_or (a : Acc) : Acc.or {} a = a := by simp [Acc.or]

@[simp] theorem Effect.seq_acts (a b : Effect) : (a.seq b).acts = a.acts ++ b.acts := rfl
@[simp] theorem Effect.seq_acc (a b : Effect) : (a.seq b).acc = a.acc.or b.acc := rfl
@[simp] theorem Effect.seq_last (a b : Effect) : (a.seq b).last = b.last.or a.last := rfl

theorem Effect.ext_iff' {a b : Effect} : a = b ↔ a.acts = b.acts ∧ a.acc = b.acc ∧ a.last = b.last := by
  cases a; cases b; simp

theorem Effect.seq_assoc (a b c : Effect) : (a.seq b).seq c = a.seq (b.seq c) := by
  simp [Effect.ext_iff', Acc.or_assoc, Option.or_assoc]

@[simp] theorem Effect.seq_nil (a : Effect) : a.seq {} = a := by simp [Effect.ext_iff']

@[simp] theorem Effect.nil_seq (a : Effect) : Effect.seq {} a = a := by simp [Effect.ext_iff']

theorem weave_append (p : Params) (la : LastAddr) (a b : List Act) :
    weave p la (a ++ b) = weave p la a ++ weave p (weaveLa la a) b := by
  induction a generalizing la with
  | nil => rfl
  | cons x a ih =>
    simp only [List.cons_append, weave, weaveLa]
    split <;> simp [ih]

theorem weaveLa_append (la : LastAddr) (a b : List Act) : weaveLa la (a ++ b) = weaveLa (weaveLa la a) b := by
  induction a generalizing la with
  | nil => rfl
  | cons x a ih =>
    simp only [List.cons_append, weaveLa]
    split <;> exact ih _

theorem weaveWa_append (la : LastAddr) (a b : List Act) :
    weaveWa la (a ++ b) = (weaveWa la a || weaveWa (weaveLa la a) b) := by
  induction a generalizing la with
  | nil => rfl
  | cons x a ih =>
    simp only [List.cons_append, weaveWa, weaveLa]
    split <;> simp [ih, Bool.or_assoc]

theorem delayMs_append (a b : List Event) : delayMs (a ++ b) = delayMs a + delayMs b := by
  induction a with
  | nil => simp [delayMs]
  | cons x a ih => cases x <;> simp [delayMs, ih, Nat.add_assoc]

@[simp] theorem busCount_nil : busCount [] = 0 := rfl
@[simp] theorem busCount_w (sa : Byte) (bs : List Byte) (ok : Bool) (es : List Event) :
    busCount (.w sa bs ok :: es) = busCount es + 1 := rfl
@[simp] theorem busCount_wr (sa : Byte) (bs : List Byte) (n : Nat) (ok : Bool) (rs : List Byte) (es : List Event) :
    busCount (.wr sa bs n ok rs :: es) = busCount es + 1 := rfl
@[simp] theorem busCount_d (ms : Nat) (es : List Event) : busCount (.d ms :: es) = busCount es := rfl
@[simp] theorem busCount_g (pin : Pin) (v : Bool) (es : List Event) : busCount (.g pin v :: es) = busCount es := rfl

theorem busCount_append (a b : List Event) : busCount (a ++ b) = busCount a + busCount b := by
  simp only [busCount, List.filterMap_append, List.length_append]

theorem Gpio.after_append (g : Gpio) (a b : List Event) : g.after (a ++ b) = (g.after a).after b := by
  induction a generalizing g with
  | nil => rfl
  | cons x a ih => cases x <;> simp [Gpio.after, ih]

/-! ## Composition of runs -/

/-- A command whose host holds no reset: what every lemma below asks of a state. -/
structure Ready (p : Params) (u : State) : Prop where
  params : u.params.params = p
  noReset : HostInput.reset ∉ u.host

theorem Ready.ofNoReset {s : State} (h : s.noReset = true) : Ready s.params.params s :=
  ⟨rfl, by simpa [State.noReset] using h⟩

theorem Ready.start {p : Params} {s : State} (h : Ready p s) : Ready p s.start := ⟨h.params, h.noReset⟩

theorem Ready.setShadow {p : Params} {s : State} (h : Ready p s) (r : Results) : Ready p (s.setShadow r) :=
  ⟨h.params, h.noReset⟩

theorem Ready.setLoop {p : Params} {s : State} (h : Ready p s) (l : Loops) : Ready p (s.setLoop l) :=
  ⟨h.params, h.noReset⟩

theorem Did.refl (u : State) : Did u {} u.shadow u.pstate u :=
  ⟨{ left := u.host, reads := [], ovr := false, loop := u.loop }, ⟨[], by simp⟩,
    by simp [State.ran, weave, weaveLa, weaveWa, delayMs, Gpio.after]⟩

theorem State.quiet_of_host {u v : State} (h : v.host = u.host) : v.quiet = u.quiet := by
  simp only [State.quiet, h]

theorem Did.trans {u v w : State} {e e' : Effect} {r r' : Results} {st st' : PState} (h : Did u e r st v)
    (h' : Did v e' r' st' w) : Did u (e.seq e') r' st' w := by
  obtain ⟨x, ⟨tk, h1, h2, h3, h4, h5⟩, rfl⟩ := h
  obtain ⟨x', ⟨tk', h1', h2', h3', h4', h5'⟩, rfl⟩ := h'
  refine ⟨{ left := x'.left, reads := x.reads ++ x'.reads, ovr := x.ovr || x'.ovr, loop := x'.loop },
    ⟨tk ++ tk', ?_, ?_, ?_, ?_, ?_⟩, ?_⟩
  · rw [h1, List.append_assoc, ← h1']; rfl
  · simp [h2, h2']
  · simp [h3, h3']
  · simp [h4, h4']
  · intro hq
    have ht := h5 hq
    subst ht
    have hv : (u.ran x e r st).host = u.host := by rw [h1]; rfl
    rw [h5' (by rw [State.quiet_of_host hv]; exact hq)]
    rfl
  · simp [State.ran, weave_append, weaveLa_append, weaveWa_append, delayMs_append, busCount_append,
      Gpio.after_append, Nat.add_mul, Nat.add_assoc, Bool.or_assoc, Acc.or, Bool.or_left_comm]

theorem Did.ready {u v : State} {p : Params} {e : Effect} {r : Results} {st : PState} (h : Did u e r st v)
    (hu : Ready p u) : Ready p v := by
  obtain ⟨x, ⟨tk, h1, _⟩, rfl⟩ := h
  refine ⟨hu.params, fun hm => hu.noReset ?_⟩
  rw [h1]
  exact List.mem_append_right _ hm

theorem Did.shadow {u v : State} {e : Effect} {r : Results} {st : PState} (h : Did u e r st v) : v.shadow = r := by
  obtain ⟨x, _, rfl⟩ := h; rfl

theorem Did.pstate {u v : State} {e : Effect} {r : Results} {st : PState} (h : Did u e r st v) : v.pstate = st := by
  obtain ⟨x, _, rfl⟩ := h; rfl

theorem Did.inputs {u v : State} {e : Effect} {r : Results} {st : PState} (h : Did u e r st v) :
    v.inputs = u.inputs := by
  obtain ⟨x, _, rfl⟩ := h; rfl

theorem Did.acc {u v : State} {e : Effect} {r : Results} {st : PState} (h : Did u e r st v) :
    v.acc.bus = (u.acc.bus || e.acc.bus) := by
  obtain ⟨x, _, rfl⟩ := h
  simp [State.ran, Acc.or]

theorem Did.setShadow {u v : State} {e : Effect} {r : Results} {st : PState} (h : Did u e r st v) (r' : Results) :
    Did u e r' st (v.setShadow r') := by
  obtain ⟨x, hx, rfl⟩ := h
  exact ⟨x, hx, rfl⟩

theorem Did.setLoop {u v : State} {e : Effect} {r : Results} {st : PState} (h : Did u e r st v) (l : Loops) :
    Did u e r st (v.setLoop l) := by
  obtain ⟨x, hx, rfl⟩ := h
  exact ⟨{ x with loop := l }, hx, rfl⟩

theorem Did.setPState {u v : State} {e : Effect} {r : Results} {st : PState} (h : Did u e r st v) (x : PState) :
    Did u e r x (v.setPState x) := by
  obtain ⟨y, hy, rfl⟩ := h
  exact ⟨y, hy, rfl⟩

theorem Did.orAcc {u v : State} {e : Effect} {r : Results} {st : PState} (h : Did u e r st v) (a : Acc) :
    Did u (e.seq { acc := a }) r st (v.orAcc a) := by
  obtain ⟨x, hx, rfl⟩ := h
  exact ⟨x, hx, by simp [State.ran, State.orAcc, Acc.or, Bool.or_assoc, Bool.or_comm, Bool.or_left_comm]⟩

/-- A run that began with a change of the shadow. -/
theorem Did.fromSetShadow {u v : State} {e : Effect} {r r' : Results} {st : PState} (h : Did (u.setShadow r') e r st v) :
    Did u e r st v := h

/-- A run that began with a change of the loop counters. -/
theorem Did.fromSetLoop {u v : State} {e : Effect} {r : Results} {l : Loops} {st : PState} (h : Did (u.setLoop l) e r st v) :
    Did u e r st v := h

/-! ## The host's turn, and the primitives -/

theorem serveHost_ran {h : List HostInput} {u : State} (hn : HostInput.reset ∉ h) :
    ∃ x : Side, x.loop = u.loop ∧
      (∃ tk, h = tk ++ x.left ∧ x.reads.map HostRead.a = tk.filterMap HostInput.readIndex ∧
        x.ovr = tk.any HostInput.isWrite ∧ HostInput.reset ∉ tk ∧
        ((h = [] ∨ ∃ t, h = .wait :: t) → tk = [])) ∧
      serveHost h u = .ok () (u.ran x {} u.shadow u.pstate) := by
  induction h generalizing u with
  | nil => exact ⟨⟨[], [], false, u.loop⟩, rfl, ⟨[], by simp⟩, by
      simp [serveHost, State.ran, State.setHost, weave, weaveLa, weaveWa, delayMs, Gpio.after]⟩
  | cons i rest ih =>
    have hr : HostInput.reset ∉ rest := fun hm => hn (List.mem_cons_of_mem _ hm)
    cases i with
    | pass => exact ⟨⟨rest, [], false, u.loop⟩, rfl, ⟨[.pass], by simp [HostInput.readIndex, HostInput.isWrite]⟩, by
        simp [serveHost, State.ran, State.setHost, weave, weaveLa, weaveWa, delayMs, Gpio.after]⟩
    | wait => exact ⟨⟨.wait :: rest, [], false, u.loop⟩, rfl, ⟨[], by simp⟩, by
        simp [serveHost, State.ran, State.setHost, weave, weaveLa, weaveWa, delayMs, Gpio.after]⟩
    | reset => simp at hn
    | read a =>
      obtain ⟨x, hl, ⟨tk, h1, h2, h3, h4, _⟩, h5⟩ := ih (u := u.logRead a) hr
      refine ⟨{ x with reads := ⟨a, readReg (hostRegAt a) u⟩ :: x.reads }, hl,
        ⟨.read a :: tk, by simp [← h1], by simp [h2, HostInput.readIndex], by simp [h3, HostInput.isWrite], by simp [h4], by simp⟩, ?_⟩
      simp only [serveHost, h5]
      simp [State.ran, weave, weaveLa, weaveWa, delayMs, Gpio.after]
    | write a v =>
      obtain ⟨x, hl, ⟨tk, h1, h2, h3, h4, _⟩, h5⟩ := ih (u := u.overrun) hr
      refine ⟨{ x with ovr := true }, hl,
        ⟨.write a v :: tk, by simp [← h1], by rw [h2]; rfl, by simp [HostInput.isWrite], by simp [h4], by simp⟩, ?_⟩
      simp only [serveHost, h5]
      simp [State.ran, weave, weaveLa, weaveWa, delayMs, Gpio.after, State.overrun]

theorem hostWindow_did {p : Params} {u : State} (hu : Ready p u) :
    ∃ v, hostWindow u = .ok () v ∧ v.la = u.la ∧ v.loop = u.loop ∧ Did u {} u.shadow u.pstate v := by
  obtain ⟨x, hl, ⟨tk, h1, h2, h3, h4, h5⟩, h6⟩ := serveHost_ran (u := u) hu.noReset
  refine ⟨_, h6, rfl, hl, x, ⟨tk, h1, h2, h3, h4, fun hq => h5 ?_⟩, rfl⟩
  revert hq
  unfold State.quiet
  split
  · exact fun _ => .inl ‹_›
  · exact fun _ => .inr ⟨_, ‹_›⟩
  · exact fun hq => absurd hq (by simp)

theorem delay_did {p : Params} {u : State} (hu : Ready p u) (ms : Nat) :
    ∃ v, delay p ms u = .ok () v ∧ Did u (delayEff ms) u.shadow u.pstate v := by
  obtain ⟨v, hv, _, _, hd⟩ := hostWindow_did hu
  refine ⟨v.delayed p ms, by rw [delay_apply, hv], ?_⟩
  obtain ⟨x, hx, rfl⟩ := hd
  refine ⟨x, hx, ?_⟩
  simp [State.ran, State.delayed, delayEff, weave, weaveLa, weaveWa, delayMs, Gpio.after, Event.busSa,
    hu.params]

theorem gpioSet_did {p : Params} {u : State} (hu : Ready p u) (pin : Pin) (b : Bool) :
    ∃ v, gpioSet pin b u = .ok () v ∧ Did u (pinEff pin b) u.shadow u.pstate v := by
  obtain ⟨v, hv, _, _, hd⟩ := hostWindow_did hu
  refine ⟨v.pinSet pin b, by rw [gpioSet_apply, hv], ?_⟩
  obtain ⟨x, hx, rfl⟩ := hd
  refine ⟨x, hx, ?_⟩
  simp [State.ran, State.pinSet, pinEff, weave, weaveLa, weaveWa, delayMs, Gpio.after, Event.busSa]

theorem setPState_did {p : Params} {u : State} (hu : Ready p u) (x : PState) :
    ∃ v, setPState x u = .ok () v ∧ Did u {} u.shadow x v := by
  obtain ⟨v, hv, _, _, hd⟩ := hostWindow_did hu
  exact ⟨v.setPState x, by rw [setPState_apply, hv], hd.setPState x⟩

/-- A command whose rule runs to its end with an effect completes with that effect (10_state.md R33). -/
theorem runCommand_completed {body : Params → Proc Code} {s v : State} {c : Code} {e : Effect} {r : Results}
    {st : PState} (hn : s.noReset = true) (h : body s.params.params s.start = .ok c v) (hd : Did s.start e r st v) :
    ∃ x, Side.takenFrom x s ∧ runCommand body s = .next (s.completed x e r st c) := by
  have hu := hd.ready (Ready.ofNoReset hn).start
  obtain ⟨w, hw, _, _, hd'⟩ := hostWindow_did hu
  have hd2 := hd.trans hd'
  rw [hd.shadow, hd.pstate, Effect.seq_nil] at hd2
  obtain ⟨x, hx, rfl⟩ := hd2
  refine ⟨x, hx, ?_⟩
  rw [runCommand_next, h]
  simp only [finish_apply, hw, endState_ok]
  simp [State.commit, State.completed, State.ran, State.start, ErrAcc.orAcc]

/-- The code of a command that ends with `endCode` (60_exceptions.md R261). -/
theorem Did.endCode {s v : State} {e : Effect} {r : Results} {st : PState} (hd : Did s.start e r st v) :
    v.acc.endCode = e.acc.endCode := by
  have h := hd.acc
  simp [Acc.endCode, h, State.start]

/-- One bus event on the sub-address the last-address memory holds: no workaround write. -/
theorem busEvent_did {u v : State} (e : Event) {sa : Byte} (hsa : Event.busSa e = some sa)
    (hla : u.la = { valid := true, sa := sa }) (hd : Did u {} u.shadow u.pstate v) :
    Did u { acts := [{ ev := e }] } u.shadow u.pstate (v.busEvent e) := by
  obtain ⟨x, hx, rfl⟩ := hd
  refine ⟨x, hx, ?_⟩
  cases e with
  | d ms => cases hsa
  | g pin b => cases hsa
  | w sa' bs ok =>
    cases hsa
    simp [State.ran, State.busEvent, weave, weaveLa, weaveWa, delayMs, Gpio.after, Event.busSa, hla,
      waEvents, waFailed]
  | wr sa' bs n ok rs =>
    cases hsa
    simp [State.ran, State.busEvent, weave, weaveLa, weaveWa, delayMs, Gpio.after, Event.busSa, hla,
      waEvents, waFailed]

/-- The workaround of a sub-address, and then the event it was for: the act of that event (41_register_access.md
R120, R135). -/
theorem workaround_did {p : Params} {u : State} (hu : Ready p u) (sa : Byte) :
    ∃ wa v, workaround p sa u = .ok () v ∧ v.la = { valid := true, sa := sa } ∧ Ready p v ∧
      v.shadow = u.shadow ∧ v.pstate = u.pstate ∧
      ∀ e w, Event.busSa e = some sa → Did v { acts := [{ ev := e }] } v.shadow v.pstate w →
        Did u { acts := [{ ev := e, wa := wa }] } u.shadow u.pstate w := by
  rw [workaround_apply]
  split
  · next h =>
    have hla : u.la = { valid := true, sa := sa } := by
      rcases hs : u.la with ⟨a, b⟩
      simp_all
    refine ⟨true, u, rfl, hla, hu, rfl, rfl, fun e w he hd => ?_⟩
    exact hd
  · next h =>
    have hu' : Ready p (u.setLa sa) := ⟨hu.params, hu.noReset⟩
    obtain ⟨v, hv, hla, _, x, ⟨tk, h1, h2, h3, h4, h5⟩, rfl⟩ := hostWindow_did hu'
    rw [busW_apply, hv]
    simp only
    generalize hans : (State.answer _ _).ok = ok
    refine ⟨ok, _, rfl, ?_, ?_, ?_, ?_, ?_⟩
    · cases ok <;> exact hla
    · have hr : HostInput.reset ∉ x.left := fun hm => hu.noReset (by
        have : u.host = tk ++ x.left := h1
        rw [this]; exact List.mem_append_right _ hm)
      cases ok
      · exact ⟨hu.params, hr⟩
      · exact ⟨hu.params, hr⟩
    · cases ok <;> rfl
    · cases ok <;> rfl
    · intro e w he hd
      obtain ⟨y, ⟨tk', g1, g2, g3, g4, g5⟩, rfl⟩ := hd
      have hleft : x.left = tk' ++ y.left := by
        rw [← g1]; cases ok <;> rfl
      refine ⟨{ left := y.left, reads := x.reads ++ y.reads, ovr := x.ovr || y.ovr, loop := y.loop },
        ⟨tk ++ tk', ?_, ?_, ?_, ?_, ?_⟩, ?_⟩
      · have : u.host = tk ++ x.left := h1
        rw [this, hleft, List.append_assoc]
      · simp [h2, g2]
      · simp [h3, g3]
      · simp [h4, g4]
      · intro hq
        have ht := h5 hq
        subst ht
        have hv : x.left = u.host := by
          have : u.host = [] ++ x.left := h1
          simpa using this.symm
        rw [g5 (by cases ok <;> exact (State.quiet_of_host (u := u) hv).trans hq)]
        rfl
      · cases ok <;> cases e <;> first | (simp [Event.busSa] at he; done) | skip
        all_goals
          simp only [Event.busSa, Option.some.injEq] at he
          subst he
          simp [State.ran, State.busEvent, State.orAcc, State.setLa, weave, weaveLa, weaveWa, delayMs,
            Gpio.after, Event.busSa, waEvents, waFailed, h, hu.params, Acc.or, Bool.or_comm,
            Bool.or_left_comm]

end Sys2Proof.Machine
end

