-- ==== Sys2Proof/Laws/RunRegister.lean ====
section
/-! SUPPORT. Which effect each register procedure has (41_register_access.md R124-R128, R136), and each procedure made
of them: AUX, the video steps, and the lists of writes. -/

namespace Sys2Proof.Machine

variable {p : Params} {u : State}

/-- A transaction on a sub-address, after its workaround. -/
theorem access_w_did (hu : Ready p u) (sa : Byte) (bs : List Byte) :
    ∃ wa ok t v, workaround p sa u = .ok () t ∧ busW sa bs t = .ok ok v ∧
      Did u { acts := [{ ev := .w sa bs ok, wa := wa }] } u.shadow u.pstate v := by
  obtain ⟨wa, t, ht, hla, hrt, hs, hps, hcomp⟩ := workaround_did hu sa
  obtain ⟨v, hv, hvla, _, hd⟩ := hostWindow_did hrt
  refine ⟨wa, _, t, _, ht, by rw [busW_apply, hv], hcomp _ _ rfl ?_⟩
  exact busEvent_did _ rfl hla hd

theorem access_wr_did (hu : Ready p u) (sa : Byte) (bs : List Byte) (n : Nat) :
    ∃ wa t v, workaround p sa u = .ok () t ∧
      ((∃ b : Vector Byte 16, busWR sa bs n t = .ok (some (b.toList.take n)) v ∧
          Did u { acts := [{ ev := .wr sa bs n true (b.toList.take n), wa := wa }] } u.shadow u.pstate v) ∨
        (busWR sa bs n t = .ok none v ∧
          Did u { acts := [{ ev := .wr sa bs n false [], wa := wa }] } u.shadow u.pstate v)) := by
  obtain ⟨wa, t, ht, hla, hrt, hs, hps, hcomp⟩ := workaround_did hu sa
  obtain ⟨v, hv, hvla, _, hd⟩ := hostWindow_did hrt
  by_cases ho : (v.answer (.wr sa bs n)).ok = true
  · refine ⟨wa, t, _, ht, .inl ⟨(v.answer (.wr sa bs n)).data, by rw [busWR_apply, hv]; simp only [ho, if_true]; rfl, ?_⟩⟩
    exact hcomp _ _ rfl (busEvent_did _ rfl hla hd)
  · refine ⟨wa, t, _, ht, .inr ⟨by rw [busWR_apply, hv]; simp only [ho]; rfl, ?_⟩⟩
    exact hcomp _ _ rfl (busEvent_did _ rfl hla hd)

theorem take_one_of_vector (b : Vector Byte 16) : b.toList.take 1 = [b.toList.getD 0 0] := by
  have h : b.toList.length = 16 := by simp
  cases hb : b.toList with
  | nil => rw [hb] at h; cases h
  | cons x xs => rfl

/-- RegRead's effect (41_register_access.md R124). -/
theorem regRead_did (hu : Ready p u) (l : Loc) :
    ∃ (d : RdDraw) (v : State), regRead p l u = .ok d.v v ∧ Did u (readEff l d) u.shadow u.pstate v := by
  obtain ⟨wa, t, v, ht, ⟨b, hb, hd⟩ | ⟨hb, hd⟩⟩ := access_wr_did hu l.sa [l.off] 1
  · refine ⟨⟨wa, some (b.toList.getD 0 0)⟩, v, ?_, ?_⟩
    · simp only [regRead, bind_apply, ht, hb]
      simp [take_one_of_vector]
    · rw [take_one_of_vector] at hd
      exact hd
  · refine ⟨⟨wa, none⟩, v.orAcc { bus := true }, ?_, hd.orAcc _⟩
    simp only [regRead, bind_apply, ht, hb]
    rfl

/-- RegPoll's effect: a failed poll sets PBUS, never BUS (41_register_access.md R136). -/
theorem regPoll_did (hu : Ready p u) (l : Loc) :
    ∃ (d : RdDraw) (v : State), regPoll p l u = .ok d.v v ∧ Did u (pollEff l d) u.shadow u.pstate v := by
  obtain ⟨wa, t, v, ht, ⟨b, hb, hd⟩ | ⟨hb, hd⟩⟩ := access_wr_did hu l.sa [l.off] 1
  · refine ⟨⟨wa, some (b.toList.getD 0 0)⟩, v, ?_, ?_⟩
    · simp only [regPoll, bind_apply, ht, hb]
      simp [take_one_of_vector]
    · rw [take_one_of_vector] at hd
      exact hd
  · refine ⟨⟨wa, none⟩, v.orAcc { pbus := true }, ?_, hd.orAcc _⟩
    simp only [regPoll, bind_apply, ht, hb]
    rfl

/-- RegWrite's effect (41_register_access.md R125). -/
theorem regWrite_did (hu : Ready p u) (l : Loc) (b : Byte) :
    ∃ (d : WrDraw) (v : State), regWrite p l b u = .ok d.ok v ∧ Did u (writeEff l b d) u.shadow u.pstate v := by
  obtain ⟨wa, ok, t, v, ht, hb, hd⟩ := access_w_did hu l.sa [l.off, b]
  cases ok
  · refine ⟨⟨wa, false⟩, v.orAcc { bus := true }, ?_, hd.orAcc _⟩
    simp only [regWrite, bind_apply, ht, hb]
    rfl
  · refine ⟨⟨wa, true⟩, v, ?_, hd⟩
    simp only [regWrite, bind_apply, ht, hb]
    rfl

/-- RegReadBlock's effect (41_register_access.md R126). -/
theorem regReadBlock_did (hu : Ready p u) (l : Loc) (n : Nat) :
    ∃ (d : BlkDraw) (v : State), regReadBlock p l n u = .ok (d.bytes n) v ∧
      Did u (blockEff l n d) u.shadow u.pstate v := by
  obtain ⟨wa, t, v, ht, ⟨b, hb, hd⟩ | ⟨hb, hd⟩⟩ := access_wr_did hu l.sa [l.off] n
  · refine ⟨⟨wa, some b⟩, v, ?_, hd⟩
    simp only [regReadBlock, bind_apply, ht, hb]
    rfl
  · refine ⟨⟨wa, none⟩, v.orAcc { bus := true }, ?_, hd.orAcc _⟩
    simp only [regReadBlock, bind_apply, ht, hb]
    rfl

/-- The two transactions of a read-modify-write are on one sub-address, so the second has no workaround: the answer it
would have got is of no account. -/
theorem rmw_wa_irrelevant {v w : State} {l : Loc} {r : RdDraw} {b : Byte} {d : WrDraw} {rs rs' : Results}
    {st st' : PState} (h : Did u (readEff l r) rs st v) (h' : Did v (writeEff l b d) rs' st' w) :
    Did v (writeEff l b { d with wa := true }) rs' st' w := by
  obtain ⟨x, _, rfl⟩ := h
  obtain ⟨y, hy, rfl⟩ := h'
  refine ⟨y, hy, ?_⟩
  simp [State.ran, writeEff, readEff, readEvent, weave, weaveLa, weaveWa, Event.busSa, waEvents, waFailed]

/-- A read-modify-write's effect (41_register_access.md R127, R128). -/
theorem regModify_did (hu : Ready p u) (l : Loc) (f : Byte → Byte) :
    ∃ (d : RmwDraw) (v : State),
      regModify p l f u = .ok { ok := d.good, vr := d.v.getD 0, vw := (d.v.map f).getD 0 } v ∧
      Did u (rmwEff l f d) u.shadow u.pstate v := by
  obtain ⟨r, v, hv, hd⟩ := regRead_did hu l
  cases hr : r.v with
  | none =>
    refine ⟨⟨r.wa, none, false⟩, v, ?_, ?_⟩
    · simp only [regModify, bind_apply, hv, hr]
      rfl
    · cases r
      cases hr
      exact hd
  | some b =>
    obtain ⟨d, w, hw, hd'⟩ := regWrite_did (hd.ready hu) l (f b)
    refine ⟨⟨r.wa, some b, d.ok⟩, w, ?_, ?_⟩
    · simp only [regModify, bind_apply, hv, hr, hw]
      simp [RmwDraw.good]
    · have h2 := rmw_wa_irrelevant hd hd'
      rw [hd.shadow, hd.pstate] at h2
      cases r
      cases hr
      exact hd.trans h2

theorem regSet_did (hu : Ready p u) (l : Loc) (m : Byte) :
    ∃ (d : RmwDraw) (v : State),
      regSet p l m u = .ok { ok := d.good, vr := d.v.getD 0, vw := (d.v.map fun v => v ||| m).getD 0 } v ∧
      Did u (setEff l m d) u.shadow u.pstate v := regModify_did hu l _

theorem regClr_did (hu : Ready p u) (l : Loc) (m : Byte) :
    ∃ (d : RmwDraw) (v : State),
      regClr p l m u = .ok { ok := d.good, vr := d.v.getD 0, vw := (d.v.map fun v => v &&& ~~~m).getD 0 } v ∧
      Did u (clrEff l m d) u.shadow u.pstate v := regModify_did hu l _

/-- Every write of a list is made (45_video_config.md R221). -/
theorem regWriteAll_did (hu : Ready p u) (ws : List (Loc × Byte)) :
    ∃ (ds : List WrDraw) (v : State), ds.length = ws.length ∧ regWriteAll p ws u = .ok () v ∧
      Did u (writesEff ws ds) u.shadow u.pstate v := by
  induction ws generalizing u with
  | nil => exact ⟨[], u, rfl, rfl, Did.refl u⟩
  | cons w ws ih =>
    obtain ⟨d, v, hv, hd⟩ := regWrite_did hu w.1 w.2
    obtain ⟨ds, t, hl, ht, hd'⟩ := ih (hd.ready hu)
    rw [hd.shadow, hd.pstate] at hd'
    exact ⟨d :: ds, t, by simp [hl], by simp only [regWriteAll, bind_apply, hv, ht], hd.trans hd'⟩

end Sys2Proof.Machine
end

