-- ==== Sys2Proof/Laws/RunAux.lean ====
section
/-! SUPPORT. Which effect each AUX and EDID procedure has (42_aux.md, 43_edid.md). -/

namespace Sys2Proof.Machine

variable {p : Params} {u v w : State}

@[simp] theorem Results.withStatus_nil (r : Results) : r.withStatus {} = r := rfl

theorem Results.withStatus_seq (r : Results) (a b : Effect) : r.withStatus (a.seq b) = (r.withStatus a).withStatus b := by
  simp only [Results.withStatus, Effect.status, Effect.seq_last, Results.mk.injEq, and_true, true_and]
  cases b.last <;> simp

theorem Results.withStatus_of_last {e : Effect} (h : e.last = none) (r : Results) : r.withStatus e = r := by
  simp [Results.withStatus, Effect.status, h]

/-- A run that changed the shadow by its last AUX status byte alone. -/
def DidAux (u : State) (e : Effect) (v : State) : Prop := Did u e (u.shadow.withStatus e) u.pstate v

theorem DidAux.refl (u : State) : DidAux u {} u := Did.refl u

theorem DidAux.ofDid {e : Effect} (hl : e.last = none) (h : Did u e u.shadow u.pstate v) : DidAux u e v := by
  unfold DidAux
  rw [Results.withStatus_of_last hl]
  exact h

theorem DidAux.trans {e e' : Effect} (h : DidAux u e v) (h' : DidAux v e' w) : DidAux u (e.seq e') w := by
  unfold DidAux at *
  rw [Results.withStatus_seq]
  have h2 := Did.trans h h'
  rwa [h.shadow, h.pstate] at h2

theorem DidAux.ready {e : Effect} (h : DidAux u e v) (hu : Ready p u) : Ready p v := Did.ready h hu

theorem DidAux.setLoop {e : Effect} (h : DidAux u e v) (l : Loops) : DidAux u e (v.setLoop l) := Did.setLoop h l

theorem DidAux.fromSetLoop {e : Effect} {l : Loops} (h : DidAux (u.setLoop l) e v) : DidAux u e v := h

theorem writeEff_last (l : Loc) (b : Byte) (d : WrDraw) : (writeEff l b d).last = none := rfl

theorem rmwEff_last (l : Loc) (f : Byte → Byte) (d : RmwDraw) : (rmwEff l f d).last = none := by
  unfold rmwEff
  split <;> rfl

theorem regWrite_didAux (hu : Ready p u) (l : Loc) (b : Byte) :
    ∃ (d : WrDraw) (v : State), regWrite p l b u = .ok d.ok v ∧ DidAux u (writeEff l b d) v := by
  obtain ⟨d, v, hv, hd⟩ := regWrite_did hu l b
  exact ⟨d, v, hv, .ofDid rfl hd⟩

theorem regSet_didAux (hu : Ready p u) (l : Loc) (m : Byte) :
    ∃ (d : RmwDraw) (r : Rmw) (v : State), regSet p l m u = .ok r v ∧ r.ok = d.good ∧ DidAux u (setEff l m d) v := by
  obtain ⟨d, v, hv, hd⟩ := regSet_did hu l m
  exact ⟨d, _, v, hv, rfl, .ofDid (rmwEff_last _ _ _) hd⟩

theorem regClr_didAux (hu : Ready p u) (l : Loc) (m : Byte) :
    ∃ (d : RmwDraw) (r : Rmw) (v : State), regClr p l m u = .ok r v ∧ r.ok = d.good ∧ DidAux u (clrEff l m d) v := by
  obtain ⟨d, v, hv, hd⟩ := regClr_did hu l m
  exact ⟨d, _, v, hv, rfl, .ofDid (rmwEff_last _ _ _) hd⟩

/-- The status byte a read took joins the effect. -/
theorem Did.withLast {e : Effect} {st : PState} {b : Byte} (h : Did u e u.shadow st v) (hst : st = u.pstate) :
    DidAux u { e with last := some b } (v.setShadow { v.shadow with auxLastStatus := b }) := by
  subst hst
  have hs := h.shadow
  obtain ⟨x, hx, rfl⟩ := h
  exact ⟨x, hx, rfl⟩

/-- One poll of an AuxWait. -/
theorem auxPoll_did (hu : Ready p u) :
    ∃ (d : RdDraw) (v : State),
      (do delay p Config.AUX_POLL_MS; regPoll p p.CHIP_MAP.L_AUX_CTRL_STATUS : Proc (Option Byte)) u = .ok d.v v ∧
      DidAux u (auxPollEff p d) (match d.v with
        | none => v
        | some b => v.setShadow { v.shadow with auxLastStatus := b }) := by
  obtain ⟨t, ht, hd⟩ := delay_did hu Config.AUX_POLL_MS
  obtain ⟨d, v, hv, hd'⟩ := regPoll_did (hd.ready hu) p.CHIP_MAP.L_AUX_CTRL_STATUS
  refine ⟨d, v, by simp only [bind_apply, ht, hv], ?_⟩
  have ha : DidAux u (delayEff Config.AUX_POLL_MS) t := .ofDid rfl hd
  cases hdv : d.v with
  | none =>
    refine ha.trans ?_
    have : DidAux t (pollEff p.CHIP_MAP.L_AUX_CTRL_STATUS d) v := .ofDid rfl hd'
    rw [hdv]
    exact this
  | some b =>
    refine ha.trans ?_
    rw [hdv]
    exact hd'.withLast rfl

/-- The reread and the flags of an AuxWait that saw the bit clear at poll `i` (42_aux.md R144). -/
theorem auxReread_did (hu : Ready p u) (i : Nat) (wa : Bool) (s : Byte) :
    ∃ (r : RdDraw) (v : State),
      auxReread p i u = .ok (WaitDraw.res ⟨[], .clear wa s r⟩, i) v ∧
      DidAux u (Effect.seq { readEff p.CHIP_MAP.L_AUX_CTRL_STATUS r with last := r.v }
        { acc := { echo := decide (WaitDraw.res ⟨[], .clear wa s r⟩ = .echo) } }) v := by
  obtain ⟨r, v, hv, hd⟩ := regRead_did hu p.CHIP_MAP.L_AUX_CTRL_STATUS
  cases hr : r.v with
  | none =>
    refine ⟨r, v, ?_, ?_⟩
    · simp only [auxReread, bind_apply, hv, hr]
      simp [WaitDraw.res, hr]
    · simp only [WaitDraw.res, hr]
      have hd2 : DidAux u (readEff p.CHIP_MAP.L_AUX_CTRL_STATUS r) v := .ofDid rfl hd
      have hf : ({ acc := { echo := decide (AuxRes.bus = AuxRes.echo) } } : Effect) = {} := by decide
      rw [hf, Effect.seq_nil]
      exact hd2
  | some b =>
    have hd2 := hd.withLast (b := b) rfl
    have hrun : auxReread p i u = .ok (if b &&& Config.AUX_ERR_MASK = 0 then AuxRes.ok else .echo, i)
        (if b &&& Config.AUX_ERR_MASK = 0 then v.setShadow { v.shadow with auxLastStatus := b }
        else (v.setShadow { v.shadow with auxLastStatus := b }).orAcc { echo := true }) := by
      simp only [auxReread, bind_apply, hv, hr, setAuxLast, writeShadow_apply]
      by_cases hb : b &&& Config.AUX_ERR_MASK = 0
      · rw [if_neg (fun h => h hb), if_pos hb, if_pos hb]; rfl
      · rw [if_pos hb, if_neg hb, if_neg hb]; rfl
    by_cases hb : b &&& Config.AUX_ERR_MASK = 0
    · have hw : WaitDraw.res ⟨[], .clear wa s r⟩ = .ok := by simp only [WaitDraw.res, hr, if_pos hb]
      rw [if_pos hb, if_pos hb] at hrun
      refine ⟨r, v.setShadow { v.shadow with auxLastStatus := b }, ?_, ?_⟩
      · rw [hw]; exact hrun
      · have hf : ({ acc := { echo := decide (AuxRes.ok = AuxRes.echo) } } : Effect) = {} := by decide
        rw [hw, hr, hf, Effect.seq_nil]
        exact hd2
    · have hw : WaitDraw.res ⟨[], .clear wa s r⟩ = .echo := by simp only [WaitDraw.res, hr, if_neg hb]
      rw [if_neg hb, if_neg hb] at hrun
      refine ⟨r, (v.setShadow { v.shadow with auxLastStatus := b }).orAcc { echo := true }, ?_, ?_⟩
      · rw [hw]; exact hrun
      · rw [hw, hr]; exact Did.orAcc (a := { echo := true }) hd2

/-- The polls from poll `i` on, `n` of them left (42_aux.md R144, R145). -/
theorem auxPolls_did (hu : Ready p u) (n i : Nat) (hi : i + n = Config.AUX_POLL_MAX + 1) :
    ∃ (d : WaitDraw) (v : State),
      d.pending.all (notClear p) = true ∧
      (match d.fin with
        | .timeout => d.pending.length = n
        | .clear _ s _ => d.pending.length < n ∧ s &&& p.CHIP_MAP.M_AUX_OP_EN = 0) ∧
      auxPolls p n i u = .ok (d.res, match d.fin with
        | .timeout => Config.AUX_POLL_MAX
        | .clear _ _ _ => i + d.pending.length) v ∧
      DidAux u (waitEff p d) v := by
  induction n generalizing u i with
  | zero =>
    refine ⟨⟨[], .timeout⟩, u.orAcc { tmo := true }, rfl, rfl, rfl, ?_⟩
    exact Did.orAcc (a := { tmo := true }) (DidAux.refl u)
  | succ n ih =>
    have hu1 : Ready p (u.setLoop { u.loop with poll := i }) := hu.setLoop _
    obtain ⟨d, v, hv, hd⟩ := auxPoll_did hu1
    replace hd := hd.fromSetLoop
    have hrun : auxPolls p (n + 1) i u = (match d.v with
        | none => auxPolls p n (i + 1)
        | some s => (do
          setAuxLast s
          if s &&& p.CHIP_MAP.M_AUX_OP_EN = 0 then auxReread p i else auxPolls p n (i + 1))) v := by
      rw [bind_apply] at hv
      simp only [auxPolls, bind_apply, setPoll_apply]
      cases hdel : delay p Config.AUX_POLL_MS (u.setLoop { u.loop with poll := i }) with
      | error e t => rw [hdel] at hv; cases hv
      | ok a t => rw [hdel] at hv; simp only at hv; cases hdv : d.v <;> simp only [hv, hdv]
    -- the polls that go on
    have hgo : ∀ t, notClear p d = true → DidAux u (auxPollEff p d) t → auxPolls p (n + 1) i u = auxPolls p n (i + 1) t →
        ∃ (d : WaitDraw) (v : State),
          d.pending.all (notClear p) = true ∧
          (match d.fin with
            | .timeout => d.pending.length = n + 1
            | .clear _ s _ => d.pending.length < n + 1 ∧ s &&& p.CHIP_MAP.M_AUX_OP_EN = 0) ∧
          auxPolls p (n + 1) i u = .ok (d.res, match d.fin with
            | .timeout => Config.AUX_POLL_MAX
            | .clear _ _ _ => i + d.pending.length) v ∧
          DidAux u (waitEff p d) v := by
      intro t hnc ht hx
      obtain ⟨d', w, h1, h2, h3, h4⟩ := ih (ht.ready hu) (i + 1) (by omega)
      refine ⟨⟨d :: d'.pending, d'.fin⟩, w, by simp [hnc]; simpa using h1, ?_, ?_, ?_⟩
      · cases hf : d'.fin with
        | timeout => simp only [hf] at h2 ⊢; simp [h2]
        | clear wa s r => simp only [hf] at h2 ⊢; exact ⟨by simp [h2.1], h2.2⟩
      · rw [hx, h3]
        cases hf : d'.fin with
        | timeout => simp only [hf, WaitDraw.res]
        | clear wa s r =>
          simp only [hf, WaitDraw.res, List.length_cons]
          congr 2
          omega
      · have := ht.trans h4
        unfold waitEff at this ⊢
        rw [← Effect.seq_assoc] at this
        exact this
    cases hdv : d.v with
    | none =>
      rw [hdv] at hrun hd
      exact hgo v (by simp [notClear, hdv]) hd hrun
    | some s =>
      rw [hdv] at hrun hd
      by_cases hc : s &&& p.CHIP_MAP.M_AUX_OP_EN = 0
      · obtain ⟨r, w, hw, hd'⟩ := auxReread_did (hd.ready hu) i d.wa s
        refine ⟨⟨[], .clear d.wa s r⟩, w, rfl, ⟨by simp, hc⟩, ?_, ?_⟩
        · rw [hrun]
          simp only [bind_apply, setAuxLast, writeShadow_apply, hc, if_true]
          rw [hw]
          rfl
        · have := hd.trans hd'
          cases d
          cases hdv
          simpa [waitEff, auxPollsEff, waitEndEff] using this
      · refine hgo _ (by simp only [notClear, hdv]; exact decide_eq_true hc) hd ?_
        rw [hrun]
        simp only [bind_apply, setAuxLast, writeShadow_apply, hc, if_false]

/-- AuxWait's effect (42_aux.md R144). -/
theorem auxWait_did (hu : Ready p u) :
    ∃ (d : WaitDraw) (v : State), d.legal p = true ∧ auxWait p u = .ok (d.res, d.polls) v ∧ DidAux u (waitEff p d) v := by
  obtain ⟨d, v, h1, h2, h3, h4⟩ := auxPolls_did hu Config.AUX_POLL_MAX 1 (by omega)
  refine ⟨d, v, ?_, ?_, h4⟩
  · unfold WaitDraw.legal
    rw [h1]
    cases hf : d.fin <;> rw [hf] at h2 <;> simp only [Bool.true_and] <;> simpa using h2
  · unfold auxWait
    rw [h3]
    unfold WaitDraw.polls
    cases d.fin with
    | timeout => rfl
    | clear wa s r => simp only [Nat.add_comm]

/-- AuxWrite's effect (42_aux.md R142). -/
theorem auxWrite_did (hu : Ready p u) (offset : Byte) :
    ∃ (d : AuxWriteDraw) (v : State), d.wait.legal p = true ∧ auxWrite p offset u = .ok (d.res, d.wait.polls) v ∧
      DidAux u (auxWriteEff p offset d) v := by
  obtain ⟨d1, v1, h1, e1⟩ := regWrite_didAux hu p.CHIP_MAP.L_AUX_BUFF_START offset
  have u1 := e1.ready hu
  obtain ⟨d2, v2, h2, e2⟩ := regWrite_didAux u1 p.CHIP_MAP.L_AUX_COMMAND p.CHIP_MAP.K_AUX_CMD_SHORT_WRITE
  have u2 := e2.ready u1
  obtain ⟨d3, r3, v3, h3, g3, e3⟩ := regSet_didAux u2 p.CHIP_MAP.L_AUX_CTRL_STATUS p.CHIP_MAP.M_AUX_OP_EN
  have u3 := e3.ready u2
  obtain ⟨d4, v4, l4, h4, e4⟩ := auxWait_did u3
  refine ⟨⟨d1, d2, d3, d4⟩, v4, l4, ?_, e1.trans (e2.trans (e3.trans e4))⟩
  simp only [auxWrite, bind_apply, h1, h2, h3, h4, g3]
  rfl

/-- AuxRead's effect (42_aux.md R143). -/
theorem auxRead_did (hu : Ready p u) (cmd : Byte) :
    ∃ (d : AuxReadDraw) (v : State), d.wait.legal p = true ∧ auxRead p cmd u = .ok (d.res, d.wait.polls) v ∧
      DidAux u (auxReadEff p cmd d) v := by
  obtain ⟨d1, v1, h1, e1⟩ := regWrite_didAux hu p.CHIP_MAP.L_AUX_COMMAND cmd
  have u1 := e1.ready hu
  obtain ⟨d3, r3, v3, h3, g3, e3⟩ := regSet_didAux u1 p.CHIP_MAP.L_AUX_CTRL_STATUS p.CHIP_MAP.M_AUX_OP_EN
  have u3 := e3.ready u1
  obtain ⟨d4, v4, l4, h4, e4⟩ := auxWait_did u3
  refine ⟨⟨d1, d3, d4⟩, v4, l4, ?_, e1.trans (e3.trans e4)⟩
  simp only [auxRead, bind_apply, h1, h3, h4, g3]
  rfl

/-- AuxAddrOnly's effect (42_aux.md R148). -/
theorem auxAddrOnly_did (hu : Ready p u) (dev : Byte) :
    ∃ (d : AddrDraw) (v : State), d.wait.legal p = true ∧ auxAddrOnly p dev u = .ok (d.res, d.wait.polls) v ∧
      DidAux u (addrEff p dev d) v := by
  obtain ⟨d1, v1, h1, e1⟩ := regWrite_didAux hu p.CHIP_MAP.L_AUX_ADDR_7_0 dev
  have u1 := e1.ready hu
  obtain ⟨d2, v2, h2, e2⟩ := regWrite_didAux u1 p.CHIP_MAP.L_AUX_COMMAND p.CHIP_MAP.K_AUX_CMD_SHORT_WRITE
  have u2 := e2.ready u1
  obtain ⟨d3, v3, h3, e3⟩ := regWrite_didAux u2 p.CHIP_MAP.L_AUX_CTRL_STATUS
    (p.CHIP_MAP.M_AUX_ADDRONLY ||| p.CHIP_MAP.M_AUX_OP_EN)
  have u3 := e3.ready u2
  obtain ⟨d4, v4, l4, h4, e4⟩ := auxWait_did u3
  refine ⟨⟨d1, d2, d3, d4⟩, v4, l4, ?_, e1.trans (e2.trans (e3.trans e4))⟩
  simp only [auxAddrOnly, bind_apply, h1, h2, h3, h4]
  rfl

/-- AuxReset's effect (42_aux.md R147). -/
theorem auxReset_did (hu : Ready p u) :
    ∃ (d : PulseDraw) (v : State), auxReset p u = .ok (d.set.good && d.clr.good) v ∧ DidAux u (auxResetEff p d) v := by
  obtain ⟨d1, r1, v1, h1, g1, e1⟩ := regSet_didAux hu p.CHIP_MAP.L_AUX_RST p.CHIP_MAP.M_AUX_RST
  have u1 := e1.ready hu
  obtain ⟨d2, r2, v2, h2, g2, e2⟩ := regClr_didAux u1 p.CHIP_MAP.L_AUX_RST p.CHIP_MAP.M_AUX_RST
  refine ⟨⟨d1, d2⟩, v2, ?_, e1.trans e2⟩
  simp only [auxReset, bind_apply, h1, h2, g1, g2]
  rfl

end Sys2Proof.Machine
end

