-- ==== Sys2Proof/Laws/RunEdid.lean ====
section
/-! SUPPORT. Which effect each EDID procedure has (43_edid.md). -/

namespace Sys2Proof.Machine

variable {p : Params} {u v w : State}

/-- BlockCount's effect (43_edid.md R160). -/
theorem blockCount_did (hu : Ready p u) :
    ∃ (d : CountDraw) (v : State), d.legal p = true ∧ blockCount p u = .ok (edidClamp d.raw, d.raw) v ∧
      DidAux u (countEff p d) v := by
  obtain ⟨d1, v1, l1, h1, e1⟩ := auxWrite_did hu Config.EDID_COUNT_OFFSET
  have u1 := e1.ready hu
  obtain ⟨d2, v2, l2, h2, e2⟩ := auxRead_did u1 p.CHIP_MAP.K_AUX_CMD_COUNT_READ
  have u2 := e2.ready u1
  obtain ⟨d3, v3, h3, e3⟩ := regRead_did u2 p.CHIP_MAP.L_AUX_BUFF_START
  refine ⟨⟨d1, d2, d3⟩, v3, by simp [CountDraw.legal, l1, l2], ?_, e1.trans (e2.trans (.ofDid rfl e3))⟩
  simp only [blockCount, bind_apply, h1, h2, h3]
  cases hd : d3.v with
  | none => simp [CountDraw.raw, hd, edidClamp]
  | some b => simp [CountDraw.raw, hd]

/-- The two AUX ops of an attempt. -/
theorem attempt_did (hu : Ready p u) (offset : Byte) :
    ∃ (dw : AuxWriteDraw) (dr : AuxReadDraw) (v1 v2 : State), dw.wait.legal p = true ∧ dr.wait.legal p = true ∧
      auxWrite p offset u = .ok (dw.res, dw.wait.polls) v1 ∧
      auxRead p p.CHIP_MAP.K_AUX_CMD_READ16 v1 = .ok (dr.res, dr.wait.polls) v2 ∧
      DidAux u (attemptEff p offset dw dr) v2 := by
  obtain ⟨d1, v1, l1, h1, e1⟩ := auxWrite_did hu offset
  obtain ⟨d2, v2, l2, h2, e2⟩ := auxRead_did (e1.ready hu) p.CHIP_MAP.K_AUX_CMD_READ16
  exact ⟨d1, d2, v1, v2, l1, l2, h1, h2, e1.trans e2⟩

/-- The attempts from attempt `t` on, `n` of them left (43_edid.md R162). -/
theorem edidAttempts_did (hu : Ready p u) (offset : Byte) (n t : Nat) :
    ∃ (d : ChunkDraw) (v : State),
      d.echoes.all (EchoDraw.legal p) = true ∧
      (match d.last with
        | none => d.echoes.length = n
        | some l => d.echoes.length < n ∧ l.legal p = true) ∧
      edidAttempts p offset n t u = .ok (match d.last with
        | none => d.chunk
        | some _ => { d.chunk with attempts := t + d.echoes.length }) v ∧
      DidAux u (chunkEff p offset d) v := by
  induction n generalizing u t with
  | zero =>
    refine ⟨⟨[], none⟩, u, rfl, rfl, rfl, ?_⟩
    exact DidAux.refl u
  | succ n ih =>
    have hu1 : Ready p (u.setLoop { u.loop with attempt := t }) := hu.setLoop _
    obtain ⟨dw, dr, v1, v2, lw, lr, h1, h2, e⟩ := attempt_did hu1 offset
    replace e := e.fromSetLoop
    have hrun : edidAttempts p offset (n + 1) t u = (match dr.res with
        | .echo => (do
          let _ ← auxReset p
          edidAttempts p offset n (t + 1))
        | .tmo => pure { res := .auxTimeout, data := [], attempts := t }
        | .bus => pure { res := .busErr, data := [], attempts := t }
        | .ok => (do
          match ← regReadBlock p p.CHIP_MAP.L_AUX_BUFF_START Config.CHUNK_LEN with
          | none => return { res := .busErr, data := [], attempts := t }
          | some d => return { res := .ok, data := d, attempts := t }) : Proc Chunk) v2 := by
      rcases hb : regReadBlock p p.CHIP_MAP.L_AUX_BUFF_START Config.CHUNK_LEN v2 with ⟨_ | b, w⟩ | ⟨x, w⟩ <;>
        cases hres : dr.res <;>
        simp only [edidAttempts, bind_apply, setAttempt_apply, h1, h2, hres, hb]
    have hu2 := e.ready hu
    cases hres : dr.res with
    | echo =>
      rw [hres] at hrun
      obtain ⟨d3, v3, h3, e3⟩ := auxReset_did hu2
      obtain ⟨d', w, g1, g2, g3, g4⟩ := ih (e3.ready hu2) (t + 1)
      refine ⟨⟨⟨dw, dr, d3⟩ :: d'.echoes, d'.last⟩, w, ?_, ?_, ?_, ?_⟩
      · simp only [List.all_cons, EchoDraw.legal, lw, lr, hres, decide_true, Bool.true_and]
        exact g1
      · cases hl : d'.last with
        | none => simp only [hl] at g2 ⊢; simp [g2]
        | some l => simp only [hl] at g2 ⊢; exact ⟨by simp [g2.1], g2.2⟩
      · rw [hrun]
        simp only [bind_apply, h3]
        rw [g3]
        cases hl : d'.last with
        | none => simp [ChunkDraw.chunk, hl]
        | some l =>
          simp only [ChunkDraw.chunk, hl, List.length_cons]
          have ha : t + 1 + d'.echoes.length = t + (d'.echoes.length + 1) := by omega
          rw [ha]
          cases l.read.res <;> cases l.block.bytes Config.CHUNK_LEN <;> rfl
      · have h := e.trans (e3.trans g4)
        unfold chunkEff at h ⊢
        rw [← Effect.seq_assoc (auxResetEff p d3), ← Effect.seq_assoc] at h
        exact h
    | tmo =>
      rw [hres] at hrun
      refine ⟨⟨[], some ⟨dw, dr, ⟨true, none⟩⟩⟩, v2, rfl, ⟨by simp, by simp [LastDraw.legal, lw, lr, hres]⟩, ?_, ?_⟩
      · rw [hrun]; simp [ChunkDraw.chunk, hres]
      · simpa [chunkEff, echoesEff, lastEff, hres] using e
    | bus =>
      rw [hres] at hrun
      refine ⟨⟨[], some ⟨dw, dr, ⟨true, none⟩⟩⟩, v2, rfl, ⟨by simp, by simp [LastDraw.legal, lw, lr, hres]⟩, ?_, ?_⟩
      · rw [hrun]; simp [ChunkDraw.chunk, hres]
      · simpa [chunkEff, echoesEff, lastEff, hres] using e
    | ok =>
      rw [hres] at hrun
      obtain ⟨b, v3, h3, e3⟩ := regReadBlock_did hu2 p.CHIP_MAP.L_AUX_BUFF_START Config.CHUNK_LEN
      refine ⟨⟨[], some ⟨dw, dr, b⟩⟩, v3, rfl, ⟨by simp, by simp [LastDraw.legal, lw, lr, hres]⟩, ?_, ?_⟩
      · rw [hrun]
        simp only [bind_apply, h3, ChunkDraw.chunk, hres]
        cases b.bytes Config.CHUNK_LEN <;> simp
      · have h := e.trans (.ofDid rfl e3)
        simpa [chunkEff, echoesEff, lastEff, hres] using h

/-- EdidChunk's effect (43_edid.md R162). -/
theorem edidChunk_did (hu : Ready p u) (offset : Byte) :
    ∃ (d : ChunkDraw) (v : State), d.legal p = true ∧ edidChunk p offset u = .ok d.chunk v ∧
      DidAux u (chunkEff p offset d) v := by
  obtain ⟨d, v, h1, h2, h3, h4⟩ := edidAttempts_did hu offset Config.EDID_ATTEMPTS 1
  refine ⟨d, v, ?_, ?_, h4⟩
  · unfold ChunkDraw.legal
    rw [h1]
    cases hl : d.last with
    | none => rw [hl] at h2; simpa using h2
    | some l => rw [hl] at h2; simp [h2.1, h2.2]
  · unfold edidChunk
    rw [h3]
    cases hl : d.last with
    | none => rfl
    | some l =>
      simp only [ChunkDraw.chunk, hl]
      rw [Nat.add_comm 1]
      cases l.read.res <;> cases l.block.bytes Config.CHUNK_LEN <;> rfl

/-- EdidSegChunk's effect (43_edid.md R165). -/
theorem edidSegChunk_did (hu : Ready p u) (seg offset : Byte) :
    ∃ (d : SegDraw) (v : State), d.legal p = true ∧ edidSegChunk p seg offset u = .ok d.result v ∧
      DidAux u (segEff p seg offset d) v := by
  obtain ⟨d1, v1, l1, h1, e1⟩ := auxAddrOnly_did hu Config.EDID_SEG_ADDR
  have u1 := e1.ready hu
  obtain ⟨d2, v2, l2, h2, e2⟩ := auxWrite_did u1 seg
  have u2 := e2.ready u1
  obtain ⟨d3, v3, h3, e3⟩ := regWrite_didAux u2 p.CHIP_MAP.L_AUX_ADDR_7_0 Config.EDID_DDC_ADDR
  have u3 := e3.ready u2
  by_cases hw : (d1.res.worse d2.res).worse (if d3.ok = true then .ok else .bus) = AuxRes.ok
  · obtain ⟨d4, v4, l4, h4, e4⟩ := edidChunk_did u3 offset
    refine ⟨⟨d1, d2, d3, some d4⟩, v4, ?_, ?_, ?_⟩
    · simp [SegDraw.legal, l1, l2, l4, SegDraw.worst, hw]
    · simp only [edidSegChunk, bind_apply, h1, h2, h3]
      rw [if_pos hw, h4]
      rfl
    · exact e1.trans (e2.trans (e3.trans e4))
  · refine ⟨⟨d1, d2, d3, none⟩, v3, ?_, ?_, ?_⟩
    · simp [SegDraw.legal, l1, l2, SegDraw.worst, hw]
    · simp only [edidSegChunk, bind_apply, h1, h2, h3]
      rw [if_neg hw]
      rfl
    · simpa [segEff] using e1.trans (e2.trans e3)

/-- EdidInit's effect (43_edid.md R167). -/
theorem edidInit_did (hu : Ready p u) :
    ∃ (d : InitDraw) (v : State), edidInit p u = .ok d.good v ∧ DidAux u (initEff p d) v := by
  obtain ⟨d1, v1, h1, e1⟩ := regWrite_didAux hu p.CHIP_MAP.L_AUX_ADDR_7_0 Config.EDID_DDC_ADDR
  have u1 := e1.ready hu
  obtain ⟨d2, v2, h2, e2⟩ := regWrite_didAux u1 p.CHIP_MAP.L_AUX_ADDR_15_8 0x00
  have u2 := e2.ready u1
  obtain ⟨d3, r3, v3, h3, g3, e3⟩ := regClr_didAux u2 p.CHIP_MAP.L_AUX_ADDR_19_16 p.CHIP_MAP.M_AUX_ADDR_HI_CLR
  refine ⟨⟨d1, d2, d3⟩, v3, ?_, e1.trans (e2.trans e3)⟩
  simp only [edidInit, bind_apply, h1, h2, h3, g3]
  rfl

/-- One chunk of a full read (43_edid.md R166, R170). -/
theorem readChunk_did (hu : Ready p u) (k : Nat) :
    ∃ (d : PieceDraw) (v : State), d.legal p k = true ∧ readChunk p k u = .ok d.result v ∧
      DidAux u (pieceEff p k d) v := by
  unfold readChunk
  dsimp only [Config.CHUNKS_PER_GROUP]
  by_cases hk : k / 8 ≤ 1
  · obtain ⟨d, v, l, h, e⟩ := edidChunk_did hu (BitVec.ofNat 8 ((8 * (k / 8) + k % 8) * 16))
    refine ⟨.direct d, v, by simp [PieceDraw.legal, hk, l], by rw [if_pos hk]; exact h, ?_⟩
    have hkk : 8 * (k / 8) + k % 8 = k := Nat.div_add_mod k 8
    rw [hkk] at e
    exact e
  · obtain ⟨d, v, l, h, e⟩ := edidSegChunk_did hu (BitVec.ofNat 8 (k / 8 / 2))
      (BitVec.ofNat 8 ((if k / 8 = 2 then 0x00 else 0x80) + 16 * (k % 8)))
    exact ⟨.segment d, v, by simp [PieceDraw.legal, l]; omega, by rw [if_neg hk]; exact h, e⟩

theorem range_filter_succ (k n : Nat) (f : Nat → Bool) :
    ((List.range' k (n + 1)).filter f).length = (if f k then 1 else 0) + ((List.range' (k + 1) n).filter f).length := by
  rw [List.range'_succ, List.filter_cons]
  split <;> simp [Nat.add_comm]

/-- Collecting chunks from chunk `k` on, `n` of them left (43_edid.md R169, R170). -/
theorem edidCollect_did (hu : Ready p u) (size n k nOk nCopied : Nat) :
    ∃ (ds : List PieceDraw) (v : State),
      piecesLegal p k ds = true ∧ ds.length ≤ n ∧ (ds.length = n ∨ (failCode ds).isSome = true) ∧
      edidCollect p size n k nOk nCopied u = .ok
        { fail := failCode ds, nOk := nOk + okPieces ds,
          nCopied := nCopied +
            ((List.range' k (okPieces ds)).filter fun k => decide (chunkDest k + 16 ≤ size)).length } v ∧
      Did u (piecesEff p k ds)
        { u.shadow.withStatus (piecesEff p k ds) with edidBuf := piecesBuf size k u.shadow.edidBuf ds } u.pstate v := by
  induction n generalizing u k nOk nCopied with
  | zero => exact ⟨[], u, rfl, by simp, .inl rfl, rfl, Did.refl u⟩
  | succ n ih =>
    have hu1 : Ready p (u.setLoop { u.loop with chunk := k }) := hu.setLoop _
    obtain ⟨d, v, hl, hv, e⟩ := readChunk_did hu1 k
    replace e := e.fromSetLoop
    have hrun : edidCollect p size (n + 1) k nOk nCopied u =
        (if d.result.res ≠ .ok then pure { fail := some d.result.res, nOk := nOk, nCopied := nCopied }
        else if chunkDest k + 16 ≤ size then do
          writeShadow fun r => { r with edidBuf := Memory.write r.edidBuf (chunkDest k) d.result.data }
          edidCollect p size n (k + 1) (nOk + 1) (nCopied + 1)
        else edidCollect p size n (k + 1) (nOk + 1) nCopied : Proc Collected) v := by
      simp only [edidCollect, bind_apply, setChunk_apply, hv]
    by_cases hr : d.result.res = .ok
    · rw [if_neg (by simp [hr])] at hrun
      have hu2 := e.ready hu
      by_cases hfit : chunkDest k + 16 ≤ size
      · rw [if_pos hfit] at hrun
        simp only [bind_apply, writeShadow_apply] at hrun
        obtain ⟨ds, w, g1, g2, g3, g4, g5⟩ := ih (hu2.setShadow { v.shadow with edidBuf := Memory.write v.shadow.edidBuf (chunkDest k) d.result.data }) (k + 1) (nOk + 1) (nCopied + 1)
        refine ⟨d :: ds, w, ?_, by simp [g2], ?_, ?_, ?_⟩
        · simp [piecesLegal, hl, hr, g1]
        · rcases g3 with g3 | g3
          · exact .inl (by simp [g3])
          · exact .inr (by simpa [failCode, List.find?_cons, hr] using g3)
        · rw [hrun, g4]
          have ho : okPieces (d :: ds) = okPieces ds + 1 := by simp [okPieces, hr]
          rw [ho, range_filter_succ]
          simp [failCode, hr, hfit]
          omega
        · have h2 := Did.trans (Did.setShadow e { v.shadow with edidBuf := Memory.write v.shadow.edidBuf (chunkDest k) d.result.data }) g5
          have hsh : v.shadow = u.shadow.withStatus (pieceEff p k d) := Did.shadow e
          have hps : v.pstate = u.pstate := Did.pstate e
          simp only [State.setShadow_shadow, State.setShadow_pstate, hsh, hps] at h2
          simp only [piecesEff, piecesBuf, hr, hfit, and_self, if_true, Results.withStatus_seq]
          exact h2
      · rw [if_neg hfit] at hrun
        obtain ⟨ds, w, g1, g2, g3, g4, g5⟩ := ih hu2 (k + 1) (nOk + 1) nCopied
        refine ⟨d :: ds, w, ?_, by simp [g2], ?_, ?_, ?_⟩
        · simp [piecesLegal, hl, hr, g1]
        · rcases g3 with g3 | g3
          · exact .inl (by simp [g3])
          · exact .inr (by simpa [failCode, List.find?_cons, hr] using g3)
        · rw [hrun, g4]
          have ho : okPieces (d :: ds) = okPieces ds + 1 := by simp [okPieces, hr]
          rw [ho, range_filter_succ]
          simp [failCode, hr, hfit]
          omega
        · have h2 := Did.trans e g5
          have hsh : v.shadow = u.shadow.withStatus (pieceEff p k d) := Did.shadow e
          have hps : v.pstate = u.pstate := Did.pstate e
          simp only [hsh, hps] at h2
          simp only [piecesEff, piecesBuf, hr, hfit, and_false, if_false, Results.withStatus_seq]
          exact h2
    · rw [if_pos hr] at hrun
      refine ⟨[d], v, ?_, by simp, .inr (by simp [failCode, hr]), ?_, ?_⟩
      · simp [piecesLegal, hl]
      · rw [hrun]
        simp [failCode, hr, okPieces]
      · simp only [piecesEff, Effect.seq_nil, piecesBuf, hr, false_and, if_false]
        exact e

end Sys2Proof.Machine
end

