-- ==== Sys2Proof/Laws/RunPower.lean ====
section
/-! SUPPORT. Which effect each video and power procedure has (45_video_config.md, 46_power_link.md). -/

namespace Sys2Proof.Machine

variable {p : Params} {u v w : State}

/-- A run that changed neither the shadow nor PSTATE. -/
def DidPlain (u : State) (e : Effect) (v : State) : Prop := Did u e u.shadow u.pstate v

theorem DidPlain.refl (u : State) : DidPlain u {} u := Did.refl u

theorem DidPlain.trans {e e' : Effect} (h : DidPlain u e v) (h' : DidPlain v e' w) : DidPlain u (e.seq e') w := by
  unfold DidPlain at *
  have h2 := Did.trans h h'
  rwa [h.shadow, h.pstate] at h2

theorem DidPlain.ready {e : Effect} (h : DidPlain u e v) (hu : Ready p u) : Ready p v := Did.ready h hu

/-- MnStrobe's effect (45_video_config.md R229). -/
theorem mnStrobe_did (hu : Ready p u) :
    ∃ (low high : RmwDraw) (v : State), mnStrobe p u = .ok () v ∧ DidPlain u (strobeEff p low high) v := by
  obtain ⟨d1, v1, h1, e1⟩ := regClr_did hu p.CHIP_MAP.L_MN_READY (p.CHIP_MAP.M_M_READY ||| p.CHIP_MAP.M_N_READY)
  have u1 := e1.ready hu
  obtain ⟨v2, h2, e2⟩ := delay_did u1 Config.MN_STROBE_MS
  have u2 := e2.ready u1
  obtain ⟨d3, v3, h3, e3⟩ := regSet_did u2 p.CHIP_MAP.L_MN_READY (p.CHIP_MAP.M_M_READY ||| p.CHIP_MAP.M_N_READY)
  refine ⟨d1, d3, v3, ?_, DidPlain.trans e1 (DidPlain.trans e2 e3)⟩
  simp only [mnStrobe, bind_apply, h1, h2, h3, pure_apply]

theorem programLanes_did (hu : Ready p u) :
    ∃ (a b c : RmwDraw) (v : State), programLanes p u = .ok () v ∧
      DidPlain u ((clrEff p.CHIP_MAP.L_LANE_CTRL p.CHIP_MAP.M_LANE_COUNT a).seq
        ((setEff p.CHIP_MAP.L_LANE_CTRL p.CHIP_MAP.K_LANE_1 b).seq
          (setEff p.CHIP_MAP.L_LANE_SWAP p.CHIP_MAP.M_LANE3_SWAP c))) v := by
  obtain ⟨d1, v1, h1, e1⟩ := regClr_did hu p.CHIP_MAP.L_LANE_CTRL p.CHIP_MAP.M_LANE_COUNT
  have u1 := e1.ready hu
  obtain ⟨d2, v2, h2, e2⟩ := regSet_did u1 p.CHIP_MAP.L_LANE_CTRL p.CHIP_MAP.K_LANE_1
  have u2 := e2.ready u1
  obtain ⟨d3, v3, h3, e3⟩ := regSet_did u2 p.CHIP_MAP.L_LANE_SWAP p.CHIP_MAP.M_LANE3_SWAP
  refine ⟨d1, d2, d3, v3, ?_, DidPlain.trans e1 (DidPlain.trans e2 e3)⟩
  simp only [programLanes, bind_apply, h1, h2, h3, pure_apply]

theorem programPostdiv_did (hu : Ready p u) (pd : Nat) :
    ∃ (a : WrDraw) (b c : RmwDraw) (v : State), programPostdiv p pd u = .ok () v ∧
      DidPlain u ((writeEff p.CHIP_MAP.L_POSTDIV (p.CHIP_MAP.M_REFCLK_SEL ||| BitVec.ofNat 8 (pd - 1)) a).seq
        ((clrEff p.CHIP_MAP.L_PLL_RST p.CHIP_MAP.M_PLL_RST_EN b).seq
          (setEff p.CHIP_MAP.L_PLL_RST p.CHIP_MAP.M_PLL_RST_EN c))) v := by
  obtain ⟨d1, v1, h1, e1⟩ := regWrite_did hu p.CHIP_MAP.L_POSTDIV (p.CHIP_MAP.M_REFCLK_SEL ||| BitVec.ofNat 8 (pd - 1))
  have u1 := e1.ready hu
  obtain ⟨d2, v2, h2, e2⟩ := regClr_did u1 p.CHIP_MAP.L_PLL_RST p.CHIP_MAP.M_PLL_RST_EN
  have u2 := e2.ready u1
  obtain ⟨d3, v3, h3, e3⟩ := regSet_did u2 p.CHIP_MAP.L_PLL_RST p.CHIP_MAP.M_PLL_RST_EN
  refine ⟨d1, d2, d3, v3, ?_, DidPlain.trans e1 (DidPlain.trans e2 e3)⟩
  simp only [programPostdiv, bind_apply, h1, h2, h3, pure_apply]

theorem writesEff_append (ws ws' : List (Loc × Byte)) (ds ds' : List WrDraw) (h : ds.length = ws.length) :
    writesEff (ws ++ ws') (ds ++ ds') = (writesEff ws ds).seq (writesEff ws' ds') := by
  induction ws generalizing ds with
  | nil =>
    cases ds with
    | nil => simp [writesEff]
    | cons d ds => cases h
  | cons w ws ih =>
    cases ds with
    | nil => cases h
    | cons d ds => simp [writesEff, ih ds (by simpa using h), Effect.seq_assoc]

/-- FwReady's effect (46_power_link.md R241, R242). -/
theorem fwReady_did (hu : Ready p u) :
    ∃ (d : FwDraw) (v : State), fwReady p u = .ok (d.info p) v ∧ DidPlain u (fwEff p d) v := by
  obtain ⟨d1, v1, h1, e1⟩ := regPoll_did hu p.CHIP_MAP.L_FW_LOAD
  have u1 := e1.ready hu
  by_cases hl : FwDraw.loaded p ⟨d1, d1, d1⟩ = true
  · obtain ⟨d2, v2, h2, e2⟩ := regPoll_did u1 p.CHIP_MAP.L_FW_VER
    have u2 := e2.ready u1
    obtain ⟨d3, v3, h3, e3⟩ := regPoll_did u2 p.CHIP_MAP.L_FW_REV
    have hl' : FwDraw.loaded p ⟨d1, d2, d3⟩ = true := hl
    refine ⟨⟨d1, d2, d3⟩, v3, ?_, ?_⟩
    · simp only [fwReady, bind_apply, h1]
      cases hv : d1.v with
      | none => simp [FwDraw.loaded, hv] at hl
      | some b =>
        have hb : b &&& p.CHIP_MAP.M_FW_LOADED = p.CHIP_MAP.M_FW_LOADED := by
          simpa [FwDraw.loaded, hv] using hl
        simp only [FwDraw.info, hl']
        rw [if_neg (fun h => h hb)]
        simp only [bind_apply, h2, h3]
        cases d2.v <;> cases d3.v <;> rfl
    · unfold fwEff
      rw [if_pos hl']
      exact DidPlain.trans e1 (DidPlain.trans e2 e3)
  · refine ⟨⟨d1, d1, d1⟩, v1, ?_, ?_⟩
    · have hf : FwDraw.loaded p ⟨d1, d1, d1⟩ = false := by simpa using hl
      simp only [fwReady, bind_apply, h1, FwDraw.info, hf]
      cases hv : d1.v with
      | none => rfl
      | some b =>
        have hb : b &&& p.CHIP_MAP.M_FW_LOADED ≠ p.CHIP_MAP.M_FW_LOADED := by
          simpa [FwDraw.loaded, hv] using hl
        simp only [if_pos hb]
        rfl
    · unfold fwEff
      rw [if_neg hl, Effect.seq_nil]
      exact e1

/-- The firmware polls of an attempt from poll `k` on, `n` of them left (46_power_link.md R242). -/
theorem fwPolls_did (hu : Ready p u) (n k : Nat) :
    (∃ (ds : List FwDraw) (v : State), ds.all (fun d => (d.info p).isNone) = true ∧ ds.length = n ∧
      fwPolls p n k u = .ok none v ∧ DidPlain u (fwPollsEff p ds) v) ∨
    (∃ (ds : List FwDraw) (d : FwDraw) (vr : Byte × Byte) (v : State),
      ds.all (fun d => (d.info p).isNone) = true ∧ ds.length < n ∧ d.info p = some vr ∧
      fwPolls p n k u = .ok (some vr) v ∧ DidPlain u ((fwPollsEff p ds).seq (fwEff p d)) v) := by
  induction n generalizing u k with
  | zero => exact .inl ⟨[], u, rfl, rfl, rfl, DidPlain.refl u⟩
  | succ n ih =>
    have hu1 : Ready p (u.setLoop { u.loop with poll := k }) := hu.setLoop _
    obtain ⟨d, v1, h1, e1⟩ := fwReady_did hu1
    replace e1 : DidPlain u (fwEff p d) v1 := e1
    have u1 := e1.ready hu
    cases hi : d.info p with
    | some vr =>
      refine .inr ⟨[], d, vr, v1, rfl, by simp, hi, ?_, by simpa [fwPollsEff] using e1⟩
      simp only [fwPolls, bind_apply, setPoll_apply, h1, hi]
      rfl
    | none =>
      obtain ⟨v2, h2, e2⟩ := delay_did u1 Config.FW_POLL_MS
      have e12 : DidPlain u ((fwEff p d).seq (delayEff Config.FW_POLL_MS)) v2 := e1.trans e2
      have hrun : fwPolls p (n + 1) k u = fwPolls p n (k + 1) v2 := by
        simp only [fwPolls, bind_apply, setPoll_apply, h1, hi, h2]
      rcases ih (e12.ready hu) (k + 1) with ⟨ds, w, g1, g2, g3, g4⟩ | ⟨ds, d', vr, w, g1, g2, g3, g4, g5⟩
      · refine .inl ⟨d :: ds, w, by simp [hi]; simpa using g1, by simp [g2], by rw [hrun, g3], ?_⟩
        have h := e12.trans g4
        rwa [Effect.seq_assoc] at h
      · refine .inr ⟨d :: ds, d', vr, w, by simp [hi]; simpa using g1, by simp [g2], g3, by rw [hrun, g4], ?_⟩
        have h := e12.trans g5
        simpa only [fwPollsEff, Effect.seq_assoc] using h

/-- PowerDown's effect (46_power_link.md R243). -/
theorem powerDown_did (hu : Ready p u) :
    ∃ v, powerDown p u = .ok () v ∧ Did u (powerDownEff p) u.shadow .off v := by
  obtain ⟨v1, h1, e1⟩ := gpioSet_did hu .RST_REL false
  have u1 := e1.ready hu
  obtain ⟨v2, h2, e2⟩ := gpioSet_did u1 .PWR_EN false
  have u2 := e2.ready u1
  obtain ⟨v3, h3, e3⟩ := delay_did u2 p.T_OFF_MS
  have u3 := e3.ready u2
  obtain ⟨v4, h4, e4⟩ := setPState_did u3 .off
  refine ⟨v4, by simp only [powerDown, bind_apply, h1, h2, h3, h4], ?_⟩
  have h := e1.trans (e2.trans (e3.trans e4))
  rw [e3.shadow, e2.shadow, e1.shadow, Effect.seq_nil] at h
  exact h

/-- The start of an attempt (46_power_link.md R240). -/
theorem powerOn_did (hu : Ready p u) :
    ∃ v, powerOn p u = .ok () v ∧ Did u (powerOnEff p) u.shadow .poweringUp v := by
  obtain ⟨v0, h0, e0⟩ := setPState_did hu .poweringUp
  have u0 := e0.ready hu
  obtain ⟨v1, h1, e1⟩ := gpioSet_did u0 .PWR_EN true
  have u1 := e1.ready u0
  obtain ⟨v2, h2, e2⟩ := delay_did u1 p.T_PWR_MS
  have u2 := e2.ready u1
  obtain ⟨v3, h3, e3⟩ := gpioSet_did u2 .RST_REL true
  have u3 := e3.ready u2
  obtain ⟨v4, h4, e4⟩ := delay_did u3 p.T_RST_MS
  refine ⟨v4, by simp only [powerOn, bind_apply, h0, h1, h2, h3, h4], ?_⟩
  have h := e0.trans (e1.trans (e2.trans (e3.trans e4)))
  rw [e3.shadow, e2.shadow, e1.shadow, e0.shadow, e3.pstate, e2.pstate, e1.pstate, e0.pstate] at h
  simpa [powerOnEff] using h

/-- The attempts of POWER_UP from attempt `a` on, `n` of them left (46_power_link.md R240, R244). -/
theorem powerAttempts_did (hu : Ready p u) (n a : Nat) :
    (∃ (as : List (List FwDraw)) (v : State), as.all (failedLegal p) = true ∧ as.length = n ∧
      powerAttempts p n a u = .ok .fwTimeout v ∧
      Did u (failedEff p as) { u.shadow with rdata := BitVec.ofNat 32 Config.POWERUP_ATTEMPTS }
        (if n = 0 then u.pstate else .off) v) ∨
    (∃ (as : List (List FwDraw)) (d : ReadyDraw) (vr : Byte × Byte) (v : State),
      as.all (failedLegal p) = true ∧ as.length < n ∧ d.legal p vr = true ∧
      powerAttempts p n a u = .ok v.acc.endCode v ∧
      Did u ((failedEff p as).seq (readyEff p d))
        { u.shadow with fwVersion := vr.1, fwRevision := vr.2, rdata := BitVec.ofNat 32 (a + as.length) }
        .firmwareLoaded v) := by
  induction n generalizing u a with
  | zero =>
    refine .inl ⟨[], u.setShadow { u.shadow with rdata := BitVec.ofNat 32 Config.POWERUP_ATTEMPTS }, rfl, rfl, ?_, ?_⟩
    · simp only [powerAttempts, bind_apply, setRdata_apply]
      rfl
    · exact Did.setShadow (Did.refl u) _
  | succ n ih =>
    have hu1 : Ready p (u.setLoop { u.loop with attempt := a }) := hu.setLoop _
    obtain ⟨v1, h1, e1⟩ := powerOn_did hu1
    replace e1 : Did u (powerOnEff p) u.shadow .poweringUp v1 := e1
    have u1 := e1.ready hu
    rcases fwPolls_did u1 p.FW_POLL_MAX 1 with ⟨ds, v2, g1, g2, g3, g4⟩ | ⟨ds, d', vr, v2, g1, g2, g3, g4, g5⟩
    · have u2 := g4.ready u1
      obtain ⟨v3, h3, e3⟩ := powerDown_did u2
      have hrun : powerAttempts p (n + 1) a u = powerAttempts p n (a + 1) v3 := by
        simp only [powerAttempts, bind_apply, setAttempt_apply, h1, g3, h3]
      have g4' : Did v1 (fwPollsEff p ds) v1.shadow v1.pstate v2 := g4
      have e : Did u ((powerOnEff p).seq ((fwPollsEff p ds).seq (powerDownEff p))) u.shadow .off v3 := by
        have h := e1.trans (g4'.trans e3)
        rwa [g4'.shadow, e1.shadow] at h
      have hf : failedLegal p ds = true := by simp [failedLegal, g2]; simpa using g1
      rcases ih (e.ready hu) (a + 1) with ⟨as, w, k1, k2, k3, k4⟩ | ⟨as, d', vr, w, k1, k2, k3, k4, k5⟩
      · refine .inl ⟨ds :: as, w, by simp [hf]; simpa using k1, by simp [k2], by rw [hrun, k3], ?_⟩
        have h := e.trans k4
        rw [e.shadow, e.pstate, ite_self] at h
        rw [if_neg (by omega)]
        simpa only [failedEff, Effect.seq_assoc] using h
      · refine .inr ⟨ds :: as, d', vr, w, by simp [hf]; simpa using k1, by simp [k2], k3, by rw [hrun, k4], ?_⟩
        have h := e.trans k5
        rw [e.shadow] at h
        have ha : a + (as.length + 1) = a + 1 + as.length := by omega
        simp only [failedEff, Effect.seq_assoc, List.length_cons, ha] at h ⊢
        exact h
    · have u2 := g5.ready u1
      have g5' : Did v1 ((fwPollsEff p ds).seq (fwEff p d')) v1.shadow v1.pstate v2 := g5
      have u2' : Ready p (v2.setShadow { v2.shadow with fwVersion := vr.1, fwRevision := vr.2 }) := u2.setShadow _
      obtain ⟨v3, h3, e3⟩ := setPState_did u2' .firmwareLoaded
      have e3' : Did v2 {} { v2.shadow with fwVersion := vr.1, fwRevision := vr.2 } .firmwareLoaded v3 := e3
      refine .inr ⟨[], ⟨ds, d'⟩, vr, v3.setShadow { v3.shadow with rdata := BitVec.ofNat 32 a }, rfl, by simp, ?_, ?_, ?_⟩
      · simp [ReadyDraw.legal, g2, g3]; simpa using g1
      · simp only [powerAttempts, bind_apply, setAttempt_apply, h1, g4, setFwInfo, writeShadow_apply, h3,
          setRdata_apply, endCode_apply]
      · have h := (e1.trans (g5'.trans e3')).setShadow { v3.shadow with rdata := BitVec.ofNat 32 a }
        have hs : v3.shadow = { u.shadow with fwVersion := vr.1, fwRevision := vr.2 } := by
          rw [e3'.shadow, g5'.shadow, e1.shadow]
        simpa [failedEff, readyEff, hs] using h

/-- StartSequence's effect (46_power_link.md R247). -/
theorem startSequence_did (hu : Ready p u) :
    ∃ (a b c : RmwDraw) (v : State), startSequence p u = .ok () v ∧
      DidPlain u ((clrEff p.CHIP_MAP.L_HDCP_CAP p.CHIP_MAP.M_HDCP_CAP a).seq
        ((setEff p.CHIP_MAP.L_AUTH p.CHIP_MAP.M_AUTH b).seq
          (setEff p.CHIP_MAP.L_DRM_INT p.CHIP_MAP.M_DRM_INT c))) v := by
  obtain ⟨d1, v1, h1, e1⟩ := regClr_did hu p.CHIP_MAP.L_HDCP_CAP p.CHIP_MAP.M_HDCP_CAP
  have u1 := e1.ready hu
  obtain ⟨d2, v2, h2, e2⟩ := regSet_did u1 p.CHIP_MAP.L_AUTH p.CHIP_MAP.M_AUTH
  have u2 := e2.ready u1
  obtain ⟨d3, v3, h3, e3⟩ := regSet_did u2 p.CHIP_MAP.L_DRM_INT p.CHIP_MAP.M_DRM_INT
  refine ⟨d1, d2, d3, v3, ?_, DidPlain.trans e1 (DidPlain.trans e2 e3)⟩
  simp only [startSequence, bind_apply, h1, h2, h3, pure_apply]

/-- The HPD polls from poll `i` on, `n` of them left (46_power_link.md R245, R246, R248). -/
theorem hpdPolls_did (hu : Ready p u) (n i : Nat) :
    (∃ (ds : List RdDraw) (v : State), ds.all (noHpd p) = true ∧ ds.length = n ∧
      hpdPolls p n i u = .ok .hpdTimeout v ∧
      Did u (hpdPollsEff p ds) { u.shadow with rdata := BitVec.ofNat 32 Config.HPD_POLL_MAX } u.pstate v) ∨
    (∃ (d : HpdDraw) (v : State), d.before.all (noHpd p) = true ∧ d.before.length < n ∧ noHpd p d.seen = false ∧
      hpdPolls p n i u = .ok v.acc.endCode v ∧
      Did u (hpdEff p d) { u.shadow with rdata := BitVec.ofNat 32 (i + d.before.length) } .linkReady v) := by
  induction n generalizing u i with
  | zero =>
    refine .inl ⟨[], u.setShadow { u.shadow with rdata := BitVec.ofNat 32 Config.HPD_POLL_MAX }, rfl, rfl, ?_, ?_⟩
    · simp only [hpdPolls, bind_apply, setRdata_apply]
      rfl
    · exact Did.setShadow (Did.refl u) _
  | succ n ih =>
    have hu1 : Ready p (u.setLoop { u.loop with poll := i }) := hu.setLoop _
    obtain ⟨v1, h1, e1⟩ := delay_did hu1 Config.HPD_POLL_MS
    replace e1 : DidPlain u (delayEff Config.HPD_POLL_MS) v1 := e1
    have u1 := e1.ready hu
    obtain ⟨d, v2, h2, e2⟩ := regPoll_did u1 p.CHIP_MAP.L_SYS_STATUS
    have e12 : DidPlain u (hpdPollEff p d) v2 := e1.trans e2
    have u2 := e12.ready hu
    have hrun : hpdPolls p (n + 1) i u = (match d.v with
        | none => hpdPolls p n (i + 1)
        | some s => if s &&& p.CHIP_MAP.M_HPD ≠ 0 then hpdSeen p i else hpdPolls p n (i + 1)) v2 := by
      cases hdv : d.v <;> simp only [hpdPolls, bind_apply, setPoll_apply, h1, h2, hdv]
    by_cases hd : noHpd p d = true
    · have hrun' : hpdPolls p (n + 1) i u = hpdPolls p n (i + 1) v2 := by
        rw [hrun]
        cases hv : d.v with
        | none => rfl
        | some s =>
          have hs : s &&& p.CHIP_MAP.M_HPD = 0 := by simpa [noHpd, hv] using hd
          simp only
          rw [if_neg (fun h => h hs)]
      have e12' : Did u (hpdPollEff p d) u.shadow u.pstate v2 := e12
      rcases ih u2 (i + 1) with ⟨ds, w, k1, k2, k3, k4⟩ | ⟨d', w, k1, k2, k3, k4, k5⟩
      · refine .inl ⟨d :: ds, w, by simp [hd]; simpa using k1, by simp [k2], by rw [hrun', k3], ?_⟩
        have h := e12'.trans k4
        rwa [e12'.shadow, e12'.pstate] at h
      · refine .inr ⟨{ d' with before := d :: d'.before }, w, by simp [hd]; simpa using k1, by simp [k2], k3,
          by rw [hrun', k4], ?_⟩
        have h := e12'.trans k5
        have ha : i + (d'.before.length + 1) = i + 1 + d'.before.length := by omega
        rw [e12'.shadow] at h
        simp only [hpdEff, startEff, hpdPollsEff, Effect.seq_assoc, List.length_cons, ha] at h ⊢
        exact h
    · have hd' : noHpd p d = false := by simpa using hd
      obtain ⟨a, b, c, v3, h3, e3⟩ := startSequence_did u2
      have e3' : Did v2 _ v2.shadow v2.pstate v3 := e3
      obtain ⟨v4, h4, e4⟩ := setPState_did (e3.ready u2) .linkReady
      refine .inr ⟨⟨[], d, a, b, c⟩, v4.setShadow { v4.shadow with rdata := BitVec.ofNat 32 i }, rfl, by simp, hd', ?_, ?_⟩
      · rw [hrun]
        cases hv : d.v with
        | none => simp [noHpd, hv] at hd'
        | some s =>
          have hs : s &&& p.CHIP_MAP.M_HPD ≠ 0 := by simpa [noHpd, hv] using hd'
          simp only
          rw [if_pos hs]
          simp only [hpdSeen, bind_apply, h3, h4, setRdata_apply, endCode_apply]
      · have e12' : Did u (hpdPollEff p d) u.shadow u.pstate v2 := e12
        have h := (e12'.trans (e3'.trans e4)).setShadow { v4.shadow with rdata := BitVec.ofNat 32 i }
        have hs : v4.shadow = u.shadow := by rw [e4.shadow, e3'.shadow, e12'.shadow]
        simpa [hpdEff, hpdPollsEff, startEff, hs] using h

end Sys2Proof.Machine
end

