-- ==== Sys2Proof/Tests/Slice0.lean ====
section
/-! SUPPORT. The model's own tests. The expected values are those of spec/95_test_vectors.md and of the examples in the
rules; each test names its vector or rule. They run on P_EX (95_test_vectors.md 1.2), with the mock chip's answers
written out. After them, one witness for each statement that has hypotheses: a state and operands that meet them. -/

namespace Sys2Proof.Machine

/-! ## Helpers -/

/-- The chip answers, and every byte of a read is `b`. -/
def chipByte (b : Byte) : BusAnswer := { ok := true, data := Vector.replicate 16 b }
/-- The chip answers. -/
def chipOk : BusAnswer := chipByte 0x00
/-- The chip does not answer. -/
def chipFails : BusAnswer := { ok := false, data := Vector.replicate 16 0x00 }
/-- The chip answers, and the bytes of a read count up from `b`. -/
def chipCount (b : Byte) : BusAnswer := { ok := true, data := Vector.ofFn fun k => b + BitVec.ofNat 8 k.val }
/-- The reset state on P_EX, with the chip's next answers. -/
def fresh (chip : List BusAnswer) : State := { State.reset with params := {}, chip := chip }
/-- The same, the last access having been to `sa`. -/
def after (sa : Byte) (chip : List BusAnswer) : State := { fresh chip with la := ⟨true, sa⟩, lastAddr := ⟨true, sa⟩ }
/-- The state an outcome holds. -/
def stateOf (o : Outcome) : State :=
  match o with
  | .next t => t
  | .refused _ => State.reset
/-- Run the command with this word. -/
def runCmd (w : Nat) (s : State) : State := stateOf (step (s.withFetchWord 32 w))
/-- The trace, STATUS, RDATA and ERR_ACC after the command with this word. -/
def seen (w : Nat) (s : State) : List Event × Word × Word × Word :=
  let t := runCmd w s
  (t.trace, readReg .status t, readReg .rdata t, readReg .errAcc t)
/-- A write event that the chip answered. -/
def wr (sa off v : Byte) : Event := .w sa [off, v] true
/-- A one-byte read event that the chip answered. -/
def rd (sa off v : Byte) : Event := .wr sa [off] 1 true [v]

/-! ## WellFormed and the parameter checks: each refuses an ill-formed term -/

theorem test_wf_block_len_0 : Instr.wf (.regReadBlock 0x11 0x30 0) = false := by decide
theorem test_wf_block_len_17 : Instr.wf (.regReadBlock 0x11 0x30 17) = false := by decide
theorem test_wf_block_len_16 : Instr.wf (.regReadBlock 0x11 0x30 16) = true := by decide
theorem test_params_example : Params.example.wf = true := by decide
theorem test_params_bounds :
    Params.pllBoundsOk { Params.example with PLL_OUT_FREQ_ABS_MIN := 520000001 } = false := by decide
theorem test_params_divider : Params.pllBoundsOk { Params.example with PLL_OUT_FREQ_ABS_MIN := 15 } = false := by decide
theorem test_params_polls : Params.countsOk { Params.example with FW_POLL_MAX := 0 } = false := by decide
theorem test_params_clock : Params.countsOk { Params.example with CLK_PER_MS := 0 } = false := by decide
theorem test_params_aux_enable :
    Params.auxEnableOk { Params.example with CHIP_MAP := { Params.example.CHIP_MAP with M_AUX_OP_EN := 0x18 } } = false := by
  decide
theorem test_params_keys :
    Params.waTableOk { Params.example with WA_TABLE := [(0x11, 1), (0x11, 2)] } = false := by decide
theorem test_params_six_keys :
    Params.waTableOk { Params.example with WA_TABLE := [(1, 1), (2, 2), (3, 3), (4, 4), (5, 5), (6, 6)] } = false := by
  decide
theorem test_params_refclk :
    Params.refclkOk { Params.example with CHIP_MAP := { Params.example.CHIP_MAP with M_REFCLK_SEL := 0x21 } } = false := by
  decide
theorem test_params_lane :
    Params.laneOk { Params.example with CHIP_MAP := { Params.example.CHIP_MAP with K_LANE_1 := 0x04 } } = false := by
  decide
theorem test_params_refused : ParamSet.ofParams { Params.example with FW_POLL_MAX := 0 } = none := by decide

/-! ## Decoding: every command's word, written from 30_encoding.md R101 and R102 (the words of vector ENC-1) -/

theorem test_decode_nop : decodeWord 0x00000000 = .ok .nop := by decide
theorem test_decode_reg_read : decodeWord 0x00241101 = .ok (.regRead 0x11 0x24) := by decide
theorem test_decode_reg_write : decodeWord 0xAB103802 = .ok (.regWrite 0x38 0x10 0xAB) := by decide
theorem test_decode_reg_read_block : decodeWord 0x10301103 = .ok (.regReadBlock 0x11 0x30 16) := by decide
theorem test_decode_reg_set : decodeWord 0x10241104 = .ok (.regSet 0x11 0x24 0x10) := by decide
theorem test_decode_reg_clr : decodeWord 0x04071505 = .ok (.regClr 0x15 0x07 0x04) := by decide
theorem test_decode_aux_write : decodeWord 0x007E0010 = .ok (.auxWrite 0x7E) := by decide
theorem test_decode_aux_read : decodeWord 0xA3000011 = .ok (.auxRead 0xA3) := by decide
theorem test_decode_aux_reset : decodeWord 0x00000012 = .ok .auxReset := by decide
theorem test_decode_edid_block_count : decodeWord 0x00000020 = .ok .edidBlockCount := by decide
theorem test_decode_edid_read_chunk : decodeWord 0x00100021 = .ok (.edidReadChunk 0x10) := by decide
theorem test_decode_edid_read_segment : decodeWord 0x00800122 = .ok (.edidReadSegment 1 0x80) := by decide
theorem test_decode_edid_read_full : decodeWord 0x00000023 = .ok .edidReadFull := by decide
theorem test_decode_pll_solve : decodeWord 0x12345630 = .ok .pllSolve := by decide
theorem test_decode_video_config : decodeWord 0x00000040 = .ok .videoConfig := by decide
theorem test_decode_mn_strobe : decodeWord 0x00000041 = .ok .mnStrobe := by decide
theorem test_decode_power_up : decodeWord 0x00000050 = .ok .powerUp := by decide
theorem test_decode_wait_hpd : decodeWord 0x00000051 = .ok .waitHpd := by decide
theorem test_decode_power_role : decodeWord 0x00000052 = .ok .powerRole := by decide
theorem test_decode_power_off : decodeWord 0x00000053 = .ok .powerOff := by decide
theorem test_decode_illegal : decodeWord 0xFF000006 = .error (.illegalOpcode 0x06) := by decide
theorem test_decode_ignored_fields : decodeWord 0xFFFFFF00 = .ok .nop := by decide
theorem test_table_word : decodeTableWord 32 0x04071505 = some (.regClr 0x15 0x07 0x04) := by decide

/-! ## One step of each command -/

/-- ENC-4. -/
theorem test_nop : seen 0x00000000 (fresh []) = ([], 0x00000002, 0, 0) := by decide
/-- ENC-3. -/
theorem test_illegal : seen 0x000000FF (fresh []) = ([], 0x00FF0906, 0, 0x20) := by decide
/-- REG-1. -/
theorem test_reg_read : seen 0x00241101 (fresh [chipOk, chipByte 0x5A]) =
    ([wr 0x11 0xE1 0x00, rd 0x11 0x24 0x5A], 0x00010002, 0x5A, 0) := by decide
/-- REG-10. -/
theorem test_reg_read_fails : seen 0x00241201 (after 0x12 [chipFails]) =
    ([.wr 0x12 [0x24] 1 false []], 0x00010306, 0, 0x01) := by decide
/-- REG-5. -/
theorem test_reg_write : seen 0xA1231102 (after 0x15 [chipOk, chipOk]) =
    ([wr 0x11 0xE1 0x00, wr 0x11 0x23 0xA1], 0x00020002, 0, 0) := by decide
/-- REG-9: the workaround write fails. -/
theorem test_workaround_fails : seen 0x00241201 (after 0x11 [chipFails, chipOk]) =
    ([.w 0x12 [0xE2, 0x00] false, rd 0x12 0x24 0x00], 0x00010002, 0, 0x02) := by decide
/-- REG-7. -/
theorem test_reg_read_block : (readReg (.dbuf 0) (runCmd 0x03301103 (after 0x11 [chipCount 0])),
    readReg (.dbuf 1) (runCmd 0x03301103 (after 0x11 [chipCount 0]))) = (0x00020100, 0) := by decide
/-- REG-8. -/
theorem test_reg_read_block_len : seen 0x11301103 (after 0x11 []) = ([], 0x00030906, 0, 0x20) := by decide
/-- REG-3. -/
theorem test_reg_set : seen 0x10241104 (after 0x11 [chipByte 0x01, chipOk]) =
    ([rd 0x11 0x24 0x01, wr 0x11 0x24 0x11], 0x00040002, 0x1101, 0) := by decide
/-- REG-11: no write without a value read. -/
theorem test_reg_set_read_fails : seen 0x10241104 (after 0x11 [chipFails]) =
    ([.wr 0x11 [0x24] 1 false []], 0x00040306, 0, 0x01) := by decide
/-- REG-4. -/
theorem test_reg_clr : seen 0x04071505 (after 0x11 [chipOk, chipByte 0x9F, chipOk]) =
    ([wr 0x15 0x00 0x00, rd 0x15 0x07 0x9F, wr 0x15 0x07 0x9B], 0x00050002, 0x9B9F, 0) := by decide
/-- AUX-1, with the enable bit clear at the second poll. -/
theorem test_aux_write :
    seen 0x007E0010 (after 0x11 [chipOk, chipOk, chipOk, chipOk, chipByte 0x10, chipOk, chipOk]) =
      ([wr 0x11 0x30 0x7E, wr 0x11 0x23 0xA1, rd 0x11 0x24 0x00, wr 0x11 0x24 0x10, .d 2, rd 0x11 0x24 0x10, .d 2,
        rd 0x11 0x24 0x00, rd 0x11 0x24 0x00], 0x00100002, 2, 0) := by decide
/-- AUX-6: the reread fails. -/
theorem test_aux_write_reread_fails :
    (seen 0x00100010 (after 0x11 [chipOk, chipOk, chipOk, chipOk, chipOk, chipFails])).2 =
      (0x00100306, 1, 0x01) := by decide
/-- AUX-2. -/
theorem test_aux_read : seen 0xA3000011 (after 0x11 [chipOk, chipOk, chipOk, chipByte 0x01, chipByte 0x01]) =
    ([wr 0x11 0x23 0xA3, rd 0x11 0x24 0x00, wr 0x11 0x24 0x10, .d 2, rd 0x11 0x24 0x01, rd 0x11 0x24 0x01],
      0x00110106, 0x101, 0x08) := by decide
/-- AUX-5: poll reads fail. -/
theorem test_aux_read_poll_fails :
    (seen 0xA3000011 (after 0x11 [chipOk, chipOk, chipOk, chipFails, chipOk, chipOk])).2 = (0x00110002, 2, 0x40) := by
  decide
/-- AUX-8. -/
theorem test_aux_reset : seen 0x00000012 (after 0x11 [chipOk, chipOk, chipOk, chipByte 0x04, chipOk]) =
    ([wr 0x15 0x00 0x00, rd 0x15 0x07 0x00, wr 0x15 0x07 0x04, rd 0x15 0x07 0x04, wr 0x15 0x07 0x00],
      0x00120002, 0, 0) := by decide
/-- AUX-9. -/
theorem test_aux_reset_set_fails : seen 0x00000012 (after 0x15 [chipFails, chipOk, chipOk]) =
    ([.wr 0x15 [0x07] 1 false [], rd 0x15 0x07 0x00, wr 0x15 0x07 0x00], 0x00120306, 0, 0x01) := by decide

/-- The answers of an AuxWrite that completes at the first poll. -/
def auxWriteOk : List BusAnswer := List.replicate 6 chipOk
/-- The answers of an AuxRead that completes at the first poll. -/
def auxReadOk : List BusAnswer := List.replicate 5 chipOk
/-- The answers of an AuxRead that completes with error flags `e`. -/
def auxReadEcho (e : Byte) : List BusAnswer := [chipOk, chipOk, chipOk, chipByte e, chipByte e]

/-- EDID-2: a raw byte of 4 is clamped to 1. -/
theorem test_edid_block_count :
    (seen 0x00000020 (after 0x11 (auxWriteOk ++ auxReadOk ++ [chipByte 0x04]))).2 = (0x00200002, 0x0401, 0) := by decide
/-- EDID-4. -/
theorem test_edid_read_chunk :
    ((seen 0x00100021 (after 0x11 (auxWriteOk ++ auxReadOk ++ [chipCount 0x10]))).2,
      readReg (.dbuf 3) (runCmd 0x00100021 (after 0x11 (auxWriteOk ++ auxReadOk ++ [chipCount 0x10])))) =
    ((0x00210002, 1, 0), 0x1F1E1D1C) := by decide
/-- EDID-5: one echo, an AUX reset, and a second attempt. -/
theorem test_edid_read_chunk_retry :
    (seen 0x00100021 (after 0x11 (auxWriteOk ++ auxReadEcho 0x01 ++ List.replicate 6 chipOk ++ auxWriteOk ++ auxReadOk ++
      [chipCount 0x10]))).2 = (0x00210002, 2, 0x08) := by decide +kernel
/-- EDID-15. -/
theorem test_edid_read_segment :
    (seen 0x00800122 (after 0x11 (auxReadOk ++ auxWriteOk ++ [chipOk] ++ auxWriteOk ++ auxReadOk ++ [chipCount 0xC0]))).2 =
      (0x00220002, 1, 0) := by decide +kernel
/-- EDID-16: the address-only op ends with an echo. -/
theorem test_edid_read_segment_echo :
    (seen 0x00800122 (after 0x11 (auxReadEcho 0x01 ++ auxWriteOk ++ [chipOk]))).2 = (0x00220106, 0, 0x08) := by decide
/-- EDID-13. -/
theorem test_edid_init_fails : seen 0x00000023 (fresh [chipOk, chipFails, chipOk, chipOk, chipOk]) =
    ([wr 0x11 0xE1 0x00, .w 0x11 [0x20, 0x50] false, wr 0x11 0x21 0x00, rd 0x11 0x22 0x00, wr 0x11 0x22 0x00],
      0x00230506, 0, 0x01) := by decide
/-- R170: the first chunk is copied, the second chunk's block read fails, and the final AUX reset runs. -/
theorem test_edid_read_full :
    (seen 0x00000023 (fresh (List.replicate 5 chipOk ++ auxWriteOk ++ auxReadOk ++ [chipByte 0x02] ++ auxWriteOk ++
      auxReadOk ++ [chipCount 0x00] ++ auxWriteOk ++ auxReadOk ++ [chipFails] ++ List.replicate 5 chipOk))).2 =
      (0x00230306, 0x0102, 0x01) := by decide +kernel

/-- PLL-1 (44_pll.md R203). -/
theorem test_pll_solve : pllSolve Params.example 74300000 = some ⟨12173312, 552960, 8, 74300000⟩ := by decide
/-- PLL-R2. -/
theorem test_pll_range : pllSolve Params.example 18749999 = none := by decide
/-- By hand: 500 MHz has the search's divider 2, which is not snapped, and 1000 MHz is above 800 MHz (log entry 25). -/
theorem test_pll_range_unsnapped : pllSolve Params.example 500000000 = none := by decide
/-- PLL-13: a step-7 division by 3. -/
theorem test_pll_fit :
    (pllSolve Params.example 47272727).map (fun c => (c.m, c.n, c.pd)) = some (15757575, 750000, 12) := by decide
/-- Reduce-7 (90_conflicts.md C7). -/
theorem test_reduce_not_idempotent : reduce 12380952 562500 = some (16507936, 750000) := by decide

/-- The timing of VID-1. -/
def timing720 : Inputs :=
  { tPixclkKhz := 74300, tHactive := 1280, tHfp := 110, tHsync := 40, tHbp := 220, tVactive := 720, tVfp := 5, tVsync := 5,
    tVbp := 20 }
/-- VID-1: the writes after the lane setup, to the post-divider, with every read answered 0. -/
theorem test_video_config :
    (((runCmd 0x00000040 { after 0x12 (List.replicate 39 chipOk) with inputs := timing720 }).trace.drop 8).take 23) =
      [wr 0x12 0x50 0x72, wr 0x12 0x51 0x06, wr 0x12 0x52 0x00, wr 0x12 0x53 0x05, wr 0x12 0x54 0x6E, wr 0x12 0x55 0x00,
       wr 0x12 0x56 0x28, wr 0x12 0x57 0x00, wr 0x12 0x58 0xDC, wr 0x12 0x59 0x00, wr 0x12 0x5A 0xD0, wr 0x12 0x5B 0x02,
       wr 0x12 0x5C 0x05, wr 0x12 0x5D 0x05, wr 0x12 0x5E 0x14, wr 0x12 0x60 0xB9, wr 0x12 0x61 0xC0, wr 0x12 0x62 0x00,
       wr 0x12 0x63 0x08, wr 0x12 0x64 0x70, wr 0x12 0x65 0x00, wr 0x12 0x66 0x3C, wr 0x12 0x67 0x27] := by decide +kernel
/-- VID-2. -/
theorem test_video_config_range :
    seen 0x00000040 { fresh [] with inputs := { timing720 with tPixclkKhz := 1000 } } = ([], 0x00400606, 0, 0) := by
  decide
/-- VID-6. -/
theorem test_mn_strobe : seen 0x00000041 (after 0x12 [chipByte 0x03, chipOk, chipOk, chipOk]) =
    ([rd 0x12 0x69 0x03, wr 0x12 0x69 0x00, .d 1, rd 0x12 0x69 0x00, wr 0x12 0x69 0x03], 0x00410002, 0, 0) := by decide
/-- PWR-1. -/
theorem test_power_up : seen 0x00000050 (fresh [chipOk, chipByte 0x80, chipByte 0x12, chipByte 0x34]) =
    ([.g .PWR_EN true, .d 5, .g .RST_REL true, .d 10, wr 0x13 0xE3 0x00, rd 0x13 0x05 0x80, rd 0x13 0x31 0x12,
      rd 0x13 0x32 0x34], 0x02500002, 1, 0) := by decide
/-- PWR-5, with HPD at the second poll. -/
theorem test_wait_hpd :
    seen 0x00000051 { after 0x13 ([chipOk, chipByte 0x80] ++ List.replicate 7 chipOk) with pstate := .firmwareLoaded } =
      ([.d 10, rd 0x13 0x45 0x00, .d 10, rd 0x13 0x45 0x80, wr 0x14 0xE4 0x00, rd 0x14 0xEE 0x00, wr 0x14 0xEE 0x00,
        rd 0x14 0xEC 0x00, wr 0x14 0xEC 0x10, rd 0x14 0xFF 0x00, wr 0x14 0xFF 0x01], 0x03510002, 2, 0) := by decide
/-- PWR-11. -/
theorem test_wait_hpd_in_off : seen 0x00000051 (fresh []) = ([], 0x00510A06, 0, 0x20) := by decide
/-- PWR-9. -/
theorem test_power_role : seen 0x00000052 (after 0x14 [chipOk, chipByte 0x81]) =
    ([wr 0x13 0xE3 0x00, rd 0x13 0x45 0x81], 0x00520002, 0x181, 0) := by decide
/-- PWR-10. -/
theorem test_power_off : seen 0x00000053 { fresh [] with pstate := .linkReady } =
    ([.g .RST_REL false, .g .PWR_EN false, .d 20], 0x00530002, 0, 0) := by decide

/-! ## The host -/

/-- HOST-2: write-1-to-clear. -/
theorem test_err_acc_clears :
    readReg .errAcc (writeReg .errAcc 0x21 { fresh [] with errAcc := { bus := true, wa := true, ill := true } }) = 0x02 := by
  decide
/-- HOST-3 in small: while POWER_ROLE runs, a read sees BUSY and a write sets OVR. -/
theorem test_host_while_busy :
    let t := stateOf (step { after 0x13 [chipByte 0x81] with
      host := [.write 0 0x52, .read 1, .write 12 0x12345678, .pass] })
    (t.hostLog, readReg .errAcc t, readReg .pllClkHz t) = ([⟨1, 0x00520001⟩], 0x10, 0) := by decide
/-- HOST-7 in small: a reset while POWER_UP runs. -/
theorem test_reset_while_busy :
    let t := stateOf (step { fresh [] with host := [.write 0 0x50, .pass, .pass, .reset] })
    (t.trace, readReg .status t, readReg .gpioOut t, readReg .edidSize t) = ([.g .PWR_EN true], 0, 0, 0x200) := by
  decide

/-! ## Witnesses: for each statement that has hypotheses, values that meet them -/

/-- The state `exec i s` answers. -/
def ran (i : Instr) (s : State) : State := stateOf (exec i s)

theorem next_ran (i : Instr) (s : State) : exec i s = .next (ran i s) := by cases i <;> rfl

/-- FirmwareLoaded, the last access having been to 0x13. -/
def loaded (chip : List BusAnswer) : State := { after 0x13 chip with pstate := .firmwareLoaded }
/-- The host reads RDATA and writes CMD while the command runs. -/
def busyHost : State := { after 0x13 [chipByte 0x81] with host := [.read 2, .write 0 0x00, .pass] }
/-- LinkReady, the last bus access to 0x13, 16 bytes of EDID_BUF written and valid, and the host about to run POWER_ROLE. -/
def used : State :=
  { after 0x13 [chipByte 0x81] with
    pstate := .linkReady
    trace := [.w 0x13 [0xE3, 0x00] true, .d 2]
    results := { edidBuf := Memory.write [] 0 (List.replicate 16 0x07), edidValidLen := 16, pllPd := 8 }
    host := [.write 0 0x52] }

theorem witness_ResetLeavesTheListedValues :
    ∀ a ∈ ([0x00, 0x1B, 0x3F, 0xC0, 0xFF] : List WordIndex), ∀ k, hostRegAt a ≠ .edidBuf k := by
  intro a ha k hk
  simp only [List.mem_cons, List.not_mem_nil, or_false] at ha
  rcases ha with rfl | rfl | rfl | rfl | rfl <;> cases hk
theorem witness_ParameterSetsAreChecked :
    (ParamSet.ofParams Params.example).isSome = true ∧ ParamSet.ofParams { Params.example with CLK_PER_MS := 0 } = none := by
  decide
theorem witness_OpByteAloneSelects : decodeWord 0xFF000053 = .ok .powerOff ∧ ¬ ∃ i, decodeWord 0x00000054 = .ok i := by
  refine ⟨by decide, ?_⟩
  rintro ⟨i, h⟩
  cases h
theorem witness_StepRunsTheDecodedCommand :
    ((fresh []).withCommand 0x53).host = .write cmdIndex 0x53 :: [] ∧ ((fresh []).withCommand 0x53).busy = false ∧
      decodeWord 0x53 = .ok .powerOff ∧ decodeWord 0x54 = .error (.illegalOpcode 0x54) ∧
      { (fresh []).withCommand 0x53 with busy := true }.host = .write cmdIndex 0x53 :: [] := by decide
theorem witness_HostAccessesBetweenCommands :
    { fresh [] with host := [.read 1] }.host = .read 1 :: [] ∧ { fresh [] with host := [.write 12 5] }.host = .write 12 5 :: [] ∧
      (12 : WordIndex) ≠ 0 ∧ { fresh [] with host := [.reset] }.host = .reset :: [] ∧ (fresh []).host = [] := by decide
/-- A writable register (PLL_CLK_HZ), a partly writable one (GPIO_OUT) and a read-only one (RDATA). -/
theorem witness_HostWriteChangesOnlyItsFields :
    { fresh [] with host := [.write 12 5] }.busy = false ∧ { fresh [] with host := [.write 12 5] }.host = .write 12 5 :: [] ∧
      hostRegAt 12 = .pllClkHz ∧ hostRegAt 6 = .gpioOut ∧ hostRegAt 2 = .rdata ∧ (12 : WordIndex) ≠ 0 := by decide
theorem witness_UnmappedOffsetsReadZero :
    hostRegAt 0x1D ≠ .unmapped ∧ hostRegAt 0x1E = .unmapped ∧ hostRegAt 0x3F = .unmapped ∧ hostRegAt 0x40 ≠ .unmapped ∧
      hostRegAt 0xBF ≠ .unmapped ∧ hostRegAt 0xC0 = .unmapped ∧ hostRegAt 0xFF = .unmapped ∧
      { fresh [] with host := [.write 0x1E 7] }.host = .write 0x1E 7 :: [] := by decide
theorem witness_WritesWhileBusyOnlySetOverrun :
    { fresh [] with busy := true, host := [.write 0 0x50] }.host = .write 0 0x50 :: [] ∧
      { fresh [] with busy := true, host := [.write 0 0x50] }.busy = true ∧ busyHost.noReset = true ∧
      exec .powerRole busyHost = .next (ran .powerRole busyHost) :=
  ⟨rfl, rfl, by decide, next_ran _ _⟩
/-- RDATA is read while POWER_ROLE runs, and it is a register that is held meanwhile. -/
theorem witness_ReadsWhileBusySeeThePreviousCommit :
    exec .powerRole busyHost = .next (ran .powerRole busyHost) ∧ (ran .powerRole busyHost).hostLog = [⟨2, 0⟩] ∧
      heldWhileRunning (hostRegAt 2) = true :=
  ⟨next_ran _ _, by decide, by decide⟩
theorem witness_ResetAbandonsTheCommand : { fresh [] with host := [.reset] }.host = .reset :: [] := rfl
theorem witness_EveryCommandCommitsOrIsReset :
    exec .powerRole busyHost = .next (ran .powerRole busyHost) := next_ran _ _
theorem witness_WorkaroundFiresOnASwitch :
    (after 0x11 []).quiet = true ∧ (after 0x11 []).la = ⟨true, 0x11⟩ ∧ (after 0x11 []).la ≠ ⟨true, 0x12⟩ ∧
      (fresh []).la ≠ ⟨true, 0x00⟩ ∧ (0x11, 0xE1) ∈ (fresh []).params.params.WA_TABLE ∧
      ∀ off, (0x15, off) ∉ (fresh []).params.params.WA_TABLE := by decide
theorem witness_WorkaroundsFollowTheAddressSwitches :
    (fresh [chipOk]).noReset = true ∧ exec (.regRead 0x11 0x24) (fresh [chipOk]) = .next (ran (.regRead 0x11 0x24) (fresh [chipOk])) :=
  ⟨by decide, next_ran _ _⟩
theorem witness_NopCompletes : busyHost.noReset = true ∧ opField 0xFFFFFF00 = 0x00 := by decide
theorem witness_RegReadAndRegWriteComplete : busyHost.noReset = true := by decide
theorem witness_RegReadBlockCompletes :
    (fresh []).noReset = true ∧ 1 ≤ (1 : Byte).toNat ∧ (1 : Byte).toNat ≤ 16 ∧ 1 ≤ (16 : Byte).toNat ∧ (16 : Byte).toNat ≤ 16 := by
  decide
theorem witness_RegSetAndRegClrComplete : busyHost.noReset = true := by decide
theorem witness_FailedPollsNeverSetBus :
    (fresh [chipFails]).params.params = Params.example ∧ (fresh [chipFails]).noReset = true :=
  ⟨rfl, by decide⟩
theorem witness_AuxWriteAndAuxReadComplete : busyHost.noReset = true := by decide
theorem witness_AuxWaitTimesOutAfter150Polls :
    let s := after 0x11 (List.replicate 150 (chipByte 0x10))
    s.quiet = true ∧ s.la = ⟨true, 0x11⟩ ∧ s.params.params.CHIP_MAP.L_AUX_CTRL_STATUS.sa = 0x11 ∧ 150 ≤ s.chip.length ∧
      ∀ a ∈ s.chip, a.ok = true → a.data[0] &&& s.params.params.CHIP_MAP.M_AUX_OP_EN ≠ 0 := by
  refine ⟨rfl, rfl, rfl, (List.length_replicate ..).ge, fun a ha _ => ?_⟩
  rw [List.eq_of_mem_replicate ha]
  decide
theorem witness_AuxResetCompletes : busyHost.noReset = true := by decide
theorem witness_EdidBlockCountCompletes : busyHost.noReset = true := by decide
theorem witness_EdidReadChunkAndSegmentComplete : busyHost.noReset = true := by decide
theorem witness_EdidReadFullCompletes : busyHost.noReset = true := by decide
theorem witness_EdidReadFullCounts :
    let s := fresh (List.replicate 118 chipOk)
    s.noReset = true ∧ exec .edidReadFull s = .next (ran .edidReadFull s) ∧ (ran .edidReadFull s).result = .ok :=
  ⟨by decide, next_ran _ _, by decide +kernel⟩
theorem witness_MemWriteStoresTheBytes :
    496 + 15 < 512 ∧ (512 : Nat) ≤ 512 ∧ Memory.wf [(495, 0x01)] = true ∧ (495 : Nat) < 496 := by decide
theorem witness_PllSolveCompletes : busyHost.noReset = true := by decide
theorem witness_SubtractionGcdIsTheGcd : 1 ≤ 74300000 ∧ 1 ≤ 3375000 := by decide
theorem witness_SolverOutputProperties :
    pllSolve ({} : ParamSet).params 47272727 = some ⟨15757575, 750000, 12, 47272725⟩ := by decide
theorem witness_ReduceIsIdempotentOnPowersOfTwo :
    reduce 1 1 = some (8388608, 8388608) ∧ reduce 12380952 562500 = some (16507936, 750000) := by decide
theorem witness_SolverAcceptsTheEnvelope :
    let p := ({} : ParamSet).params
    p.PLL_OUT_FREQ_ABS_MAX / 27000000 ≤ 0xFFFFFF ∧ p.PLL_OUT_FREQ_ABS_MIN / 16 ≤ 18750000 ∧ 800000000 ≤ p.PLL_OUT_FREQ_ABS_MAX ∧
      p.PLL_OUT_FREQ_ABS_MAX < 800000001 ∧ 18749999 < p.PLL_OUT_FREQ_ABS_MIN / 16 := by decide
theorem witness_ScenarioAIsExact :
    let p := ({} : ParamSet).params
    p.PLL_OUT_FREQ_MIN = 520000000 ∧ p.PLL_OUT_FREQ_ABS_MIN = 300000000 ∧ p.PLL_OUT_FREQ_ABS_MAX = 800000000 ∧
      (pllSolve p 74300000).isSome = true := by decide
theorem witness_VideoConfigCompletes :
    (fresh []).noReset = true ∧ pllSolve (fresh []).params.params (timing720.tPixclkKhz.toNat * 1000) = some ⟨12173312, 552960, 8, 74300000⟩ ∧
      pllSolve (fresh []).params.params ((fresh []).inputs.tPixclkKhz.toNat * 1000) = none := by decide
theorem witness_VideoConfigEventCount :
    let s := { fresh (List.replicate 40 chipOk) with inputs := timing720 }
    s.noReset = true ∧ exec .videoConfig s = .next (ran .videoConfig s) ∧ (ran .videoConfig s).result ≠ .pllRange ∧
      (ran .videoConfig (fresh [])).result = .pllRange :=
  ⟨by decide, next_ran _ _, by decide +kernel, by decide⟩
theorem witness_MnStrobeCompletes : busyHost.noReset = true := by decide
theorem witness_PowerUpCompletes : (fresh []).noReset = true ∧ (fresh []).pstate = .off := by decide
theorem witness_WaitHpdCompletes : (loaded []).noReset = true ∧ (loaded []).pstate = .firmwareLoaded := by decide
theorem witness_HpdTimeoutAfter10000Polls :
    let s := loaded (List.replicate 10000 chipOk)
    s.quiet = true ∧ s.pstate = .firmwareLoaded ∧ s.la = ⟨true, s.params.params.CHIP_MAP.L_SYS_STATUS.sa⟩ ∧
      10000 ≤ s.chip.length ∧ ∀ a ∈ s.chip, a.ok = true → a.data[0] &&& s.params.params.CHIP_MAP.M_HPD = 0 := by
  refine ⟨rfl, rfl, rfl, (List.length_replicate ..).ge, fun a ha _ => ?_⟩
  rw [List.eq_of_mem_replicate ha]
  decide
theorem witness_PowerRoleCompletes : busyHost.noReset = true := by decide
theorem witness_PowerOffCompletes :
    (loaded []).noReset = true ∧ (loaded []).pstate = .firmwareLoaded ∧ used.pstate = .linkReady := by
  decide
/-- The ends of every range of illegal opcodes (vector ENC-3). -/
theorem witness_IllegalCommandsAreRefused :
    (∀ w ∈ ([0x06, 0x0F, 0x13, 0x1F, 0x24, 0x2F, 0x31, 0x3F, 0x42, 0x4F, 0x54, 0xFF] : List Word),
      (0x06 ≤ (opField w).toNat ∧ (opField w).toNat ≤ 0x0F) ∨ (0x13 ≤ (opField w).toNat ∧ (opField w).toNat ≤ 0x1F) ∨
        (0x24 ≤ (opField w).toNat ∧ (opField w).toNat ≤ 0x2F) ∨ (0x31 ≤ (opField w).toNat ∧ (opField w).toNat ≤ 0x3F) ∨
        (0x42 ≤ (opField w).toNat ∧ (opField w).toNat ≤ 0x4F) ∨ 0x54 ≤ (opField w).toNat) ∧
    ((fresh []).withCommand 0x06).busy = false ∧ ((fresh []).withCommand 0x06).host = .write cmdIndex 0x06 :: [] ∧
    HostInput.reset ∉ (fresh []).host ∧ (fresh []).noReset = true ∧ (0 : Byte).toNat = 0 ∧ 16 < (17 : Byte).toNat := by
  refine ⟨fun w hw => ?_, by decide, by decide, by decide, by decide, by decide, by decide⟩
  simp only [List.mem_cons, List.not_mem_nil, or_false] at hw
  rcases hw with rfl | rfl | rfl | rfl | rfl | rfl | rfl | rfl | rfl | rfl | rfl | rfl <;> decide
theorem witness_StatePreconditions :
    (loaded []).noReset = true ∧ (loaded []).pstate ≠ .off ∧ used.noReset = true ∧ used.pstate ≠ .firmwareLoaded ∧
      (fresh []).pstate ≠ .firmwareLoaded ∧ (fresh []).pstate ≠ .linkReady ∧
      exec .powerOff (fresh []) = .next (ran .powerOff (fresh [])) ∧ (ran .powerOff (fresh [])).result = .stateErr :=
  ⟨by decide, by decide, by decide, by decide, by decide, by decide, next_ran _ _, by decide⟩
theorem witness_StepKeepsTheInvariant : used.Inv ∧ step used = .next (stateOf (step used)) :=
  ⟨{ idle := rfl, fail := rfl, pstate := by decide, lastAddr := rfl,
     results := { buf := by decide, pd := by decide, count := by decide, len := by decide, valid := by decide +kernel } }, rfl⟩
theorem witness_StepKeepsTheLastAddress :
    used.laTracks ∧ used.la.valid = true ∧ step used = .next (stateOf (step used)) :=
  ⟨fun _ => by decide, rfl, rfl⟩
theorem witness_TheTraceOnlyGrows : step used = .next (stateOf (step used)) := rfl
theorem witness_ResultRegistersHaveTheirOwners :
    used.noReset = true ∧ exec .powerRole used = .next (ran .powerRole used) :=
  ⟨by decide, next_ran _ _⟩
theorem witness_OnlyThePowerCommandsMoveThePins :
    let up := fresh [chipOk, chipByte 0x80, chipByte 0x12, chipByte 0x34]
    let dead := fresh (List.replicate 31 chipOk)
    up.noReset = true ∧ exec .powerUp up = .next (ran .powerUp up) ∧ up.pstate = .off ∧
      (ran .powerUp up).pstate = .firmwareLoaded ∧ (ran .powerUp dead).pstate = .off ∧ (ran .powerOff used).result = .ok :=
  ⟨by decide, next_ran _ _, by decide, by decide, by decide +kernel, by decide⟩
theorem witness_CodeDecidesPstate : used.noReset = true ∧ exec .powerOff used = .next (ran .powerOff used) ∧
    (ran .powerOff used).result = .ok := ⟨by decide, next_ran _ _, by decide⟩
theorem witness_DelayCeilings :
    used.noReset = true ∧ exec .powerOff used = .next (ran .powerOff used) := ⟨by decide, next_ran _ _⟩
theorem witness_AnswersAreTakenInOrder :
    exec .powerRole used = .next (ran .powerRole used) ∧ used.chip ≠ [] := ⟨next_ran _ _, by decide⟩

end Sys2Proof.Machine
end

/-! The statements of 00_scope.md: which parameter sets are accepted (R8, R9), `MemWrite` (R11), the trace that only
grows (R15), and the chip's answers taken in order (R12). -/

namespace Sys2Proof

/-! ## Parameter sets (00_scope.md R8, R9)

Each group of constraints as the proposition that its check decides. -/

theorem ParamSet.isSome_ofParams (p : Params) : (ParamSet.ofParams p).isSome = true ↔ p.wf = true := by
  unfold ParamSet.ofParams
  split <;> simp [*]

theorem Params.pllBoundsOk_iff (p : Params) : p.pllBoundsOk = true ↔
    (1 ≤ p.PLL_OUT_FREQ_ABS_MIN ∧ p.PLL_OUT_FREQ_ABS_MIN ≤ p.PLL_OUT_FREQ_MIN ∧
      p.PLL_OUT_FREQ_MIN ≤ p.PLL_OUT_FREQ_ABS_MAX) ∧ 1 ≤ p.PLL_OUT_FREQ_ABS_MIN / 16 := by
  simp only [Params.pllBoundsOk, Bool.and_eq_true, decide_eq_true_eq, and_assoc]

theorem Params.countsOk_iff (p : Params) : p.countsOk = true ↔ 1 ≤ p.FW_POLL_MAX ∧ 1 ≤ p.CLK_PER_MS := by
  simp only [Params.countsOk, Bool.and_eq_true, decide_eq_true_eq]

theorem Params.auxEnableOk_iff (p : Params) : p.auxEnableOk = true ↔
    p.CHIP_MAP.M_AUX_OP_EN ≠ 0 ∧ p.CHIP_MAP.M_AUX_OP_EN &&& 0x0F = 0 := by
  simp only [Params.auxEnableOk, Bool.and_eq_true, decide_eq_true_eq]

theorem Params.waTableOk_iff (p : Params) : p.waTableOk = true ↔
    (p.WA_TABLE.map Prod.fst).Nodup ∧ p.WA_TABLE.length ≤ 5 := by
  simp only [Params.waTableOk, Bool.and_eq_true, decide_eq_true_eq, and_comm]

theorem Params.refclkOk_iff (p : Params) : p.refclkOk = true ↔ p.CHIP_MAP.M_REFCLK_SEL &&& 0x0F = 0 := by
  rw [Params.refclkOk, decide_eq_true_eq]

theorem Params.laneOk_iff (p : Params) :
    p.laneOk = true ↔ p.CHIP_MAP.K_LANE_1 &&& ~~~p.CHIP_MAP.M_LANE_COUNT = 0 := by
  rw [Params.laneOk, decide_eq_true_eq]

/-- Settles O3: the check is the conjunction of its groups, and each group is its proposition. -/
theorem parameterSetsAreChecked : Obligations.ParameterSetsAreChecked := by
  intro p
  rw [ParamSet.isSome_ofParams]
  simp only [Params.wf, Bool.and_eq_true, p.pllBoundsOk_iff, p.countsOk_iff, p.auxEnableOk_iff, p.waTableOk_iff,
    p.refclkOk_iff, p.laneOk_iff, and_assoc]

end Sys2Proof

namespace Sys2Proof.Machine

/-! ## MemWrite (00_scope.md R11) -/

/-- A byte read after several were written from `a` on: the one written there, if one was and the index is a byte of
EDID_BUF, else the byte that was there. -/
theorem Memory.readByte_write (m : Memory) (a b : Nat) (v : List Byte) :
    Memory.readByte (Memory.write m a v) b =
      if a ≤ b ∧ b < 512 then v[b - a]?.or (Memory.readByte m b) else Memory.readByte m b := by
  induction v generalizing m a with
  | nil => simp [Memory.write]
  | cons x v ih =>
    rw [Memory.write, ih, Memory.readByte_writeByte]
    rcases Nat.lt_trichotomy b a with hlt | rfl | hgt
    · rw [if_neg (by omega), if_neg (by omega), if_neg (by omega)]
    · simp
    · have hidx : b - a = b - (a + 1) + 1 := by omega
      have hne : ¬(b = a ∧ a < 512) := by omega
      have hiff : (a + 1 ≤ b ∧ b < 512) ↔ (a ≤ b ∧ b < 512) := by omega
      rw [if_neg hne, hidx, List.getElem?_cons_succ]
      simp only [hiff]

/-- Settles O33: the three clauses are `Memory.readByte_write` inside the bytes written, the same outside them, and
`Memory.wf_write`. -/
theorem memWriteStoresTheBytes : Obligations.MemWriteStoresTheBytes := by
  refine fun m a v => ⟨fun i hi hlt => ?inside, fun b hb => ?outside, fun hm => Memory.wf_write hm a v⟩
  case inside =>
    rw [Memory.readByte_write, if_pos ⟨Nat.le_add_right a i, hlt⟩, Nat.add_sub_cancel_left,
      List.getElem?_eq_getElem hi, Option.some_or]
  case outside =>
    rw [Memory.readByte_write]
    split
    · next hin =>
      have hpast : v.length ≤ b - a := by omega
      rw [List.getElem?_eq_none hpast, Option.none_or]
    · rfl

/-! ## Relations that also hold of an abandoned run

`Rel R R`: the first and the last state of a procedure are `R`-related, whether it ran to its end or a reset abandoned
it. A command keeps such a relation when its rule and the commit do. -/

section
variable {α : Type} {R : State → State → Prop} {s t : State}

theorem rel_self_iff {x : Proc α} : Rel R R α x ↔ ∀ s, R s (endState (x s)) := by
  refine forall_congr' fun s => ?_
  cases x s <;> rfl

theorem runCommand_rel {body : Params → Proc Code} (hk : Kept (Rel R R) s.params.params)
    (hcommit : ∀ c u, R u (u.commit c)) (hbody : Rel R R _ (body s.params.params))
    (hrun : runCommand body s = .next t) : R s.start t := by
  have hfinish : ∀ c, Rel R R _ (finish c) := fun c => hk.bind hk.window fun _ => hcommit c
  cases hrun
  exact rel_self_iff.mp (hk.bind hbody hfinish) s.start

theorem exec_rel (hk : ∀ p, Kept (Rel R R) p) (hcommit : ∀ c u, R u (u.commit c)) {i : Instr}
    (he : exec i s = .next t) : R s.start t := by
  obtain ⟨body, hrun, hbody⟩ := exec_body i
  rw [hrun] at he
  exact runCommand_rel (hk _) hcommit (hbody _ _ (hk _)) he

theorem execIllegal_rel (hk : ∀ p, Kept (Rel R R) p) (hcommit : ∀ c u, R u (u.commit c))
    (he : execIllegal s = .next t) : R s.start t :=
  runCommand_rel (body := fun _ => refuse .illegalCmd) (hk _) hcommit ((hk s.params.params).refuse _) he

end

/-- What the host does while a command runs issues no event, uses no answer of the chip and keeps the parameters; only a
reset counts. -/
theorem hostWindow_keeps (s : State) :
    (endState (hostWindow s)).trace = s.trace ∧ (endState (hostWindow s)).chip = s.chip ∧
      (endState (hostWindow s)).params = s.params ∧ s.resets ≤ (endState (hostWindow s)).resets := by
  rw [hostWindow_apply]
  cases hw : serveHost s.host s with
  | ok u t =>
    obtain ⟨h', l, o, rfl⟩ := serveHost_ok hw
    exact ⟨rfl, rfl, rfl, Nat.le_refl _⟩
  | error e t =>
    obtain ⟨_, h', l, rfl⟩ := serveHost_error hw
    exact ⟨rfl, rfl, rfl, Nat.le_succ _⟩

/-! ## The trace only grows (00_scope.md R15) -/

/-- From `s` to `t` the trace and the reset count grew, and the parameters stayed. -/
structure GrowsTo (s t : State) : Prop where
  trace : s.trace <+: t.trace
  resets : s.resets ≤ t.resets
  params : t.params = s.params

theorem GrowsTo.trans {s t u : State} (h : GrowsTo s t) (h' : GrowsTo t u) : GrowsTo s u where
  trace := h.trace.trans h'.trace
  resets := h.resets.trans h'.resets
  params := h'.params.trans h.params

theorem GrowsTo.of_same {s t : State} (ht : t.trace = s.trace) (hr : t.resets = s.resets) (hp : t.params = s.params) :
    GrowsTo s t :=
  ⟨ht ▸ List.prefix_rfl, hr.ge, hp⟩

theorem GrowsTo.of_event {s t : State} (e : Event) (ht : t.trace = s.trace ++ [e]) (hr : t.resets = s.resets)
    (hp : t.params = s.params) : GrowsTo s t :=
  ⟨ht ▸ List.prefix_append _ _, hr.ge, hp⟩

theorem growsTo_relates (p : Params) : Relates GrowsTo GrowsTo p where
  refl _ := .of_same rfl rfl rfl
  trans _ _ _ := .trans
  transE _ _ _ := .trans
  window := rel_self_iff.mpr fun s =>
    have ⟨htrace, _, hparams, hresets⟩ := hostWindow_keeps s
    ⟨htrace ▸ List.prefix_rfl, hresets, hparams⟩
  bus e _ := .of_event e rfl rfl rfl
  la _ _ := .of_same rfl rfl rfl
  delayed _ _ := .of_event _ rfl rfl rfl
  pin _ _ _ := .of_event _ rfl rfl rfl
  pstate _ _ := .of_same rfl rfl rfl
  flags _ _ := .of_same rfl rfl rfl
  loop _ _ := .of_same rfl rfl rfl
  shadow _ _ := .of_same rfl rfl rfl

/-- The state in which the engine takes up a request: the one it leaves to the next input, or the one that a command word
is accepted in. -/
def Request.state (r : Request) : State :=
  match r with
  | .done s => s
  | .command _ s => s

theorem hostWrite_growsTo (a : WordIndex) (v : Word) (s : State) : GrowsTo s (hostWrite a v s).state := by
  unfold hostWrite
  split
  · exact .of_same rfl rfl rfl
  · split
    · exact .of_same rfl rfl rfl
    · obtain ⟨e, g, i, hw⟩ := writeReg_changes (hostRegAt a) v s
      rw [hw]
      exact .of_same rfl rfl rfl

theorem hostNext_growsTo (s : State) : GrowsTo s (hostNext s).state := by
  have hset : ∀ h, GrowsTo s (s.setHost h) := fun _ => .of_same rfl rfl rfl
  unfold hostNext
  cases s.host with
  | nil => exact .of_same rfl rfl rfl
  | cons i rest =>
    cases i with
    | pass => exact hset rest
    | wait => exact hset rest
    | read a => exact .of_same rfl rfl rfl
    | write a v => exact (hset rest).trans (hostWrite_growsTo a v _)
    | reset => exact ⟨List.prefix_rfl, Nat.le_succ _, rfl⟩

theorem runWord_growsTo {w : Word} {s t : State} (h : runWord w s = .next t) : GrowsTo s t := by
  have hk : ∀ p, Kept (Rel GrowsTo GrowsTo) p := fun p => (growsTo_relates p).kept
  have hcommit : ∀ c (u : State), GrowsTo u (u.commit c) := fun _ _ => .of_same rfl rfl rfl
  have hstart : GrowsTo s (s.accept w).start := .of_same rfl rfl rfl
  unfold runWord at h
  split at h
  · exact hstart.trans (exec_rel hk hcommit h)
  · exact hstart.trans (execIllegal_rel hk hcommit h)

theorem serveRequest_growsTo {r : Request} {t : State} (h : serveRequest r = .next t) : GrowsTo r.state t := by
  cases r with
  | done s => cases h; exact .of_same rfl rfl rfl
  | command w s => exact runWord_growsTo h

/-- Settles O55: taking the host's input and serving what it asks both grow the trace. -/
theorem theTraceOnlyGrows : Obligations.TheTraceOnlyGrows := fun s _ h =>
  have ⟨htrace, hresets, hparams⟩ := (hostNext_growsTo s).trans (serveRequest_growsTo h)
  ⟨htrace, hresets, hparams⟩

/-! ## The chip's answers (00_scope.md R12) -/

theorem Answered.append {chip : List BusAnswer} {a b : List Event} (ha : Answered chip a)
    (hb : Answered (chip.drop (busCount a)) b) : Answered chip (a ++ b) := by
  induction a generalizing chip with
  | nil => exact hb
  | cons e a ih =>
    cases e with
    | d ms => exact ih ha hb
    | g pin v => exact ih ha hb
    | w sa bytes ok =>
      cases chip with
      | nil => trivial
      | cons x chip =>
        obtain ⟨hok, hrest⟩ := ha
        exact ⟨hok, ih hrest hb⟩
    | wr sa wb n ok bytes =>
      cases chip with
      | nil => trivial
      | cons x chip =>
        obtain ⟨hok, hbytes, hrest⟩ := ha
        exact ⟨hok, hbytes, ih hrest hb⟩

/-- From `s` to `t` the transactions took the answers the chip had ready, in order, one each. -/
def TookAnswers (s t : State) : Prop :=
  ∃ evs, t.trace = s.trace ++ evs ∧ t.chip = s.chip.drop (busCount evs) ∧ Answered s.chip evs

namespace TookAnswers

theorem of_same {s t : State} (ht : t.trace = s.trace) (hc : t.chip = s.chip) : TookAnswers s t :=
  ⟨[], by rw [ht, List.append_nil], hc, by simp [Answered]⟩

theorem trans {s t u : State} (h : TookAnswers s t) (h' : TookAnswers t u) : TookAnswers s u := by
  obtain ⟨a, hta, hca, ha⟩ := h
  obtain ⟨b, htb, hcb, hb⟩ := h'
  rw [hca] at hcb hb
  exact ⟨a ++ b, by rw [htb, hta, List.append_assoc], by rw [hcb, List.drop_drop, busCount_append], ha.append hb⟩

/-- A write's event holds the answer it was given. -/
theorem busEvent_w (sa : Byte) (bytes : List Byte) (s : State) :
    TookAnswers s (s.busEvent (.w sa bytes (s.answer (.w sa bytes)).ok)) := by
  refine ⟨[_], rfl, List.drop_one.symm, ?_⟩
  unfold State.answer
  cases s.chip with
  | nil => trivial
  | cons a chip => exact ⟨rfl, by simp [Answered]⟩

/-- A read's event holds the answer it was given and, when it succeeded, the first `n` bytes of it. -/
theorem busEvent_wr (sa : Byte) (wb : List Byte) (n : Nat) (s : State) (ok : Bool)
    (hok : (s.answer (.wr sa wb n)).ok = ok) :
    TookAnswers s (s.busEvent (.wr sa wb n ok (if ok then (s.answer (.wr sa wb n)).data.toList.take n else []))) := by
  subst hok
  refine ⟨[_], rfl, List.drop_one.symm, ?_⟩
  unfold State.answer
  cases s.chip with
  | nil => trivial
  | cons a chip => exact ⟨rfl, rfl, by simp [Answered]⟩

end TookAnswers

/-- A procedure whose every run takes the ready answers in order. -/
abbrev Takes (α : Type) (x : Proc α) : Prop := Rel TookAnswers TookAnswers α x

section
variable {α β : Type} {p : Params}

theorem takes_pure (a : α) : Takes α (pure a) := fun _ => .of_same rfl rfl

theorem takes_bind {x : Proc α} {f : α → Proc β} (hx : Takes α x) (hf : ∀ a, Takes β (f a)) : Takes β (x >>= f) :=
  rel_bind (fun _ _ _ => .trans) (fun _ _ _ => .trans) hx hf

/-- An update that touches neither the trace nor the chip's queue. -/
theorem takes_modify {f : State → State} (ht : ∀ s, (f s).trace = s.trace) (hc : ∀ s, (f s).chip = s.chip) :
    Takes PUnit (modify f) := fun s => .of_same (ht s) (hc s)

theorem takes_window : Takes Unit hostWindow := rel_self_iff.mpr fun s =>
  have ⟨htrace, hchip, _, _⟩ := hostWindow_keeps s
  .of_same htrace hchip

theorem takes_busW (sa : Byte) (bytes : List Byte) : Takes _ (busW sa bytes) :=
  takes_bind takes_window fun _ s => .busEvent_w sa bytes s

theorem takes_busWR (sa : Byte) (wb : List Byte) (n : Nat) : Takes _ (busWR sa wb n) := by
  refine takes_bind takes_window fun _ s => ?_
  by_cases hok : (s.answer (.wr sa wb n)).ok = true
  · simp only [bind_apply, get_apply, hok, if_true]
    exact .busEvent_wr sa wb n s true hok
  · simp only [bind_apply, get_apply, hok]
    exact .busEvent_wr sa wb n s false (Bool.eq_false_iff.mpr hok)

theorem takes_workaround (sa : Byte) : Takes _ (workaround p sa) := by
  refine rel_self_iff.mpr fun s => ?_
  rw [workaround_apply]
  split
  · exact .of_same rfl rfl
  · have hla : TookAnswers s (s.setLa sa) := .of_same rfl rfl
    have hbus := rel_self_iff.mp (takes_busW sa [waOffset p sa, Config.WA_VALUE]) (s.setLa sa)
    cases hs : busW sa [waOffset p sa, Config.WA_VALUE] (s.setLa sa) with
    | error e t => rw [hs] at hbus; exact hla.trans hbus
    | ok ok t =>
      rw [hs] at hbus
      cases ok with
      | true => exact hla.trans hbus
      | false => exact (hla.trans hbus).trans (.of_same rfl rfl)

/-- What follows a failed transaction: a flag, and the procedure's answer. -/
theorem takes_raiseFlags_pure (f : Acc) (a : α) : Takes _ (raiseFlags f >>= fun _ => pure a) :=
  takes_bind (takes_modify (fun _ => rfl) fun _ => rfl) fun _ => takes_pure a

/-- The shape of every register read: the workaround, the transaction, and what is made of its answer. -/
theorem takes_registerRead (l : Loc) (n : Nat) {f : Option (List Byte) → Proc β} (hf : ∀ r, Takes _ (f r)) :
    Takes _ (workaround p l.sa >>= fun _ => busWR l.sa [l.off] n >>= f) :=
  takes_bind (takes_workaround l.sa) fun _ => takes_bind (takes_busWR _ _ _) hf

theorem takes_kept : Kept Takes p where
  pure := takes_pure
  bind := takes_bind
  getThen _ hf := takes_bind (x := get) (fun _ => .of_same rfl rfl) hf
  window := takes_window
  read l := takes_registerRead l 1 fun r => by
    cases r with
    | some r => exact takes_pure _
    | none => exact takes_raiseFlags_pure _ _
  poll l := takes_registerRead l 1 fun r => by
    cases r with
    | some r => exact takes_pure _
    | none => exact takes_raiseFlags_pure _ _
  block l n := takes_registerRead l n fun r => by
    cases r with
    | some r => exact takes_pure _
    | none => exact takes_raiseFlags_pure _ _
  write l v := takes_bind (takes_workaround l.sa) fun _ => takes_bind (takes_busW _ _) fun ok => by
    cases ok with
    | true => exact takes_pure _
    | false => exact takes_raiseFlags_pure _ _
  delayed ms _ := ⟨[.d ms], rfl, rfl, by simp [Answered]⟩
  pinSet pin v _ := ⟨[.g pin v], rfl, rfl, by simp [Answered]⟩
  pstate _ := takes_modify (fun _ => rfl) fun _ => rfl
  flags _ := takes_modify (fun _ => rfl) fun _ => rfl
  setPoll _ := takes_modify (fun _ => rfl) fun _ => rfl
  setAttempt _ := takes_modify (fun _ => rfl) fun _ => rfl
  setChunk _ := takes_modify (fun _ => rfl) fun _ => rfl
  setRdata _ := takes_modify (fun _ => rfl) fun _ => rfl
  setAuxLast _ := takes_modify (fun _ => rfl) fun _ => rfl
  dbuf _ := takes_modify (fun _ => rfl) fun _ => rfl
  setEdidBlocks _ _ := takes_modify (fun _ => rfl) fun _ => rfl
  buf _ _ := takes_modify (fun _ => rfl) fun _ => rfl
  len _ := takes_modify (fun _ => rfl) fun _ => rfl
  setPll _ := takes_modify (fun _ => rfl) fun _ => rfl
  setFwInfo _ _ := takes_modify (fun _ => rfl) fun _ => rfl

end

/-- Settles O60: every command's rule is made of procedures that take the ready answers in order, and neither the host's
turn nor the commit touches the trace or the queue. -/
theorem answersAreTakenInOrder : Obligations.AnswersAreTakenInOrder := fun _ _ _ he =>
  exec_rel (R := TookAnswers) (fun _ => takes_kept) (fun _ _ => .of_same rfl rfl) he

end Sys2Proof.Machine

/-! The statements of 10_state.md. First what the tier 3 ones need: what each command does to the pins, to PSTATE and to
the result registers, as two tables (`MayWrite`, `MovesPower`) that every command's rule is shown to meet; then the
properties that every step keeps, the owners of registers and pins, the host while a command runs, and the register
map. -/

namespace Sys2Proof.Machine

/-! ## The pins of an effect (10_state.md R43) -/

/-- The pins after an effect's events; the workaround writes between them move none (`State.completed_gpio`). -/
def Effect.pins (e : Effect) (g : Gpio) : Gpio := g.after (e.acts.map Act.ev)

theorem Gpio.after_weave (p : Params) (la : LastAddr) (g : Gpio) (acts : List Act) :
    g.after (weave p la acts) = g.after (acts.map Act.ev) := by
  induction acts generalizing la g with
  | nil => rfl
  | cons a acts ih =>
    obtain ⟨ev, wa⟩ := a
    cases ev with
    | d ms => exact ih _ _
    | g pin v => exact ih _ _
    | w sa bytes ok =>
      simp only [weave, Event.busSa, waEvents]
      split <;> exact ih _ _
    | wr sa wb n ok bytes =>
      simp only [weave, Event.busSa, waEvents]
      split <;> exact ih _ _

@[simp] theorem Effect.pins_nil (acc : Acc) (l : Option Byte) (g : Gpio) :
    Effect.pins { acts := [], acc := acc, last := l } g = g := rfl

@[simp] theorem Effect.pins_seq (a b : Effect) (g : Gpio) : (a.seq b).pins g = b.pins (a.pins g) := by
  simp [Effect.pins, Gpio.after_append]

section
variable (p : Params) (l : Loc) (g : Gpio)

@[simp] theorem readEff_pins (d : RdDraw) : (readEff l d).pins g = g := rfl
@[simp] theorem pollEff_pins (d : RdDraw) : (pollEff l d).pins g = g := rfl
@[simp] theorem writeEff_pins (b : Byte) (d : WrDraw) : (writeEff l b d).pins g = g := rfl
@[simp] theorem blockEff_pins (n : Nat) (d : BlkDraw) : (blockEff l n d).pins g = g := rfl
@[simp] theorem delayEff_pins (ms : Nat) : (delayEff ms).pins g = g := rfl
@[simp] theorem pinEff_pins (pin : Pin) (v : Bool) : (pinEff pin v).pins g = g.setPin pin v := rfl

@[simp] theorem rmwEff_pins (f : Byte → Byte) (d : RmwDraw) : (rmwEff l f d).pins g = g := by
  unfold rmwEff
  split <;> simp

@[simp] theorem setEff_pins (m : Byte) (d : RmwDraw) : (setEff l m d).pins g = g := rmwEff_pins _ _ _ _
@[simp] theorem clrEff_pins (m : Byte) (d : RmwDraw) : (clrEff l m d).pins g = g := rmwEff_pins _ _ _ _

@[simp] theorem writesEff_pins (ws : List (Loc × Byte)) (ds : List WrDraw) : (writesEff ws ds).pins g = g := by
  induction ws generalizing ds with
  | nil => rfl
  | cons w ws ih =>
    cases ds with
    | nil => rfl
    | cons d ds => simp [writesEff, ih]

@[simp] theorem auxPollEff_pins (d : RdDraw) : (auxPollEff p d).pins g = g := rfl

@[simp] theorem waitEff_pins (d : WaitDraw) : (waitEff p d).pins g = g := by
  have hpolls : ∀ ds, (auxPollsEff p ds).pins g = g := fun ds => by
    induction ds with
    | nil => rfl
    | cons d ds ih => simp [auxPollsEff, ih]
  have hend : (waitEndEff p d.fin).pins g = g := by cases d.fin <;> rfl
  simp [waitEff, hpolls, hend]

@[simp] theorem auxWriteEff_pins (o : Byte) (d : AuxWriteDraw) : (auxWriteEff p o d).pins g = g := by simp [auxWriteEff]
@[simp] theorem auxReadEff_pins (c : Byte) (d : AuxReadDraw) : (auxReadEff p c d).pins g = g := by simp [auxReadEff]
@[simp] theorem addrEff_pins (dev : Byte) (d : AddrDraw) : (addrEff p dev d).pins g = g := by simp [addrEff]
@[simp] theorem auxResetEff_pins (d : PulseDraw) : (auxResetEff p d).pins g = g := by simp [auxResetEff]
@[simp] theorem countEff_pins (d : CountDraw) : (countEff p d).pins g = g := by simp [countEff]
@[simp] theorem initEff_pins (d : InitDraw) : (initEff p d).pins g = g := by simp [initEff]

@[simp] theorem attemptEff_pins (o : Byte) (w : AuxWriteDraw) (r : AuxReadDraw) : (attemptEff p o w r).pins g = g := by
  simp [attemptEff]

@[simp] theorem chunkEff_pins (o : Byte) (d : ChunkDraw) : (chunkEff p o d).pins g = g := by
  have hechoes : ∀ ds, (echoesEff p o ds).pins g = g := fun ds => by
    induction ds with
    | nil => rfl
    | cons d ds ih => simp [echoesEff, ih]
  cases hl : d.last with
  | none => simp [chunkEff, hl, hechoes]
  | some l =>
    by_cases hr : l.read.res = .ok <;> simp [chunkEff, hl, hechoes, lastEff, hr]

@[simp] theorem segEff_pins (seg o : Byte) (d : SegDraw) : (segEff p seg o d).pins g = g := by
  cases hc : d.chunk <;> simp [segEff, hc]

@[simp] theorem piecesEff_pins (k : Nat) (ds : List PieceDraw) : (piecesEff p k ds).pins g = g := by
  induction ds generalizing k with
  | nil => rfl
  | cons d ds ih => cases d <;> simp [piecesEff, pieceEff, ih]

@[simp] theorem strobeEff_pins (a b : RmwDraw) : (strobeEff p a b).pins g = g := by simp [strobeEff]

@[simp] theorem fwEff_pins (d : FwDraw) : (fwEff p d).pins g = g := by
  by_cases hl : d.loaded p = true <;> simp [fwEff, hl]

@[simp] theorem fwPollsEff_pins (ds : List FwDraw) : (fwPollsEff p ds).pins g = g := by
  induction ds with
  | nil => rfl
  | cons d ds ih => simp [fwPollsEff, ih]

@[simp] theorem hpdPollEff_pins (d : RdDraw) : (hpdPollEff p d).pins g = g := rfl

@[simp] theorem hpdPollsEff_pins (ds : List RdDraw) : (hpdPollsEff p ds).pins g = g := by
  induction ds with
  | nil => rfl
  | cons d ds ih => simp [hpdPollsEff, ih]

@[simp] theorem hpdEff_pins (d : HpdDraw) : (hpdEff p d).pins g = g := by simp [hpdEff, startEff]

/-- An attempt starts with both pins high, and the reset of the chip released (46_power_link.md R240). -/
@[simp] theorem powerOnEff_pins : (powerOnEff p).pins g = { g with pwrEn := true, rstRel := true } := rfl

/-- After PowerDown both pins are low (46_power_link.md R243). -/
@[simp] theorem powerDownEff_pins : (powerDownEff p).pins g = { g with pwrEn := false, rstRel := false } := rfl

/-- After any failed attempt both pins are low (46_power_link.md R243). -/
theorem failedEff_pins {as : List (List FwDraw)} (h : as ≠ []) :
    (failedEff p as).pins g = { g with pwrEn := false, rstRel := false } := by
  induction as generalizing g with
  | nil => exact absurd rfl h
  | cons a as ih =>
    cases as with
    | nil => simp [failedEff]
    | cons b as =>
      rw [failedEff]
      simp only [Effect.pins_seq, powerOnEff_pins, fwPollsEff_pins, powerDownEff_pins, ih _ (List.cons_ne_nil b as)]

/-- After a ready poll both pins are high, whatever attempts failed before (46_power_link.md R240). -/
theorem readyEff_pins (d : ReadyDraw) : (readyEff p d).pins g = { g with pwrEn := true, rstRel := true } := by
  simp [readyEff]

end

/-! ## Where a procedure has got to -/

/-- The running command got from `u` to `v` by effect `e`; its shadow and PSTATE are read off `v`. -/
def Reached (u : State) (e : Effect) (v : State) : Prop := Did u e v.shadow v.pstate v

section
variable {p : Params} {u v w : State} {e e' : Effect} {r : Results} {st : PState}

theorem Did.reached (h : Did u e r st v) : Reached u e v := by
  have hs := h.shadow
  have hp := h.pstate
  subst hs hp
  exact h

theorem Reached.refl (u : State) : Reached u {} u := Did.refl u

theorem Reached.trans (h : Reached u e v) (h' : Reached v e' w) : Reached u (e.seq e') w := Did.trans h h'

theorem Reached.setShadow (h : Reached u e v) (r : Results) : Reached u e (v.setShadow r) := Did.setShadow h r

theorem Reached.orAcc (h : Reached u e v) (a : Acc) : Reached u (e.seq { acc := a }) (v.orAcc a) := Did.orAcc h a

theorem Reached.ready (h : Reached u e v) (hu : Ready p u) : Ready p v := Did.ready h hu

end

end Sys2Proof.Machine

namespace Sys2Proof.Machine

/-! ## What a full EDID read stores (43_edid.md R168-R170) -/

/-- `m'` is `m` with more bytes written, so that the first `n`, of at most 512, are. -/
structure Stores (m m' : Memory) (n : Nat) : Prop where
  wf : Memory.wf m = true → Memory.wf m' = true
  len : n ≤ 512
  written : ∀ a < n, (Memory.readByte m' a).isSome = true

theorem chunkDest_eq (k : Nat) : chunkDest k = 16 * k := by
  simp only [chunkDest, Config.CHUNKS_PER_GROUP]
  omega

theorem BlkDraw.bytes_length {d : BlkDraw} {b : List Byte} (h : d.bytes Config.CHUNK_LEN = some b) : b.length = 16 := by
  cases hv : d.v with
  | none => simp [BlkDraw.bytes, hv] at h
  | some x =>
    simp only [BlkDraw.bytes, hv, Option.map_some, Option.some.injEq] at h
    simp [← h]

theorem ChunkDraw.chunk_length {d : ChunkDraw} (h : d.chunk.res = .ok) : d.chunk.data.length = 16 := by
  unfold ChunkDraw.chunk at *
  cases hl : d.last with
  | none => simp [hl] at h
  | some l =>
    simp only [hl] at h ⊢
    split at h
    · next hb => exact BlkDraw.bytes_length hb
    · cases h
    · cases h

theorem AuxRes.code_eq_ok {r : AuxRes} : r.code = .ok ↔ r = .ok := by cases r <;> simp [AuxRes.code]

/-- A chunk that was read has 16 bytes (43_edid.md R162). -/
theorem PieceDraw.data_length {p : Params} {k : Nat} {d : PieceDraw} (hl : d.legal p k = true)
    (hr : d.result.res = .ok) : d.result.data.length = 16 := by
  cases d with
  | direct d => exact ChunkDraw.chunk_length hr
  | segment d =>
    simp only [PieceDraw.result, SegDraw.result] at hr ⊢
    cases hc : d.chunk with
    | some c => rw [hc] at hr; exact ChunkDraw.chunk_length hr
    | none =>
      have hbad : d.worst ≠ .ok := by
        simp only [PieceDraw.legal, SegDraw.legal, hc, Bool.and_eq_true, decide_eq_true_eq] at hl
        exact hl.2.2
      rw [hc] at hr
      exact absurd (AuxRes.code_eq_ok.mp hr) hbad

theorem Memory.isSome_readByte_write (m : Memory) (a b : Nat) (v : List Byte)
    (h : (Memory.readByte m b).isSome = true ∨ (a ≤ b ∧ b < a + v.length ∧ b < 512)) :
    (Memory.readByte (Memory.write m a v) b).isSome = true := by
  rw [Memory.readByte_write]
  split
  · rw [Option.isSome_or, Bool.or_eq_true]
    rcases h with h | ⟨h1, h2, _⟩
    · exact .inr h
    · have hidx : b - a < v.length := by omega
      exact .inl (by rw [List.getElem?_eq_getElem hidx]; rfl)
  · next hout => exact h.resolve_right fun ⟨h1, _, h3⟩ => hout ⟨h1, h3⟩

theorem Stores.write {m m' : Memory} {n : Nat} (h : Stores m m' n) {v : List Byte} (hn : n + v.length ≤ 512) :
    Stores m (Memory.write m' n v) (n + v.length) where
  wf hm := Memory.wf_write (h.wf hm) n v
  len := hn
  written a ha := Memory.isSome_readByte_write _ _ _ _ <| by
    rcases Nat.lt_or_ge a n with hlt | hge
    · exact .inl (h.written a hlt)
    · exact .inr ⟨hge, ha, by omega⟩

theorem okPieces_cons (d : PieceDraw) (ds : List PieceDraw) :
    okPieces (d :: ds) = if d.result.res = .ok then okPieces ds + 1 else okPieces ds := by
  simp only [okPieces, List.filter_cons, decide_eq_true_eq]
  split <;> rfl

/-- The chunks that fit the destination are the ones below `size / 16`. When those of them before chunk `k` are stored,
the chunks from `k` on go on storing them in order, as many as the read counts. -/
theorem piecesBuf_stores {p : Params} {size k : Nat} {m m' : Memory} {ds : List PieceDraw} (hsize : size ≤ 512)
    (hl : piecesLegal p k ds = true) (hm : Stores m m' (16 * min k (size / 16))) :
    Stores m (piecesBuf size k m' ds) (16 * (min k (size / 16) +
      ((List.range' k (okPieces ds)).filter fun k => decide (chunkDest k + 16 ≤ size)).length)) := by
  induction ds generalizing k m' with
  | nil => exact hm
  | cons d ds ih =>
    simp only [piecesLegal, Bool.and_eq_true, Bool.or_eq_true, decide_eq_true_eq] at hl
    obtain ⟨⟨hd, hlast⟩, hds⟩ := hl
    rw [okPieces_cons, piecesBuf]
    by_cases hr : d.result.res = .ok
    · rw [if_pos hr, range_filter_succ, ← Nat.add_assoc]
      by_cases hfit : chunkDest k + 16 ≤ size
      · have hk : k < size / 16 := by rw [chunkDest_eq] at hfit; omega
        have hnow : min k (size / 16) = k := by omega
        have hnext : min (k + 1) (size / 16) = min k (size / 16) + 1 := by omega
        have hlen := PieceDraw.data_length hd hr
        have hw := hm.write (v := d.result.data) (by omega)
        rw [hlen, ← Nat.mul_succ, Nat.succ_eq_add_one, ← hnext, hnow, ← chunkDest_eq] at hw
        simpa only [hr, hfit, and_self, if_true, decide_true, hnext] using ih hds hw
      · have hnext : min (k + 1) (size / 16) = min k (size / 16) := by rw [chunkDest_eq] at hfit; omega
        rw [← hnext] at hm
        simpa only [hr, hfit, and_false, if_false, decide_false, Bool.false_eq_true, hnext, Nat.add_zero]
          using ih hds hm
    · obtain rfl : ds = [] := List.isEmpty_iff.mp (hlast.resolve_left hr)
      rw [if_neg hr, if_neg fun h => hr h.1]
      exact hm

end Sys2Proof.Machine

namespace Sys2Proof.Machine

/-! ## What each command leaves behind

Two tables over the commands, and the lemma of each command that it runs as its rows say. -/

/-- No pin is moved. -/
def Effect.Still (e : Effect) : Prop := ∀ g, e.pins g = g

/-- Both pins of the sequencer are left at `b`. -/
def Effect.SetsPins (e : Effect) (b : Bool) : Prop := ∀ g, e.pins g = { g with pwrEn := b, rstRel := b }

/-- The result registers `b` that a command may leave on `a` (10_state.md R38, R41, R44, R45, R47-R50, R56, R57). -/
def MayWrite (i : Instr) (a b : Results) : Prop :=
  match i with
  | .nop | .regRead _ _ | .regWrite _ _ _ | .regSet _ _ _ | .regClr _ _ _ | .auxReset | .mnStrobe | .waitHpd
  | .powerRole | .powerOff => ∃ w, b = { a with rdata := w }
  | .regReadBlock _ _ _ => ∃ w d, b = { a with rdata := w, dbuf := d }
  | .auxWrite _ | .auxRead _ => ∃ w y, b = { a with rdata := w, auxLastStatus := y }
  | .edidReadChunk _ | .edidReadSegment _ _ => ∃ w y d, b = { a with rdata := w, auxLastStatus := y, dbuf := d }
  | .edidBlockCount => ∃ w y c raw, c.toNat ≤ 3 ∧
      b = { a with rdata := w, auxLastStatus := y, edidCount := c, edidRaw := raw }
  | .edidReadFull => (∃ w y, b = { a with rdata := w, auxLastStatus := y }) ∨
      ∃ w y c raw m n, c.toNat ≤ 3 ∧ Stores a.edidBuf m n ∧
        b = { a with
          rdata := w, auxLastStatus := y, edidCount := c, edidRaw := raw, edidBuf := m,
          edidValidLen := BitVec.ofNat 10 n }
  | .pllSolve | .videoConfig => (∃ w, b = { a with rdata := w }) ∨
      ∃ w c, c.pd ∈ legalPd ∧ b = Results.withPll { a with rdata := w } c
  | .powerUp => ∃ w x y, b = { a with rdata := w, fwVersion := x, fwRevision := y }

/-- What a command with effect `e` and code `c` does to the pins, and to PSTATE from `st` to `st'` (10_state.md R43,
R59; 46_power_link.md R240, R243, R245, R250, R251). -/
def MovesPower (i : Instr) (e : Effect) (st st' : PState) (c : Code) : Prop :=
  match i with
  | .powerUp => e.Still ∧ st ≠ .off ∧ st' = st ∨ e.SetsPins false ∧ st' = .off ∨ e.SetsPins true ∧ st' = .firmwareLoaded
  | .waitHpd => e.Still ∧ (st' = st ∨ st' = .linkReady)
  | .powerOff => e.Still ∧ st' = st ∧ c ≠ .ok ∨ e.SetsPins false ∧ st' = .off
  | _ => e.Still ∧ st' = st

/-- The rule `x` runs to its end from `u`, and leaves what the rows of command `i` say. -/
def RunsAs (i : Instr) (x : Proc Code) (u : State) : Prop :=
  ∃ c e v, x u = .ok c v ∧ Reached u e v ∧ MayWrite i u.shadow v.shadow ∧ MovesPower i e u.pstate v.pstate c

section
variable {p : Params} {u v : State} {e : Effect}

theorem RunsAs.of_reached {i : Instr} {x : Proc Code} (hd : Reached u e v)
    (h : ∃ c r, x u = .ok c (v.setShadow r) ∧ MayWrite i u.shadow r ∧ MovesPower i e u.pstate v.pstate c) :
    RunsAs i x u := by
  obtain ⟨c, r, hx, hw, hp⟩ := h
  exact ⟨c, e, v.setShadow r, hx, hd.setShadow r, hw, hp⟩

/-! ### Registers -/

theorem cmdNop_runs : RunsAs .nop cmdNop u :=
  .of_reached (Reached.refl u) ⟨_, _, rfl, ⟨_, rfl⟩, fun _ => rfl, rfl⟩

theorem cmdRegRead_runs (hu : Ready p u) (sa off : Byte) : RunsAs (.regRead sa off) (cmdRegRead p sa off) u := by
  obtain ⟨d, v, hv, hd⟩ := regRead_did hu ⟨sa, off⟩
  refine .of_reached hd.reached ?_
  simp only [cmdRegRead, bind_apply, hv]
  cases d.v <;> exact ⟨_, _, rfl, ⟨_, by rw [hd.shadow]⟩, fun _ => by simp, hd.pstate⟩

theorem cmdRegWrite_runs (hu : Ready p u) (sa off b : Byte) :
    RunsAs (.regWrite sa off b) (cmdRegWrite p sa off b) u := by
  obtain ⟨d, v, hv, hd⟩ := regWrite_did hu ⟨sa, off⟩ b
  refine .of_reached hd.reached ?_
  simp only [cmdRegWrite, bind_apply, hv]
  exact ⟨_, _, rfl, ⟨_, by rw [hd.shadow]⟩, fun _ => by simp, hd.pstate⟩

theorem cmdRegReadBlock_runs (hu : Ready p u) (sa off len : Byte) :
    RunsAs (.regReadBlock sa off len) (cmdRegReadBlock p sa off len) u := by
  unfold cmdRegReadBlock
  split
  · obtain ⟨d, v, hv, hd⟩ := regReadBlock_did hu ⟨sa, off⟩ len.toNat
    refine .of_reached hd.reached ?_
    simp only [bind_apply, hv]
    cases d.bytes len.toNat with
    | some r => exact ⟨_, _, rfl, ⟨_, dbufOf r, by rw [State.setShadow_shadow, hd.shadow]⟩, fun _ => by simp, hd.pstate⟩
    | none => exact ⟨_, _, rfl, ⟨_, u.shadow.dbuf, by rw [hd.shadow]⟩, fun _ => by simp, hd.pstate⟩
  · exact .of_reached ((Reached.refl u).orAcc _) ⟨_, _, rfl, ⟨_, u.shadow.dbuf, rfl⟩, fun _ => rfl, rfl⟩

theorem cmdRegSet_runs (hu : Ready p u) (sa off m : Byte) : RunsAs (.regSet sa off m) (cmdRegSet p sa off m) u := by
  obtain ⟨d, v, hv, hd⟩ := regSet_did hu ⟨sa, off⟩ m
  refine .of_reached hd.reached ?_
  simp only [cmdRegSet, bind_apply, hv]
  exact ⟨_, _, rfl, ⟨_, by rw [hd.shadow]⟩, fun _ => by simp, hd.pstate⟩

theorem cmdRegClr_runs (hu : Ready p u) (sa off m : Byte) : RunsAs (.regClr sa off m) (cmdRegClr p sa off m) u := by
  obtain ⟨d, v, hv, hd⟩ := regClr_did hu ⟨sa, off⟩ m
  refine .of_reached hd.reached ?_
  simp only [cmdRegClr, bind_apply, hv]
  exact ⟨_, _, rfl, ⟨_, by rw [hd.shadow]⟩, fun _ => by simp, hd.pstate⟩

/-! ### AUX -/

theorem auxReport_ends (r : AuxRes × Nat) (v : State) :
    ∃ c w, auxReport r v = .ok c (v.setShadow { v.shadow with rdata := w }) := by
  obtain ⟨res, n⟩ := r
  cases res <;> exact ⟨_, _, rfl⟩

theorem cmdAuxWrite_runs (hu : Ready p u) (o : Byte) : RunsAs (.auxWrite o) (cmdAuxWrite p o) u := by
  obtain ⟨d, v, _, hv, hd⟩ := auxWrite_did hu o
  obtain ⟨c, w, hend⟩ := auxReport_ends (d.res, d.wait.polls) v
  refine .of_reached (Did.reached hd) ?_
  simp only [cmdAuxWrite, bind_apply, hv, hend]
  exact ⟨_, _, rfl, ⟨w, _, by rw [Did.shadow hd]; rfl⟩, fun _ => by simp, Did.pstate hd⟩

theorem cmdAuxRead_runs (hu : Ready p u) (k : Byte) : RunsAs (.auxRead k) (cmdAuxRead p k) u := by
  obtain ⟨d, v, _, hv, hd⟩ := auxRead_did hu k
  obtain ⟨c, w, hend⟩ := auxReport_ends (d.res, d.wait.polls) v
  refine .of_reached (Did.reached hd) ?_
  simp only [cmdAuxRead, bind_apply, hv, hend]
  exact ⟨_, _, rfl, ⟨w, _, by rw [Did.shadow hd]; rfl⟩, fun _ => by simp, Did.pstate hd⟩

theorem auxResetEff_last (d : PulseDraw) : (auxResetEff p d).last = none := by
  simp only [auxResetEff, setEff, clrEff, Effect.seq_last, rmwEff_last, Option.or_none]

theorem cmdAuxReset_runs (hu : Ready p u) : RunsAs .auxReset (cmdAuxReset p) u := by
  obtain ⟨d, v, hv, hd⟩ := auxReset_did hu
  refine .of_reached (Did.reached hd) ?_
  simp only [cmdAuxReset, bind_apply, hv]
  exact ⟨_, _, rfl, ⟨_, by rw [Did.shadow hd, Results.withStatus_of_last (auxResetEff_last d)]⟩, fun _ => by simp,
    Did.pstate hd⟩

/-! ### EDID -/

theorem edidClamp_le (v : Byte) : (edidClamp v).toNat ≤ 3 := by
  unfold edidClamp
  split
  · decide
  · omega

theorem cmdEdidBlockCount_runs (hu : Ready p u) : RunsAs .edidBlockCount (cmdEdidBlockCount p) u := by
  obtain ⟨d, v, _, hv, hd⟩ := blockCount_did hu
  refine .of_reached (Did.reached hd) ?_
  simp only [cmdEdidBlockCount, bind_apply, hv]
  exact ⟨_, _, rfl, ⟨_, _, _, d.raw, edidClamp_le _, by rw [State.setShadow_shadow, Did.shadow hd]; rfl⟩,
    fun _ => by simp, Did.pstate hd⟩

/-- A chunk command reports in RDATA, and in DBUF when it read the chunk (43_edid.md R172). -/
theorem chunkReport_ends (c : Chunk) (v : State) :
    ∃ k w d, chunkReport c v = .ok k (v.setShadow { v.shadow with rdata := w, dbuf := d }) := by
  unfold chunkReport
  split
  · exact ⟨_, _, _, rfl⟩
  · exact ⟨_, _, v.shadow.dbuf, rfl⟩

theorem cmdEdidReadChunk_runs (hu : Ready p u) (o : Byte) : RunsAs (.edidReadChunk o) (cmdEdidReadChunk p o) u := by
  obtain ⟨d, v, _, hv, hd⟩ := edidChunk_did hu o
  obtain ⟨k, w, x, hend⟩ := chunkReport_ends d.chunk v
  refine .of_reached (Did.reached hd) ?_
  simp only [cmdEdidReadChunk, bind_apply, hv, hend]
  exact ⟨_, _, rfl, ⟨w, _, x, by rw [Did.shadow hd]; rfl⟩, fun _ => by simp, Did.pstate hd⟩

theorem cmdEdidReadSegment_runs (hu : Ready p u) (g o : Byte) :
    RunsAs (.edidReadSegment g o) (cmdEdidReadSegment p g o) u := by
  obtain ⟨d, v, _, hv, hd⟩ := edidSegChunk_did hu g o
  obtain ⟨k, w, x, hend⟩ := chunkReport_ends d.result v
  refine .of_reached (Did.reached hd) ?_
  simp only [cmdEdidReadSegment, bind_apply, hv, hend]
  exact ⟨_, _, rfl, ⟨w, _, x, by rw [Did.shadow hd]; rfl⟩, fun _ => by simp, Did.pstate hd⟩

theorem cmdEdidReadFull_runs (hu : Ready p u) : RunsAs .edidReadFull (cmdEdidReadFull p) u := by
  obtain ⟨d1, v1, h1, e1⟩ := edidInit_did hu
  have r1 : Reached u _ v1 := Did.reached e1
  cases hok : d1.good with
  | false =>
    rw [hok] at h1
    refine .of_reached r1 ?_
    simp only [cmdEdidReadFull, bind_apply, get_apply, h1]
    exact ⟨_, _, rfl, .inl ⟨_, _, by rw [Did.shadow e1]; rfl⟩, fun _ => by simp, Did.pstate e1⟩
  | true =>
    rw [hok] at h1
    obtain ⟨d2, v2, _, h2, e2⟩ := blockCount_did (r1.ready hu)
    have r2 := r1.trans (Did.reached e2)
    obtain ⟨ds, v3, hl, _, _, h3, e3⟩ := edidCollect_did
      ((r2.setShadow { v2.shadow with edidCount := edidClamp d2.raw, edidRaw := d2.raw }).ready hu) u.edidDestSize
      (Config.CHUNKS_PER_GROUP * ((edidClamp d2.raw).toNat + 1)) 0 0 0
    have r3 := (r2.setShadow _).trans e3.reached
    obtain ⟨d4, v4, h4, e4⟩ := auxReset_did (r3.ready hu)
    have hbuf : v2.shadow.edidBuf = u.shadow.edidBuf := by rw [Did.shadow e2, Did.shadow e1]; rfl
    have hpst : v4.pstate = u.pstate :=
      (Did.pstate e4).trans (e3.pstate.trans ((Did.pstate e2).trans (Did.pstate e1)))
    have hstored := piecesBuf_stores (m := v2.shadow.edidBuf) (Nat.min_le_right _ _ : u.edidDestSize ≤ 512) hl
      ⟨id, by omega, by simp⟩
    rw [Nat.zero_min] at hstored
    refine .of_reached (r3.trans (Did.reached e4)) ?_
    simp only [cmdEdidReadFull, bind_apply, get_apply, h1, if_true, h2, setEdidBlocks, writeShadow_apply, h3, h4]
    cases failCode ds <;>
      exact ⟨_, _, rfl, .inr ⟨_, _, _, d2.raw, _, _, edidClamp_le _, hbuf ▸ hstored, by
        rw [State.setShadow_shadow, Did.shadow e4, e3.shadow, State.setShadow_shadow, Did.shadow e2, Did.shadow e1]
        rfl⟩, fun _ => by simp, hpst⟩

/-! ### PLL and video -/

theorem snap_mem_legalPd {d : Nat} (h : d ∈ dividers) : snap d ∈ legalPd := by
  revert h d
  decide

/-- The divider of a solve is a legal one, snapped (44_pll.md R193, R194). -/
theorem pllSolve_pd_mem {k : Nat} {c : PllCoeffs} (h : pllSolve p k = some c) : c.pd ∈ legalPd := by
  unfold pllSolve at h
  split at h
  · split at h
    · cases h
    · next raw hraw =>
      have hmem : raw ∈ dividers := by
        unfold pickDivider at hraw
        split at hraw
        · next d hd => cases hraw; exact List.mem_of_find?_eq_some hd
        · exact List.mem_of_find?_eq_some hraw
      dsimp only at h
      split at h
      · cases h
      · split at h
        · cases h
        · cases h; exact snap_mem_legalPd hmem
  · cases h

theorem cmdPllSolve_runs : RunsAs .pllSolve (cmdPllSolve p) u := by
  refine .of_reached (Reached.refl u) ?_
  simp only [cmdPllSolve, bind_apply, get_apply, setRdata_apply]
  cases hc : pllSolve p u.inputs.pllClkHz.toNat with
  | none => exact ⟨_, _, rfl, .inl ⟨_, rfl⟩, fun _ => rfl, rfl⟩
  | some c => exact ⟨_, _, rfl, .inr ⟨_, c, pllSolve_pd_mem hc, rfl⟩, fun _ => rfl, rfl⟩

/-- A procedure that runs to its end, moves no pin, and leaves the shadow and PSTATE alone. -/
def Accesses (p : Params) {α : Type} (x : Proc α) : Prop :=
  ∀ u, Ready p u → ∃ a e v, x u = .ok a v ∧ DidPlain u e v ∧ e.Still

theorem Accesses.bind {α β : Type} {x : Proc α} {f : α → Proc β} (hx : Accesses p x) (hf : ∀ a, Accesses p (f a)) :
    Accesses p (x >>= f) := by
  intro u hu
  obtain ⟨a, e, v, hv, hd, he⟩ := hx u hu
  obtain ⟨b, e', w, hw, hd', he'⟩ := hf a v (hd.ready hu)
  exact ⟨b, e.seq e', w, by rw [bind_apply, hv]; exact hw, hd.trans hd', fun g => by rw [Effect.pins_seq, he, he']⟩

theorem accesses_regWriteAll (ws : List (Loc × Byte)) : Accesses p (regWriteAll p ws) := fun _ hu =>
  have ⟨_, v, _, hv, hd⟩ := regWriteAll_did hu ws
  ⟨(), _, v, hv, hd, fun _ => writesEff_pins _ _ _⟩

theorem accesses_programLanes : Accesses p (programLanes p) := fun _ hu =>
  have ⟨_, _, _, v, hv, hd⟩ := programLanes_did hu
  ⟨(), _, v, hv, hd, fun _ => by simp⟩

theorem accesses_programPostdiv (pd : Nat) : Accesses p (programPostdiv p pd) := fun _ hu =>
  have ⟨_, _, _, v, hv, hd⟩ := programPostdiv_did hu pd
  ⟨(), _, v, hv, hd, fun _ => by simp⟩

theorem accesses_mnStrobe : Accesses p (mnStrobe p) := fun _ hu =>
  have ⟨_, _, v, hv, hd⟩ := mnStrobe_did hu
  ⟨(), _, v, hv, hd, fun _ => strobeEff_pins _ _ _ _⟩

theorem accesses_endCode : Accesses p endCode := fun u _ => ⟨_, _, u, rfl, DidPlain.refl u, fun _ => rfl⟩

theorem cmdMnStrobe_runs (hu : Ready p u) : RunsAs .mnStrobe (cmdMnStrobe p) u := by
  obtain ⟨_, e, v, hv, hd, he⟩ := accesses_mnStrobe u hu
  refine .of_reached (Did.reached hd) ?_
  simp only [cmdMnStrobe, bind_apply, hv]
  exact ⟨_, _, rfl, ⟨_, by rw [Did.shadow hd]⟩, he, Did.pstate hd⟩

/-- The steps of VIDEO_CONFIG after a successful solve (45_video_config.md R220). -/
def videoSteps (p : Params) (x : Inputs) (c : PllCoeffs) : Proc Code := do
  programPixclk p x.tPixclkKhz.toNat
  programLanes p
  programHorizontal p x
  programVertical p x
  programMN p c.m c.n
  programDigAdj p
  programPostdiv p c.pd
  mnStrobe p
  endCode

theorem cmdVideoConfig_some {c : PllCoeffs} (hc : pllSolve p (u.inputs.tPixclkKhz.toNat * 1000) = some c) :
    cmdVideoConfig p u = videoSteps p u.inputs c (u.setShadow (Results.withPll { u.shadow with rdata := 0 } c)) := by
  simp only [cmdVideoConfig, videoSteps, setPll, bind_apply, get_apply, setRdata_apply, writeShadow_apply, hc]
  rfl

theorem accesses_videoSteps (x : Inputs) (c : PllCoeffs) : Accesses p (videoSteps p x c) :=
  (accesses_regWriteAll _).bind fun _ => accesses_programLanes.bind fun _ => (accesses_regWriteAll _).bind fun _ =>
    (accesses_regWriteAll _).bind fun _ => (accesses_regWriteAll _).bind fun _ => (accesses_regWriteAll _).bind fun _ =>
    (accesses_programPostdiv _).bind fun _ => accesses_mnStrobe.bind fun _ => accesses_endCode

theorem cmdVideoConfig_runs (hu : Ready p u) : RunsAs .videoConfig (cmdVideoConfig p) u := by
  cases hc : pllSolve p (u.inputs.tPixclkKhz.toNat * 1000) with
  | none =>
    refine .of_reached (Reached.refl u) ?_
    simp only [cmdVideoConfig, bind_apply, get_apply, setRdata_apply, hc]
    exact ⟨_, _, rfl, .inl ⟨_, rfl⟩, fun _ => rfl, rfl⟩
  | some c =>
    obtain ⟨k, e, v, hv, hd, he⟩ :=
      accesses_videoSteps u.inputs c _ (hu.setShadow (.withPll { u.shadow with rdata := 0 } c))
    exact ⟨k, e, v, (cmdVideoConfig_some hc).trans hv, Did.reached (Did.fromSetShadow hd),
      .inr ⟨_, c, pllSolve_pd_mem hc, Did.shadow hd⟩, he, Did.pstate hd⟩

/-! ### Power and link -/

theorem cmdPowerUp_runs (hu : Ready p u) : RunsAs .powerUp (cmdPowerUp p) u := by
  by_cases hst : u.pstate = .off
  · have hrun : cmdPowerUp p u = powerAttempts p Config.POWERUP_ATTEMPTS 1 u := by
      simp only [cmdPowerUp, bind_apply, get_apply, hst, ne_eq, not_true_eq_false, if_false]
    rcases powerAttempts_did hu Config.POWERUP_ATTEMPTS 1 with
      ⟨as, v, _, hlen, hv, hd⟩ | ⟨as, d, vr, v, _, _, _, hv, hd⟩
    · have hne : as ≠ [] := fun h => by simp [h, Config.POWERUP_ATTEMPTS] at hlen
      exact ⟨_, _, v, hrun.trans hv, hd.reached, ⟨_, _, _, hd.shadow⟩,
        .inr (.inl ⟨fun g => failedEff_pins p g hne, hd.pstate⟩)⟩
    · have hpins : ((failedEff p as).seq (readyEff p d)).SetsPins true := fun g => by
        rw [Effect.pins_seq, readyEff_pins]
        cases as with
        | nil => rfl
        | cons a as => rw [failedEff_pins _ _ (List.cons_ne_nil a as)]
      exact ⟨_, _, v, hrun.trans hv, hd.reached, ⟨_, _, _, hd.shadow⟩, .inr (.inr ⟨hpins, hd.pstate⟩)⟩
  · refine .of_reached ((Reached.refl u).orAcc { ill := true }) ?_
    simp only [cmdPowerUp, bind_apply, get_apply, ne_eq, hst, not_false_eq_true, if_true, refuse_apply]
    exact ⟨_, _, rfl, ⟨_, _, _, rfl⟩, .inl ⟨fun _ => rfl, hst, rfl⟩⟩

theorem cmdWaitHpd_runs (hu : Ready p u) : RunsAs .waitHpd (cmdWaitHpd p) u := by
  by_cases hst : u.pstate = .firmwareLoaded
  · have hrun : cmdWaitHpd p u = hpdPolls p Config.HPD_POLL_MAX 1 u := by
      simp only [cmdWaitHpd, bind_apply, get_apply, hst, ne_eq, not_true_eq_false, if_false]
    rcases hpdPolls_did hu Config.HPD_POLL_MAX 1 with ⟨ds, v, _, _, hv, hd⟩ | ⟨d, v, _, _, _, hv, hd⟩
    · exact ⟨_, _, v, hrun.trans hv, hd.reached, ⟨_, hd.shadow⟩, fun _ => by simp, .inl hd.pstate⟩
    · exact ⟨_, _, v, hrun.trans hv, hd.reached, ⟨_, hd.shadow⟩, fun _ => by simp, .inr hd.pstate⟩
  · refine .of_reached ((Reached.refl u).orAcc { ill := true }) ?_
    simp only [cmdWaitHpd, bind_apply, get_apply, ne_eq, hst, not_false_eq_true, if_true, refuse_apply]
    exact ⟨_, _, rfl, ⟨_, rfl⟩, fun _ => rfl, .inl rfl⟩

theorem cmdPowerRole_runs (hu : Ready p u) : RunsAs .powerRole (cmdPowerRole p) u := by
  obtain ⟨d, v, hv, hd⟩ := regRead_did hu p.CHIP_MAP.L_SYS_STATUS
  refine .of_reached hd.reached ?_
  simp only [cmdPowerRole, bind_apply, hv]
  cases d.v <;> exact ⟨_, _, rfl, ⟨_, by rw [hd.shadow]⟩, fun _ => by simp, hd.pstate⟩

theorem cmdPowerOff_runs (hu : Ready p u) : RunsAs .powerOff (cmdPowerOff p) u := by
  by_cases hst : u.pstate = .off ∨ u.pstate = .poweringUp
  · refine .of_reached ((Reached.refl u).orAcc { ill := true }) ?_
    simp only [cmdPowerOff, bind_apply, get_apply, hst, if_true, refuse_apply]
    exact ⟨_, _, rfl, ⟨_, rfl⟩, .inl ⟨fun _ => rfl, rfl, by decide⟩⟩
  · obtain ⟨v, hv, hd⟩ := powerDown_did hu
    refine .of_reached hd.reached ?_
    simp only [cmdPowerOff, bind_apply, get_apply, hst, if_false, hv]
    exact ⟨_, _, rfl, ⟨_, by rw [hd.shadow]⟩, .inr ⟨fun _ => rfl, hd.pstate⟩⟩

end

end Sys2Proof.Machine

namespace Sys2Proof.Machine

/-! ## How a command ends, by the tables -/

section
variable {s t : State} {i : Instr}

/-- The next state of command `i`, when no reset abandons it. -/
def Completes (i : Instr) (s t : State) : Prop :=
  ∃ x e r st c, t = s.completed x e r st c ∧ MayWrite i s.results r ∧ MovesPower i e s.pstate st c

theorem RunsAs.completes {body : Params → Proc Code} (hn : s.noReset = true)
    (h : Ready s.params.params s.start → RunsAs i (body s.params.params) s.start) :
    ∃ t, runCommand body s = .next t ∧ Completes i s t := by
  obtain ⟨c, e, v, hv, hd, hw, hp⟩ := h (Ready.ofNoReset hn).start
  obtain ⟨x, _, hx⟩ := runCommand_completed hn hv hd
  exact ⟨_, hx, x, e, _, _, c, rfl, hw, hp⟩

/-- Without a reset among the host's inputs every command completes, by its rows of the tables. -/
theorem exec_completes (i : Instr) (hn : s.noReset = true) : ∃ t, exec i s = .next t ∧ Completes i s t := by
  cases i with
  | nop => exact RunsAs.completes (body := fun _ => cmdNop) hn fun _ => cmdNop_runs
  | regRead sa off => exact RunsAs.completes (body := fun p => cmdRegRead p sa off) hn fun h => cmdRegRead_runs h sa off
  | regWrite sa off v =>
    exact RunsAs.completes (body := fun p => cmdRegWrite p sa off v) hn fun h => cmdRegWrite_runs h sa off v
  | regReadBlock sa off len =>
    exact RunsAs.completes (body := fun p => cmdRegReadBlock p sa off len) hn fun h => cmdRegReadBlock_runs h sa off len
  | regSet sa off m =>
    exact RunsAs.completes (body := fun p => cmdRegSet p sa off m) hn fun h => cmdRegSet_runs h sa off m
  | regClr sa off m =>
    exact RunsAs.completes (body := fun p => cmdRegClr p sa off m) hn fun h => cmdRegClr_runs h sa off m
  | auxWrite o => exact RunsAs.completes (body := fun p => cmdAuxWrite p o) hn fun h => cmdAuxWrite_runs h o
  | auxRead k => exact RunsAs.completes (body := fun p => cmdAuxRead p k) hn fun h => cmdAuxRead_runs h k
  | auxReset => exact RunsAs.completes hn cmdAuxReset_runs
  | edidBlockCount => exact RunsAs.completes hn cmdEdidBlockCount_runs
  | edidReadChunk o =>
    exact RunsAs.completes (body := fun p => cmdEdidReadChunk p o) hn fun h => cmdEdidReadChunk_runs h o
  | edidReadSegment g o =>
    exact RunsAs.completes (body := fun p => cmdEdidReadSegment p g o) hn fun h => cmdEdidReadSegment_runs h g o
  | edidReadFull => exact RunsAs.completes hn cmdEdidReadFull_runs
  | pllSolve => exact RunsAs.completes hn fun _ => cmdPllSolve_runs
  | videoConfig => exact RunsAs.completes hn cmdVideoConfig_runs
  | mnStrobe => exact RunsAs.completes hn cmdMnStrobe_runs
  | powerUp => exact RunsAs.completes hn cmdPowerUp_runs
  | waitHpd => exact RunsAs.completes hn cmdWaitHpd_runs
  | powerRole => exact RunsAs.completes hn cmdPowerRole_runs
  | powerOff => exact RunsAs.completes hn cmdPowerOff_runs

theorem completes_of_exec (hn : s.noReset = true) (he : exec i s = .next t) : Completes i s t := by
  obtain ⟨t', he', hc⟩ := exec_completes i hn
  rw [he] at he'
  cases he'
  exact hc

/-- With a reset among them a command completes the same way, the reset still pending, or is abandoned
(70_reset_and_hazards.md R292). -/
theorem exec_ends (he : exec i s = .next t) : Completes i s t ∨ ∃ v : State, t = v.engineReset := by
  by_cases hr : HostInput.reset ∈ s.host
  · obtain ⟨pre, post, hhost, hpre⟩ := List.eq_append_cons_of_mem hr
    have hs : s = (s.setHost pre).resetAfter post := by
      rw [State.resetAfter, State.setHost_host, ← hhost]
      rfl
    rw [hs] at he
    rcases exec_resetAfter i (s := s.setHost pre) hpre post with ⟨t', he', _, ht⟩ | ⟨v, hv⟩
    · obtain ⟨x, e, r, st, c, rfl, hw, hp⟩ := completes_of_exec (decide_eq_true hpre) he'
      rw [he] at ht
      cases ht
      exact .inl ⟨{ x with left := x.left ++ .reset :: post }, e, r, st, c, rfl, hw, hp⟩
    · rw [he] at hv
      cases hv
      exact .inr ⟨v, rfl⟩
  · exact .inl (completes_of_exec (decide_eq_true hr) he)

/-- The refusal of an illegal opcode completes as NOP does: RDATA alone is written, and no pin or PSTATE moves
(30_encoding.md R105). -/
theorem execIllegal_ends (he : execIllegal s = .next t) : Completes .nop s t ∨ ∃ v : State, t = v.engineReset := by
  rw [execIllegal, runCommand_next, refuse_apply] at he
  simp only [finish_apply, hostWindow_apply] at he
  split at he
  · next u hw =>
    obtain ⟨h', l, o, rfl⟩ := serveHost_ok hw
    cases he
    refine .inl ⟨⟨h', l, o, {}⟩, { acc := { ill := true } }, _, _, .illegalCmd, ?_, ⟨0, rfl⟩, fun _ => rfl, rfl⟩
    simp [State.completed, State.commit, State.start, State.orAcc, State.setShadow, Acc.or, weave, weaveLa, weaveWa,
      delayMs, Gpio.after]
  · next e u hw =>
    obtain ⟨_, h', l, rfl⟩ := serveHost_error hw
    cases he
    exact .inr ⟨_, rfl⟩

theorem runWord_ends {w : Word} (h : runWord w s = .next t) :
    (∃ i, Completes i (s.accept w) t) ∨ ∃ v : State, t = v.engineReset := by
  unfold runWord at h
  split at h
  · exact (exec_ends h).imp_left fun hc => ⟨_, hc⟩
  · exact (execIllegal_ends h).imp_left fun hc => ⟨_, hc⟩

end

/-! ## Properties that every step keeps -/

/-- What makes `Q` a property that every step keeps: the host's accesses, a reset and a command that completes keep
it. -/
structure KeptBySteps (Q : State → Prop) : Prop where
  host : ∀ s h, Q s → Q (s.setHost h)
  read : ∀ s a, Q s → Q (s.logRead a)
  overrun : ∀ s, Q s → Q s.overrun
  write : ∀ r v s, Q s → Q (writeReg r v s)
  reset : ∀ s : State, Q s.engineReset
  command : ∀ i w s t, Q s → Completes i (s.accept w) t → Q t

namespace KeptBySteps

variable {Q : State → Prop} {s t : State} (h : KeptBySteps Q)
include h

theorem hostWrite (hs : Q s) (a : WordIndex) (v : Word) : Q (hostWrite a v s).state := by
  unfold Machine.hostWrite
  split
  · exact h.overrun s hs
  · split
    · exact hs
    · exact h.write _ v s hs

theorem hostNext (hs : Q s) : Q (hostNext s).state := by
  unfold Machine.hostNext
  cases s.host with
  | nil => exact hs
  | cons x rest =>
    have hset : Q (s.setHost rest) := h.host s rest hs
    cases x with
    | pass => exact hset
    | wait => exact hset
    | read a => exact h.read _ a hset
    | write a v => exact h.hostWrite hset a v
    | reset => exact h.reset _

theorem step (hs : Q s) (ht : step s = .next t) : Q t := by
  have hq : Q (Machine.hostNext s).state := h.hostNext hs
  unfold Machine.step at ht
  cases hr : Machine.hostNext s with
  | done u =>
    rw [hr] at ht hq
    cases ht
    exact hq
  | command w u =>
    rw [hr] at ht hq
    rcases runWord_ends ht with ⟨i, hc⟩ | ⟨v, rfl⟩
    · exact h.command i w u t hq hc
    · exact h.reset v

end KeptBySteps

/-! ## The engine's invariant (Safety.lean) -/

theorem legalPd_lt {d : Nat} (h : d ∈ legalPd) : d < 32 := by
  revert h d
  decide

theorem ResultsOk.of_same {a b : Results} (ha : ResultsOk a) (hbuf : b.edidBuf = a.edidBuf)
    (hlen : b.edidValidLen = a.edidValidLen) (hpd : b.pllPd.toNat ∈ legalPd) (hcount : b.edidCount.toNat ≤ 3) :
    ResultsOk b where
  buf := hbuf ▸ ha.buf
  pd := hpd
  count := hcount
  len := hlen ▸ ha.len
  valid := hbuf ▸ hlen ▸ ha.valid

/-- The results a command may leave are sound if the ones it found are. -/
theorem MayWrite.resultsOk {i : Instr} {a b : Results} (h : MayWrite i a b) (ha : ResultsOk a) : ResultsOk b := by
  have hpll : ∀ w c, c.pd ∈ legalPd → ResultsOk (Results.withPll { a with rdata := w } c) := fun w c hc =>
    .of_same ha rfl rfl (by
      rw [Results.withPll, BitVec.toNat_ofNat, Nat.mod_eq_of_lt (legalPd_lt hc)]
      exact hc) ha.count
  cases i with
  | nop | regRead _ _ | regWrite _ _ _ | regSet _ _ _ | regClr _ _ _ | auxReset | mnStrobe | waitHpd
  | powerRole | powerOff =>
    obtain ⟨_, rfl⟩ := h
    exact .of_same ha rfl rfl ha.pd ha.count
  | regReadBlock _ _ _ | auxWrite _ | auxRead _ =>
    obtain ⟨_, _, rfl⟩ := h
    exact .of_same ha rfl rfl ha.pd ha.count
  | edidReadChunk _ | edidReadSegment _ _ | powerUp =>
    obtain ⟨_, _, _, rfl⟩ := h
    exact .of_same ha rfl rfl ha.pd ha.count
  | edidBlockCount =>
    obtain ⟨_, _, _, _, hc, rfl⟩ := h
    exact .of_same ha rfl rfl ha.pd hc
  | pllSolve | videoConfig =>
    obtain ⟨_, rfl⟩ | ⟨w, c, hc, rfl⟩ := h
    · exact .of_same ha rfl rfl ha.pd ha.count
    · exact hpll w c hc
  | edidReadFull =>
    obtain ⟨_, _, rfl⟩ | ⟨_, _, _, _, m, n, hc, hm, rfl⟩ := h
    · exact .of_same ha rfl rfl ha.pd ha.count
    · have hn : (BitVec.ofNat 10 n).toNat = n := by
        rw [BitVec.toNat_ofNat, Nat.mod_eq_of_lt (Nat.lt_of_le_of_lt hm.len (by decide))]
      exact ⟨hm.wf ha.buf, ha.pd, hc, hn.trans_le hm.len, fun x hx => hm.written x (hn ▸ hx)⟩

/-- No command ends in PoweringUp that did not begin there. -/
theorem MovesPower.pstate_ne {i : Instr} {e : Effect} {st st' : PState} {c : Code} (h : MovesPower i e st st' c)
    (hst : st ≠ .poweringUp) : st' ≠ .poweringUp := by
  cases i with
  | powerUp =>
    obtain ⟨_, _, rfl⟩ | ⟨_, rfl⟩ | ⟨_, rfl⟩ := h
    · exact hst
    · exact PState.noConfusion
    · exact PState.noConfusion
  | waitHpd =>
    obtain ⟨_, rfl | rfl⟩ := h
    · exact hst
    · exact PState.noConfusion
  | powerOff =>
    obtain ⟨_, rfl, _⟩ | ⟨_, rfl⟩ := h
    · exact hst
    · exact PState.noConfusion
  | _ => exact h.2 ▸ hst

theorem State.reset_resultsOk : ResultsOk State.reset.results where
  buf := rfl
  pd := by decide
  count := by decide
  len := by decide
  valid a ha := absurd ha (Nat.not_lt_zero a)

theorem State.engineReset_inv (s : State) : s.engineReset.Inv :=
  ⟨rfl, rfl, PState.noConfusion, rfl, State.reset_resultsOk⟩

theorem inv_keptBySteps : KeptBySteps State.Inv where
  host _ _ h := ⟨h.idle, h.fail, h.pstate, h.lastAddr, h.results⟩
  read _ _ h := ⟨h.idle, h.fail, h.pstate, h.lastAddr, h.results⟩
  overrun _ h := ⟨h.idle, h.fail, h.pstate, h.lastAddr, h.results⟩
  write r v s h := by
    obtain ⟨e, g, x, hw⟩ := writeReg_changes r v s
    rw [hw]
    exact ⟨h.idle, h.fail, h.pstate, h.lastAddr, h.results⟩
  reset := State.engineReset_inv
  command i w s t h hc := by
    obtain ⟨x, e, r, st, c, rfl, hw, hp⟩ := hc
    exact ⟨rfl, rfl, hp.pstate_ne h.pstate, rfl, hw.resultsOk h.results⟩

/-- Settles O53: the invariant is one of the properties that every step keeps; what a command does to it is read off the
tables. -/
theorem stepKeepsTheInvariant : Obligations.StepKeepsTheInvariant := fun _ _ hs ht => inv_keptBySteps.step hs ht

/-! ## The last-address memory (10_state.md R58) -/

theorem lastBusSa_concat (tr : List Event) (e : Event) : lastBusSa (tr ++ [e]) = (Event.busSa e).or (lastBusSa tr) := by
  simp only [lastBusSa, List.filterMap_append, List.filterMap_cons, List.filterMap_nil]
  cases Event.busSa e with
  | none => rw [List.append_nil, Option.none_or]
  | some sa => rw [List.getLast?_concat, Option.some_or]

/-- Along the acts of a command the last-address memory goes on being the sub-address of the last transaction. -/
theorem weave_tracks {p : Params} {la : LastAddr} {tr : List Event} (acts : List Act)
    (h : la.valid = true → lastBusSa tr = some la.sa) :
    (weaveLa la acts).valid = true → lastBusSa (tr ++ weave p la acts) = some (weaveLa la acts).sa := by
  induction acts generalizing la tr with
  | nil => simpa [weave, weaveLa] using h
  | cons a acts ih =>
    cases hsa : Event.busSa a.ev with
    | none =>
      have hnow : la.valid = true → lastBusSa (tr ++ [a.ev]) = some la.sa := by
        rwa [lastBusSa_concat, hsa, Option.none_or]
      simp only [weave, weaveLa, hsa]
      rw [List.append_cons]
      exact ih hnow
    | some sa =>
      have hnow : lastBusSa (tr ++ waEvents p la sa a.wa ++ [a.ev]) = some sa := by
        rw [lastBusSa_concat, hsa, Option.some_or]
      simp only [weave, weaveLa, hsa]
      rw [← List.append_assoc, List.append_cons]
      exact ih fun _ => hnow

theorem laTracks_keptBySteps : KeptBySteps State.laTracks where
  host _ _ h := h
  read _ _ h := h
  overrun _ h := h
  write r v s h := by
    obtain ⟨e, g, x, hw⟩ := writeReg_changes r v s
    rw [hw]
    exact h
  reset _ h := Bool.noConfusion h
  command i w s t h hc := by
    obtain ⟨x, e, r, st, c, rfl, _⟩ := hc
    exact weave_tracks e.acts h

/-- Settles O54: the property is one of those that every step keeps; for a command it is `weave_tracks`. -/
theorem stepKeepsTheLastAddress : Obligations.StepKeepsTheLastAddress := fun _ _ hs ht =>
  laTracks_keptBySteps.step hs ht

end Sys2Proof.Machine

namespace Sys2Proof.Machine

/-- Settles O2: the reset values meet each field of the invariant, and the last-address memory is invalid. -/
theorem resetMeetsTheInvariants : Obligations.ResetMeetsTheInvariants :=
  ⟨⟨rfl, rfl, PState.noConfusion, rfl, State.reset_resultsOk⟩, Bool.noConfusion⟩

/-! ## Owners of the result registers -/

@[simp] theorem State.completed_results (s : State) (x : Side) (e : Effect) (r : Results) (st : PState) (c : Code) :
    (s.completed x e r st c).results = r := rfl

@[simp] theorem State.completed_resets (s : State) (x : Side) (e : Effect) (r : Results) (st : PState) (c : Code) :
    (s.completed x e r st c).resets = s.resets := rfl

/-- Settles O56, by the rows of `MayWrite`. -/
theorem resultRegistersHaveTheirOwners : Obligations.ResultRegistersHaveTheirOwners := by
  intro i s t hn he
  obtain ⟨x, e, r, st, c, rfl, hw, _⟩ := completes_of_exec hn he
  cases i with
  | nop | regRead _ _ | regWrite _ _ _ | regSet _ _ _ | regClr _ _ _ | auxReset | mnStrobe | waitHpd
  | powerRole | powerOff =>
    obtain ⟨_, rfl⟩ := hw
    simp [State.edidByte]
  | regReadBlock _ _ _ | auxWrite _ | auxRead _ =>
    obtain ⟨_, _, rfl⟩ := hw
    simp [State.edidByte]
  | edidReadChunk _ | edidReadSegment _ _ | powerUp =>
    obtain ⟨_, _, _, rfl⟩ := hw
    simp [State.edidByte]
  | edidBlockCount =>
    obtain ⟨_, _, _, _, _, rfl⟩ := hw
    simp [State.edidByte]
  | pllSolve | videoConfig =>
    obtain ⟨_, rfl⟩ | ⟨_, _, _, rfl⟩ := hw <;> simp [State.edidByte, Results.withPll]
  | edidReadFull =>
    obtain ⟨_, _, rfl⟩ | ⟨_, _, _, _, _, _, _, _, rfl⟩ := hw <;> simp

/-! ## The pins (10_state.md R43) -/

theorem Effect.pins_pnegEn (e : Effect) (g : Gpio) : (e.pins g).pnegEn = g.pnegEn := by
  unfold Effect.pins
  induction e.acts.map Act.ev generalizing g with
  | nil => rfl
  | cons ev evs ih =>
    cases ev with
    | g pin v => exact (ih _).trans (Gpio.setPin_pnegEn g pin v)
    | d ms => exact ih g
    | w sa bytes ok => exact ih g
    | wr sa wb n ok bytes => exact ih g

theorem State.completed_gpio (s : State) (x : Side) (e : Effect) (r : Results) (st : PState) (c : Code) :
    (s.completed x e r st c).gpio = e.pins s.gpio := Gpio.after_weave _ _ _ _

theorem MovesPower.still {i : Instr} {e : Effect} {st st' : PState} {c : Code} (h : MovesPower i e st st' c)
    (hup : i ≠ .powerUp) (hoff : i ≠ .powerOff) : e.Still := by
  cases i with
  | powerUp => exact absurd rfl hup
  | powerOff => exact absurd rfl hoff
  | _ => exact h.1

theorem Effect.SetsPins.pins {e : Effect} {b : Bool} (h : e.SetsPins b) (g : Gpio) :
    (e.pins g).pwrEn = b ∧ (e.pins g).rstRel = b := by
  rw [h g]
  exact ⟨rfl, rfl⟩

/-- Settles O57, by the rows of `MovesPower`. -/
theorem onlyThePowerCommandsMoveThePins : Obligations.OnlyThePowerCommandsMoveThePins := by
  intro i s t hn he
  obtain ⟨x, e, r, st, c, rfl, _, hp⟩ := completes_of_exec hn he
  simp only [State.videoEn, State.videoRstRel, State.completed_gpio]
  refine ⟨e.pins_pnegEn _, fun hup hoff => hp.still hup hoff _, ?up, ?off⟩
  case up =>
    rintro rfl hst
    obtain ⟨_, hne, _⟩ | ⟨hlow, rfl⟩ | ⟨hhigh, rfl⟩ := hp
    · exact absurd hst hne
    · exact ⟨PState.noConfusion, fun _ => hlow.pins _⟩
    · exact ⟨fun _ => hhigh.pins _, PState.noConfusion⟩
  case off =>
    rintro rfl hok
    obtain ⟨_, _, hne⟩ | ⟨hlow, _⟩ := hp
    · exact absurd hok hne
    · exact hlow.pins _

/-! ## One step, by the host's next input -/

section
variable {s : State} {rest : List HostInput} {a : WordIndex} {v : Word}

theorem step_nil (h : s.host = []) : step s = .next s := by
  rw [step, hostNext, h]
  rfl

theorem step_read (h : s.host = .read a :: rest) : step s = .next ((s.setHost rest).logRead a) := by
  rw [step, hostNext, h]
  rfl

theorem step_reset (h : s.host = .reset :: rest) : step s = .next (s.setHost rest).engineReset := by
  rw [step, hostNext, h]
  rfl

theorem step_write (h : s.host = .write a v :: rest) : step s = serveRequest (hostWrite a v (s.setHost rest)) := by
  rw [step, hostNext, h]

/-- A write while BUSY = 1 is dropped and sets OVR (10_state.md R61). -/
theorem step_write_busy (h : s.host = .write a v :: rest) (hb : s.busy = true) :
    step s = .next (s.setHost rest).overrun := by
  rw [step_write h, hostWrite, State.setHost_busy, if_pos hb]
  rfl

/-- A write to CMD while BUSY = 0 runs the word (10_state.md R34). -/
theorem step_write_cmd (h : s.host = .write a v :: rest) (hb : s.busy = false) (ha : hostRegAt a = .cmd) :
    step s = runWord v (s.setHost rest) := by
  rw [step_write h, hostWrite, State.setHost_busy, hb, ha]
  rfl

/-- Any other write while BUSY = 0 takes the register's own rule. -/
theorem step_write_reg (h : s.host = .write a v :: rest) (hb : s.busy = false) (ha : hostRegAt a ≠ .cmd) :
    step s = .next (writeReg (hostRegAt a) v (s.setHost rest)) := by
  rw [step_write h, hostWrite, State.setHost_busy, hb]
  simp only [Bool.false_eq_true, if_false]
  rfl

theorem step_write_other (h : s.host = .write a v :: rest) (ha : hostRegAt a ≠ .cmd) :
    step s = .next (if s.busy then (s.setHost rest).overrun else writeReg (hostRegAt a) v (s.setHost rest)) := by
  split
  · next hb => exact step_write_busy h hb
  · next hb => exact step_write_reg h (Bool.eq_false_iff.mpr hb) ha

end

/-! ## Writes while a command runs (10_state.md R61) -/

/-- What the host does in its turn does not depend on the inputs recorded as pending: they are replaced at its end. -/
theorem serveHost_setHost (h k : List HostInput) (s : State) : serveHost h (s.setHost k) = serveHost h s := by
  induction h generalizing s with
  | nil => rfl
  | cons x rest ih =>
    cases x with
    | read a => exact ih (s.logRead a)
    | write a v => exact ih s.overrun
    | pass => rfl
    | wait => rfl
    | reset => rfl

/-- Settles O15: where a write lands it is `overrun`, and no command's rule touches the inputs (`State.completed`) or
PNEG_EN (`Effect.pins_pnegEn`). -/
theorem writesWhileBusyOnlySetOverrun : Obligations.WritesWhileBusyOnlySetOverrun := by
  refine ⟨fun s a v rest h => ?window, fun s a v rest h hbusy => ?busy, fun i s t hn he => ?frame⟩
  case window =>
    rw [hostWindow_apply, h]
    exact (serveHost_setHost rest rest s.overrun).symm
  case busy => exact step_write_busy h hbusy
  case frame =>
    obtain ⟨x, e, r, st, c, rfl, _⟩ := completes_of_exec hn he
    exact ⟨rfl, by rw [State.completed_gpio, e.pins_pnegEn]⟩

/-! ## How a command ends (10_state.md R33; 70_reset_and_hazards.md R292) -/

/-- From `s` to `t` a command ran: the trace grew, the host took inputs, and of the committed flags only OVR can have
been set. -/
structure RanTo (s t : State) : Prop where
  resets : t.resets = s.resets
  params : t.params = s.params
  trace : s.trace <+: t.trace
  host : t.host <:+ s.host
  ovr : ∃ o, t.errAcc = { s.errAcc with ovr := s.errAcc.ovr || o }

/-- A reset that the host had pending in `s` abandoned the command, in `t`. -/
def AbandonedTo (s t : State) : Prop :=
  HostInput.reset ∈ s.host ∧ ∃ u : State, t = u.engineReset ∧ u.resets = s.resets ∧ u.params = s.params ∧
    s.trace <+: u.trace ∧ u.host <:+ s.host

theorem RanTo.trans {s t u : State} (h : RanTo s t) (h' : RanTo t u) : RanTo s u where
  resets := h'.resets.trans h.resets
  params := h'.params.trans h.params
  trace := h.trace.trans h'.trace
  host := h'.host.trans h.host
  ovr := by
    obtain ⟨o, ho⟩ := h.ovr
    obtain ⟨o', ho'⟩ := h'.ovr
    exact ⟨o || o', by rw [ho', ho, Bool.or_assoc]⟩

theorem RanTo.abandoned {s t u : State} (h : RanTo s t) (h' : AbandonedTo t u) : AbandonedTo s u := by
  obtain ⟨hm, v, rfl, hr, hp, ht, hh⟩ := h'
  exact ⟨h.host.mem hm, v, rfl, hr.trans h.resets, hp.trans h.params, h.trace.trans ht, hh.trans h.host⟩

/-- An update that leaves the fields of `RanTo` alone, or adds to the trace. -/
theorem RanTo.of_same {s t : State} (ht : s.trace <+: t.trace) (hr : t.resets = s.resets) (hp : t.params = s.params)
    (hh : t.host = s.host) (he : t.errAcc = s.errAcc) : RanTo s t :=
  ⟨hr, hp, ht, hh ▸ List.suffix_rfl, false, by rw [he, Bool.or_false]⟩

theorem hostWindow_ranTo : Rel RanTo AbandonedTo Unit hostWindow := by
  intro s
  have hsuffix := serveHost_host_suffix (h := s.host) (s := s)
  rw [hostWindow_apply]
  cases hw : serveHost s.host s with
  | ok u t =>
    rw [hw] at hsuffix
    obtain ⟨h', l, o, rfl⟩ := serveHost_ok hw
    exact ⟨rfl, rfl, List.prefix_rfl, hsuffix, o, rfl⟩
  | error e t =>
    rw [hw] at hsuffix
    obtain ⟨hm, h', l, rfl⟩ := serveHost_error hw
    exact ⟨hm, _, rfl, rfl, rfl, List.prefix_rfl, hsuffix⟩

theorem ranTo_relates (p : Params) : Relates RanTo AbandonedTo p where
  refl _ := .of_same List.prefix_rfl rfl rfl rfl rfl
  trans _ _ _ := .trans
  transE _ _ _ := RanTo.abandoned
  window := hostWindow_ranTo
  bus _ _ := .of_same (List.prefix_append _ _) rfl rfl rfl rfl
  la _ _ := .of_same List.prefix_rfl rfl rfl rfl rfl
  delayed _ _ := .of_same (List.prefix_append _ _) rfl rfl rfl rfl
  pin _ _ _ := .of_same (List.prefix_append _ _) rfl rfl rfl rfl
  pstate _ _ := .of_same List.prefix_rfl rfl rfl rfl rfl
  flags _ _ := .of_same List.prefix_rfl rfl rfl rfl rfl
  loop _ _ := .of_same List.prefix_rfl rfl rfl rfl rfl
  shadow _ _ := .of_same List.prefix_rfl rfl rfl rfl rfl

/-- Settles O18: the rule of every command runs as `RanTo` says, and then it commits, or it was abandoned. -/
theorem everyCommandCommitsOrIsReset : Obligations.EveryCommandCommitsOrIsReset := by
  intro i s t he
  rcases exec_relates ranTo_relates he with ⟨c, u, hran, rfl⟩ | habandoned
  · obtain ⟨o, ho⟩ := hran.ovr
    exact .inl ⟨hran.resets, rfl, rfl, rfl, rfl, rfl, o, by rw [State.commit_errAcc, ho]; rfl⟩
  · exact .inr habandoned

/-! ## Reads while a command runs (10_state.md R33) -/

/-- What the reads of the registers that are not live depend on. -/
def State.heldView (s : State) : Word × Results × LastAddr × Inputs × Nat :=
  (s.cmd, s.results, s.lastAddr, s.inputs, s.resets)

theorem readReg_of_heldView {r : HostReg} {s t : State} (h : t.heldView = s.heldView)
    (hr : heldWhileRunning r = true) : readReg r t = readReg r s := by
  simp only [State.heldView, Prod.mk.injEq] at h
  obtain ⟨hcmd, hresults, hla, hinputs, hresets⟩ := h
  cases r with
  | status | errAcc | gpioOut => cases hr
  | _ => simp only [readReg, State.edidByte, hcmd, hresults, hla, hinputs, hresets]

/-- From `s` to `t` the host read of every held register what `s` shows. -/
def ReadHeld (s t : State) : Prop :=
  ∃ l, t.hostLog = s.hostLog ++ l ∧
    ∀ r ∈ l, heldWhileRunning (hostRegAt r.a) = true → r.v = readReg (hostRegAt r.a) s

theorem ReadHeld.of_same {s t : State} (h : t.hostLog = s.hostLog) : ReadHeld s t :=
  ⟨[], by rw [h, List.append_nil], fun _ hm => absurd hm List.not_mem_nil⟩

theorem ReadHeld.logRead (a : WordIndex) (s : State) : ReadHeld s (s.logRead a) :=
  ⟨_, rfl, fun r hm _ => by rw [List.mem_singleton.mp hm]⟩

theorem ReadHeld.trans {s t u : State} (h : ReadHeld s t) (hst : t.heldView = s.heldView) (h' : ReadHeld t u) :
    ReadHeld s u := by
  obtain ⟨l, hl, hv⟩ := h
  obtain ⟨l', hl', hv'⟩ := h'
  refine ⟨l ++ l', by rw [hl', hl, List.append_assoc], fun r hm hr => ?_⟩
  rcases List.mem_append.mp hm with hm | hm
  · exact hv r hm hr
  · exact (hv' r hm hr).trans (readReg_of_heldView hst hr)

theorem serveHost_readHeld (h : List HostInput) (s : State) : ReadHeld s (endState (serveHost h s)) := by
  induction h generalizing s with
  | nil => exact .of_same rfl
  | cons x rest ih =>
    cases x with
    | read a => exact (ReadHeld.logRead a s).trans rfl (ih _)
    | write a v => exact ReadHeld.trans (s := s) (t := s.overrun) (.of_same rfl) rfl (ih s.overrun)
    | pass => exact .of_same rfl
    | wait => exact .of_same rfl
    | reset => exact .of_same rfl

/-- A running command leaves what the held registers read, and the host reads that of them. -/
def RanHeld (s t : State) : Prop := t.heldView = s.heldView ∧ ReadHeld s t

theorem RanHeld.of_same {s t : State} (hv : t.heldView = s.heldView) (hl : t.hostLog = s.hostLog) : RanHeld s t :=
  ⟨hv, .of_same hl⟩

theorem hostWindow_ranHeld : Rel RanHeld ReadHeld Unit hostWindow := by
  intro s
  have hread := serveHost_readHeld s.host s
  rw [hostWindow_apply]
  cases hw : serveHost s.host s with
  | ok u t =>
    rw [hw] at hread
    obtain ⟨h', l, o, rfl⟩ := serveHost_ok hw
    exact ⟨rfl, hread⟩
  | error e t =>
    rw [hw] at hread
    exact hread

theorem ranHeld_relates (p : Params) : Relates RanHeld ReadHeld p where
  refl _ := .of_same rfl rfl
  trans _ _ _ h h' := ⟨h'.1.trans h.1, h.2.trans h.1 h'.2⟩
  transE _ _ _ h h' := h.2.trans h.1 h'
  window := hostWindow_ranHeld
  bus _ _ := .of_same rfl rfl
  la _ _ := .of_same rfl rfl
  delayed _ _ := .of_same rfl rfl
  pin _ _ _ := .of_same rfl rfl
  pstate _ _ := .of_same rfl rfl
  flags _ _ := .of_same rfl rfl
  loop _ _ := .of_same rfl rfl
  shadow _ _ := .of_same rfl rfl

/-- Settles O16: until the commit every procedure keeps what the held registers read. -/
theorem readsWhileBusySeeThePreviousCommit : Obligations.ReadsWhileBusySeeThePreviousCommit := by
  intro i s t he
  have hstart : ReadHeld s s.start := .of_same rfl
  rcases exec_relates ranHeld_relates he with ⟨c, u, ⟨_, hread⟩, rfl⟩ | hread
  · exact hstart.trans rfl hread
  · exact hstart.trans rfl hread

end Sys2Proof.Machine

namespace Sys2Proof.Machine

/-! ## The host register map (10_state.md R32, R60) -/

theorem hostRegAtOffset_eq_cmd {off : Nat} : hostRegAtOffset off = .cmd ↔ off = 0 := by
  constructor
  · intro h
    unfold hostRegAtOffset at h
    split at h
    case h_1 => rfl
    case h_31 => split at h <;> cases h
    all_goals cases h
  · rintro rfl
    rfl

theorem hostRegAt_ne_cmd {a : WordIndex} (ha : a ≠ 0) : hostRegAt a ≠ .cmd := by
  rw [hostRegAt, ne_eq, hostRegAtOffset_eq_cmd]
  intro h
  exact ha (BitVec.eq_of_toNat_eq (by simpa using h))

/-- From 0x078 on there is EDID_BUF, at 0x100-0x2FC, and nothing else. -/
theorem hostRegAtOffset_high {off : Nat} (h : 0x078 ≤ off) :
    hostRegAtOffset off = if 0x100 ≤ off ∧ off ≤ 0x2FC then .edidBuf ((off - 0x100) / 4) else .unmapped := by
  unfold hostRegAtOffset
  split
  case h_31 => rfl
  all_goals omega

theorem hostRegAt_low {a : WordIndex} (h : 4 * a.toNat < 0x078) : hostRegAt a ≠ .unmapped := by
  rw [hostRegAt]
  generalize a.toNat = n at h
  have hn : n < 30 := by omega
  interval_cases n <;> decide

theorem hostRegAt_eq_unmapped {a : WordIndex} : hostRegAt a = .unmapped ↔
    (0x078 ≤ 4 * a.toNat ∧ 4 * a.toNat ≤ 0x0FC) ∨ 0x300 ≤ 4 * a.toNat := by
  rcases Nat.lt_or_ge (4 * a.toNat) 0x078 with hlow | hhigh
  · exact iff_of_false (hostRegAt_low hlow) (by omega)
  · rw [hostRegAt, hostRegAtOffset_high hhigh]
    split
    · exact iff_of_false HostReg.noConfusion (by omega)
    · exact iff_of_true rfl (by omega)

/-- Settles O13: the map for the first clause; a write to an unmapped offset is `writeReg`'s last case. -/
theorem unmappedOffsetsReadZero : Obligations.UnmappedOffsetsReadZero := by
  refine fun a => ⟨hostRegAt_eq_unmapped, fun ha s v rest => ⟨by rw [ha]; rfl, fun h => ?_⟩⟩
  have hstep := step_write_other h (ha ▸ HostReg.noConfusion)
  rw [ha] at hstep
  exact hstep

/-- Settles O8: the write is to CMD, so the step is `runWord`, or a dropped write while BUSY = 1. -/
theorem stepRunsTheDecodedCommand : Obligations.StepRunsTheDecodedCommand := by
  refine fun s w rest h => ⟨fun hb => ⟨fun i hi => ?_, fun e he => ?_, rfl, rfl⟩, step_write_busy h⟩
  · rw [step_write_cmd h hb rfl, runWord, hi]
  · rw [step_write_cmd h hb rfl, runWord, he]

/-- Settles O9, by the rule of one step for each of the host's inputs. -/
theorem hostAccessesBetweenCommands : Obligations.HostAccessesBetweenCommands := by
  refine fun s rest => ⟨fun a h => step_read h, fun a v h ha => ?_, step_reset, step_nil⟩
  exact step_write_other h (hostRegAt_ne_cmd ha)

/-! ## The bits of each register (10_state.md R34-R56) -/

/-- A field read back from the bits it was put in. -/
theorem extractLsb'_field {w : Nat} (v : BitVec w) {k : Nat} (h : k + w ≤ 32) :
    (v.setWidth 32 <<< k).extractLsb' k w = v := by
  refine BitVec.eq_of_getLsbD_eq fun i hi => ?_
  rw [BitVec.getLsbD_extractLsb', getLsbD_field v k _ h, Nat.add_sub_cancel_left]
  simp [hi]

/-- Bits beside a field are 0. -/
theorem extractLsb'_field_beside {w : Nat} (v : BitVec w) {k j n : Nat} (h : k + w ≤ 32) (hj : j + n ≤ k ∨ k + w ≤ j) :
    (v.setWidth 32 <<< k).extractLsb' j n = 0#n := by
  refine BitVec.eq_of_getLsbD_eq fun i hi => ?_
  rw [BitVec.getLsbD_extractLsb', getLsbD_field v k _ h, BitVec.getLsbD_zero]
  rcases hj with hj | hj
  · rw [decide_eq_false (by omega : ¬k ≤ j + i), Bool.false_and, Bool.and_false]
  · rw [BitVec.getLsbD_of_ge v _ (by omega), Bool.and_false, Bool.and_false]

/-- Bits beside a flag are 0. -/
theorem extractLsb'_bitAt_beside (b : Bool) {m j n : Nat} (hm : m < 32) (hj : m < j ∨ j + n ≤ m) :
    (bitAt b m).extractLsb' j n = 0#n := by
  refine BitVec.eq_of_getLsbD_eq fun i hi => ?_
  rw [BitVec.getLsbD_extractLsb', getLsbD_bitAt b _ hm, decide_eq_false (by omega : ¬j + i = m), Bool.and_false,
    Bool.and_false, BitVec.getLsbD_zero]

theorem getElem_bitAt (b : Bool) {m i : Nat} (hm : m < 32) (hi : i < 32) : (bitAt b m)[i] = (b && decide (i = m)) := by
  rw [← BitVec.getLsbD_eq_getElem, getLsbD_bitAt b i hm]

/-- Settles O11: each field is read from its bits, and the other fields lie beside it. -/
theorem statusReadsAsItsFields : Obligations.StatusReadsAsItsFields := by
  refine ⟨fun s => ?_, ⟨rfl, rfl, rfl, rfl, rfl, rfl, rfl, rfl, rfl, rfl, rfl, Code.fails_iff⟩, rfl, rfl, rfl, rfl⟩
  have hread : s.readAt 0x004 = s.statusWord := rfl
  rw [hread, State.statusWord]
  refine ⟨?busy, ?done, ?fail, ?low, ?result, ?lastOp, ?pstate, ?high⟩
  case busy => simp [getElem_bitAt]
  case done => simp [getElem_bitAt]
  case fail => simp [getElem_bitAt]
  case low => simp (disch := omega) [BitVec.extractLsb'_or, extractLsb'_bitAt_beside, extractLsb'_field_beside]
  case high => simp (disch := omega) [BitVec.extractLsb'_or, extractLsb'_bitAt_beside, extractLsb'_field_beside]
  all_goals
    simp (disch := omega) [BitVec.extractLsb'_or, extractLsb'_bitAt_beside, extractLsb'_field_beside, extractLsb'_field]

theorem packWord_zero_eq (b0 b1 : Byte) : packWord b0 b1 0 0 = b0.setWidth 32 <<< 0 ||| (b1.setWidth 32 <<< 8) := by
  simp [packWord]

/-- The fields of a word of two bytes. -/
theorem packWord_fields (b0 b1 : Byte) : (packWord b0 b1 0 0).extractLsb' 0 8 = b0 ∧
    (packWord b0 b1 0 0).extractLsb' 8 8 = b1 ∧ (packWord b0 b1 0 0).extractLsb' 16 16 = 0 := by
  rw [packWord_zero_eq]
  simp (disch := omega) [BitVec.extractLsb'_or, extractLsb'_field_beside, extractLsb'_field, -BitVec.shiftLeft_zero]

theorem ErrAcc.toWord_fields (e : ErrAcc) :
    e.toWord.getLsbD 0 = e.bus ∧ e.toWord.getLsbD 1 = e.wa ∧ e.toWord.getLsbD 2 = e.tmo ∧ e.toWord.getLsbD 3 = e.echo ∧
    e.toWord.getLsbD 4 = e.ovr ∧ e.toWord.getLsbD 5 = e.ill ∧ e.toWord.getLsbD 6 = e.pbus ∧
    e.toWord.extractLsb' 7 25 = 0 := by
  simp (disch := omega) [ErrAcc.toWord, getElem_bitAt, BitVec.extractLsb'_or, extractLsb'_bitAt_beside]

theorem LastAddr.toWord_fields (l : LastAddr) :
    l.toWord.extractLsb' 0 8 = l.sa ∧ l.toWord.getLsbD 8 = l.valid ∧ l.toWord.extractLsb' 9 23 = 0 := by
  have hword : l.toWord = l.sa.setWidth 32 <<< 0 ||| bitAt l.valid 8 := by rw [LastAddr.toWord, BitVec.shiftLeft_zero]
  rw [hword, BitVec.extractLsb'_or, BitVec.extractLsb'_or, BitVec.getLsbD_or, getLsbD_field _ _ _ (by omega)]
  simp (disch := omega) only [extractLsb'_field_beside, extractLsb'_field, extractLsb'_bitAt_beside, getLsbD_bitAt]
  simp

theorem Gpio.toWord_fields (g : Gpio) :
    g.toWord.getLsbD 0 = g.pwrEn ∧ g.toWord.getLsbD 1 = g.rstRel ∧ g.toWord.getLsbD 2 = g.pnegEn ∧
    g.toWord.extractLsb' 3 29 = 0 := by
  simp (disch := omega) [Gpio.toWord, getElem_bitAt, BitVec.extractLsb'_or, extractLsb'_bitAt_beside]

theorem flags_fields (a b : Bool) : (bitAt a 0 ||| bitAt b 1).getLsbD 0 = a ∧ (bitAt a 0 ||| bitAt b 1).getLsbD 1 = b ∧
    (bitAt a 0 ||| bitAt b 1).extractLsb' 2 30 = 0 := by
  simp (disch := omega) [getElem_bitAt, BitVec.extractLsb'_or, extractLsb'_bitAt_beside]

/-- Settles O12: the table by evaluation, EDID_BUF by `hostRegAtOffset_high`, the bits by the lemmas above. -/
theorem hostRegisterMap : Obligations.HostRegisterMap := by
  refine ⟨fun _ => rfl, by decide, fun k => ?_, fun s => ⟨⟨rfl, rfl, toNat_field _ (by omega)⟩, s.errAcc.toWord_fields,
    s.lastAddr.toWord_fields, s.gpio.toWord_fields, packWord_fields _ _,
    ⟨rfl, toNat_field _ (by omega), toNat_field _ (by omega), toNat_field _ (by omega), rfl⟩,
    ⟨rfl, toNat_field _ (by omega), toNat_field _ (by omega), toNat_field _ (by omega), toNat_field _ (by omega),
      toNat_field _ (by omega), toNat_field _ (by omega), toNat_field _ (by omega), toNat_field _ (by omega)⟩, ?_, ?_⟩⟩
  · rw [hostRegAtOffset_high (by omega), if_pos (by omega), Nat.add_sub_cancel_left,
      Nat.mul_div_cancel_left _ (by omega)]
  · obtain ⟨hh, hv, hrest⟩ := flags_fields s.inputs.hsyncPol s.inputs.vsyncPol
    exact ⟨hh, hv, hrest, toNat_field _ (by omega)⟩
  · obtain ⟨hc, hr, hrest⟩ := packWord_fields s.results.edidCount s.results.edidRaw
    exact ⟨hc, hr, hrest, toNat_field _ (by omega)⟩

/-! ## Host writes (10_state.md R32, R40, R43) -/

theorem readReg_setHost (r : HostReg) (h : List HostInput) (s : State) : readReg r (s.setHost h) = readReg r s := by
  cases r <;> rfl

/-- A write to one register changes what no other register reads. -/
theorem readReg_writeReg_of_ne {q r : HostReg} (h : r ≠ q) (v : Word) (s : State) :
    readReg r (writeReg q v s) = readReg r s := by
  cases q with
  | errAcc | gpioOut | pllClkHz | tPixclkKhz | tHactive | tHfp | tHsync | tHbp | tVactive | tVfp | tVsync | tVbp
  | tFlags | edidSize => cases r <;> first | rfl | exact absurd rfl h
  | _ => rfl

/-- A field of `n` bits at bit 0 holds the written word's low bits. -/
theorem setWidth_field_eq_and (v : Word) {n : Nat} {m : Word} (hn : n ≤ 32) (hm : m.toNat = 2 ^ n - 1) :
    (v.setWidth n).setWidth 32 = v &&& m := by
  refine BitVec.eq_of_toNat_eq ?_
  rw [toNat_field _ hn, BitVec.toNat_setWidth, BitVec.toNat_and, hm, Nat.and_two_pow_sub_one_eq_mod]

theorem flags_eq_and (v : Word) : bitAt (v.getLsbD 0) 0 ||| bitAt (v.getLsbD 1) 1 = v &&& 0x3 := by
  refine BitVec.eq_of_getLsbD_eq fun i hi => ?_
  rw [BitVec.getLsbD_or, getLsbD_bitAt _ _ (by omega), getLsbD_bitAt _ _ (by omega), BitVec.getLsbD_and]
  interval_cases i <;> simp

theorem ErrAcc.writeOneClear_toWord (e : ErrAcc) (v : Word) : (e.writeOneClear v).toWord = e.toWord &&& ~~~v := by
  refine BitVec.eq_of_getLsbD_eq fun i hi => ?_
  simp (disch := omega) only [ErrAcc.toWord, ErrAcc.writeOneClear, BitVec.getLsbD_or, BitVec.getLsbD_and, getLsbD_bitAt]
  interval_cases i <;> simp

theorem Gpio.toWord_pnegEn (g : Gpio) (v : Word) :
    ({ g with pnegEn := v.getLsbD 2 } : Gpio).toWord = (g.toWord &&& 0x3) ||| (v &&& 0x4) := by
  refine BitVec.eq_of_getLsbD_eq fun i hi => ?_
  simp (disch := omega) only [Gpio.toWord, BitVec.getLsbD_or, BitVec.getLsbD_and, getLsbD_bitAt]
  interval_cases i <;> simp

/-- Settles O10: the written register by its field, every other one by `readReg_writeReg_of_ne`. -/
theorem hostWriteChangesOnlyItsFields : Obligations.HostWriteChangesOnlyItsFields := by
  intro s a v rest hb h ha
  refine ⟨_, step_write_reg h hb (hostRegAt_ne_cmd ha), ?written, fun r hr => ?others⟩
  case others => rw [readReg_writeReg_of_ne hr, readReg_setHost]
  case written =>
    cases hostRegAt a with
    | tHactive | tHfp | tHsync | tHbp | tVactive | tVfp | tVsync | tVbp => exact setWidth_field_eq_and v (by omega) rfl
    | edidSize => exact setWidth_field_eq_and v (by omega) rfl
    | tFlags => exact flags_eq_and v
    | errAcc => exact s.errAcc.writeOneClear_toWord v
    | gpioOut => exact s.gpio.toWord_pnegEn v
    | _ => rfl

end Sys2Proof.Machine

/-! The statement of 20_memory.md: the byte lanes of the two buffers in the host's words (R81). -/

namespace Sys2Proof.Machine

/-! ## Byte lanes (20_memory.md R81) -/

theorem packWord_eq_fields (b0 b1 b2 b3 : Byte) : packWord b0 b1 b2 b3 =
    b0.setWidth 32 <<< 0 ||| (b1.setWidth 32 <<< 8) ||| (b2.setWidth 32 <<< 16) ||| (b3.setWidth 32 <<< 24) := by
  rw [packWord, BitVec.shiftLeft_zero]

/-- Each lane is one of the four bytes: the other three lie beside it. -/
theorem packWord_lanes (b0 b1 b2 b3 : Byte) :
    (packWord b0 b1 b2 b3).extractLsb' 0 8 = b0 ∧ (packWord b0 b1 b2 b3).extractLsb' 8 8 = b1 ∧
    (packWord b0 b1 b2 b3).extractLsb' 16 8 = b2 ∧ (packWord b0 b1 b2 b3).extractLsb' 24 8 = b3 := by
  rw [packWord_eq_fields]
  simp (disch := omega) [BitVec.extractLsb'_or, extractLsb'_field_beside, extractLsb'_field, -BitVec.shiftLeft_zero]

/-- Byte `k` of a buffer `f` is lane `k mod 4` of the word that packs the four bytes from `4·(k div 4)` on. -/
theorem packWord_lane_of_buffer (f : Nat → Byte) (k : Nat) :
    (packWord (f (4 * (k / 4))) (f (4 * (k / 4) + 1)) (f (4 * (k / 4) + 2)) (f (4 * (k / 4) + 3))).extractLsb'
      (8 * (k % 4)) 8 = f k := by
  obtain ⟨lane0, lane1, lane2, lane3⟩ :=
    packWord_lanes (f (4 * (k / 4))) (f (4 * (k / 4) + 1)) (f (4 * (k / 4) + 2)) (f (4 * (k / 4) + 3))
  have hsplit : 4 * (k / 4) + k % 4 = k := Nat.div_add_mod k 4
  have hlane : k % 4 < 4 := Nat.mod_lt k (by omega)
  rw [← congrArg f hsplit]
  generalize k % 4 = j at hlane ⊢
  interval_cases j
  · exact lane0
  · exact lane1
  · exact lane2
  · exact lane3

theorem hostRegAtOffset_dbuf : ∀ j : Fin 4, hostRegAtOffset (0x020 + 4 * j.val) = .dbuf j := by decide

/-- Settles O14: the map gives the word, `packWord_lane_of_buffer` its lane. -/
theorem buffersArePackedLittleEndian : Obligations.BuffersArePackedLittleEndian := by
  refine ⟨fun s k => ?dbuf, fun s k hk => ?edidBuf⟩
  case dbuf =>
    have hbyte : s.results.dbuf.toList.getD k.val 0 = s.results.dbuf[k] := by
      simp [List.getD_eq_getElem?_getD]
    rw [hostRegAtOffset_dbuf ⟨k.val / 4, by omega⟩, ← hbyte]
    exact packWord_lane_of_buffer (fun n => s.results.dbuf.toList.getD n 0) k.val
  case edidBuf =>
    obtain ⟨-, -, hmap, -⟩ := hostRegisterMap
    rw [hmap ⟨k / 4, by omega⟩]
    exact packWord_lane_of_buffer s.edidByte k

end Sys2Proof.Machine

/-! The statements of 30_encoding.md: the command word and its fields (R101-R103), decoding by OP alone and the fields a
command ignores (R102, R104, R108), the refusals (R105, R107) and NOP (R106). -/

namespace Sys2Proof

/-! ## The four fields of a word (30_encoding.md R101, R103)

`Laws.OpByte.commandWord_op` reads the OP field of a command word. -/

@[simp] theorem aField_commandWord (op a b c : Byte) : aField (commandWord op a b c) = a := by
  obtain ⟨-, ha, -, -⟩ := Machine.packWord_lanes op a b c
  exact ha

@[simp] theorem bField_commandWord (op a b c : Byte) : bField (commandWord op a b c) = b := by
  obtain ⟨-, -, hb, -⟩ := Machine.packWord_lanes op a b c
  exact hb

@[simp] theorem cField_commandWord (op a b c : Byte) : cField (commandWord op a b c) = c := by
  obtain ⟨-, -, -, hc⟩ := Machine.packWord_lanes op a b c
  exact hc

theorem toNat_eq_fields (w : Word) :
    w.toNat = (opField w).toNat + (aField w).toNat * 2 ^ 8 + (bField w).toNat * 2 ^ 16 + (cField w).toNat * 2 ^ 24 := by
  have hw : w.toNat < 2 ^ 32 := w.isLt
  simp only [opField, aField, bField, cField, BitVec.extractLsb'_toNat, Nat.shiftRight_eq_div_pow]
  omega

theorem word_eq_of_fields {v w : Word} (hop : opField v = opField w) (ha : aField v = aField w)
    (hb : bField v = bField w) (hc : cField v = cField w) : v = w := by
  refine BitVec.eq_of_toNat_eq ?_
  rw [toNat_eq_fields v, toNat_eq_fields w, hop, ha, hb, hc]

theorem opField_and (v w : Word) : opField (v &&& w) = opField v &&& opField w := BitVec.extractLsb'_and

theorem aField_and (v w : Word) : aField (v &&& w) = aField v &&& aField w := BitVec.extractLsb'_and

theorem bField_and (v w : Word) : bField (v &&& w) = bField v &&& bField w := BitVec.extractLsb'_and

theorem cField_and (v w : Word) : cField (v &&& w) = cField v &&& cField w := BitVec.extractLsb'_and

/-! ## Decoding (30_encoding.md R102, R105, R108) -/

/-- The command of `i`'s row with the operands that stand in the fields A, B and C (30_encoding.md R102). -/
def Instr.withFields (i : Instr) (a b c : Byte) : Instr :=
  match i with
  | .regRead _ _ => .regRead a b
  | .regWrite _ _ _ => .regWrite a b c
  | .regReadBlock _ _ _ => .regReadBlock a b c
  | .regSet _ _ _ => .regSet a b c
  | .regClr _ _ _ => .regClr a b c
  | .auxWrite _ => .auxWrite b
  | .auxRead _ => .auxRead c
  | .edidReadChunk _ => .edidReadChunk b
  | .edidReadSegment _ _ => .edidReadSegment a b
  | i => i

/-- A word with `i`'s OP byte is a command of `i`'s row, with the operands its fields hold. -/
theorem decodeWord_of_opField {w : Word} {i : Instr} (h : opField w = i.opcode) :
    decodeWord w = .ok (i.withFields (aField w) (bField w) (cField w)) := by
  rw [decodeWord, h]
  cases i <;> rfl

theorem opField_of_decodeWord {w : Word} {i : Instr} (h : decodeWord w = .ok i) : opField w = i.opcode := by
  refine BitVec.eq_of_toNat_eq ?_
  unfold decodeWord at h
  split at h <;> cases h <;> assumption

theorem decodeWord_eq_ok_iff {w : Word} {i : Instr} : decodeWord w = .ok i ↔
    opField w = i.opcode ∧ i.withFields (aField w) (bField w) (cField w) = i := by
  refine ⟨fun h => ?_, fun ⟨hop, hi⟩ => (decodeWord_of_opField hop).trans (congrArg _ hi)⟩
  have hop := opField_of_decodeWord h
  rw [decodeWord_of_opField hop] at h
  exact ⟨hop, Except.ok.inj h⟩

theorem error_of_decodeWord {w : Word} {e : DecodeError} (h : decodeWord w = .error e) :
    e = .illegalOpcode (opField w) := by
  unfold decodeWord at h
  split at h <;> cases h
  rfl

/-- A command of each row of 30_encoding.md R102, in the table's order. -/
def Instr.rows : List Instr :=
  [.nop, .regRead 0 0, .regWrite 0 0 0, .regReadBlock 0 0 0, .regSet 0 0 0, .regClr 0 0 0, .auxWrite 0, .auxRead 0,
    .auxReset, .edidBlockCount, .edidReadChunk 0, .edidReadSegment 0 0, .edidReadFull, .pllSolve, .videoConfig,
    .mnStrobe, .powerUp, .waitHpd, .powerRole, .powerOff]

/-- The OP bytes listed in 30_encoding.md R102. -/
def listedOps : List Byte := Instr.rows.map Instr.opcode

theorem Instr.opcode_mem_listedOps (i : Instr) : i.opcode ∈ listedOps := by
  cases i <;> exact List.mem_of_elem_eq_true rfl

theorem decodeWord_ok_iff_listed {w : Word} : (∃ i, decodeWord w = .ok i) ↔ opField w ∈ listedOps := by
  constructor
  · rintro ⟨i, h⟩
    exact opField_of_decodeWord h ▸ i.opcode_mem_listedOps
  · intro h
    obtain ⟨i, -, hi⟩ := List.mem_map.mp h
    exact ⟨_, decodeWord_of_opField hi.symm⟩

theorem decodeWord_of_not_listed {w : Word} (h : opField w ∉ listedOps) :
    decodeWord w = .error (.illegalOpcode (opField w)) := by
  cases hd : decodeWord w with
  | ok i => exact absurd (decodeWord_ok_iff_listed.mp ⟨i, hd⟩) h
  | error e => rw [error_of_decodeWord hd]

/-- Settles O6: the clauses are `decodeWord_ok_iff_listed`, `opField_of_decodeWord` and `decodeWord_of_not_listed`. -/
theorem opByteAloneSelects : Obligations.OpByteAloneSelects := fun _ =>
  ⟨decodeWord_ok_iff_listed, fun _ h => (opField_of_decodeWord h).symm,
    fun h => decodeWord_of_not_listed (mt decodeWord_ok_iff_listed.mpr h)⟩

/-! ## Encoding (30_encoding.md R103, R104) -/

theorem opField_encode (i : Instr) : opField (encode i) = i.opcode := by
  cases i <;> exact Laws.OpByte.commandWord_op ..

theorem withFields_encode (i : Instr) :
    i.withFields (aField (encode i)) (bField (encode i)) (cField (encode i)) = i := by
  cases i <;> simp [Instr.withFields, encode]

/-- Settles O5: the encoding holds the OP byte, and each operand in the field it is read from. -/
theorem decodeOfEncode : Obligations.DecodeOfEncode := fun i =>
  decodeWord_eq_ok_iff.mpr ⟨opField_encode i, withFields_encode i⟩

/-- Settles O4: the formula is `toNat_eq_fields`; the example words are closed. -/
theorem exampleWordsAreTheSpecs : Obligations.ExampleWordsAreTheSpecs := by
  refine ⟨fun op a b c => ?formula, by decide, by decide, by decide, by decide, by decide, by decide⟩
  case formula => simpa [Laws.OpByte.commandWord_op] using toNat_eq_fields (commandWord op a b c)

theorem and_ff (v : Byte) : v &&& 255#8 = v := BitVec.and_allOnes

/-- The bits a command uses: OP, and the operand fields that the encoding of the all-ones command of its row fills. -/
theorem usedMask_eq (i : Instr) : Machine.Instr.usedMask i = commandWord 0xFF
    (aField (encode (i.withFields 0xFF 0xFF 0xFF))) (bField (encode (i.withFields 0xFF 0xFF 0xFF)))
    (cField (encode (i.withFields 0xFF 0xFF 0xFF))) := by
  cases i <;> simp only [Machine.Instr.usedMask, Instr.withFields, encode, aField_commandWord, bField_commandWord,
    cField_commandWord] <;> decide

theorem opField_and_usedMask (w : Word) (i : Instr) : opField (w &&& Machine.Instr.usedMask i) = opField w := by
  rw [opField_and, usedMask_eq, Laws.OpByte.commandWord_op]
  exact and_ff _

/-- The encoding of a command of `i`'s row keeps the operand fields that `i` uses, and is 0 in the others. -/
theorem encode_withFields (i : Instr) (a b c : Byte) : encode (i.withFields a b c) =
    commandWord i.opcode (a &&& aField (Machine.Instr.usedMask i)) (b &&& bField (Machine.Instr.usedMask i))
      (c &&& cField (Machine.Instr.usedMask i)) := by
  rw [usedMask_eq]
  cases i <;> simp [Instr.withFields, encode, Instr.opcode, and_ff]

/-- What a command's mask leaves of a word with its OP byte: the encoding of the command the word decodes to. -/
theorem and_usedMask {w : Word} {i : Instr} (h : opField w = i.opcode) :
    w &&& Machine.Instr.usedMask i = encode (i.withFields (aField w) (bField w) (cField w)) := by
  rw [encode_withFields]
  apply word_eq_of_fields
  · rw [opField_and_usedMask, Laws.OpByte.commandWord_op, h]
  · rw [aField_and, aField_commandWord]
  · rw [bField_and, bField_commandWord]
  · rw [cField_and, cField_commandWord]

/-- Settles O7: `and_usedMask` says what the mask leaves, and an encoding determines its command. -/
theorem ignoredFieldsAreIgnored : Obligations.IgnoredFieldsAreIgnored := by
  intro w i
  constructor
  · intro h
    obtain ⟨hop, hi⟩ := decodeWord_eq_ok_iff.mp h
    rw [and_usedMask hop, hi]
  · intro h
    have hop : opField w = i.opcode := by
      rw [← opField_encode, ← h, opField_and_usedMask]
    rw [and_usedMask hop] at h
    rw [decodeWord_of_opField hop, ← decodeOfEncode (i.withFields _ _ _), h, decodeOfEncode]

end Sys2Proof

namespace Sys2Proof.Machine

/-! ## Refusals at decode, and NOP (30_encoding.md R105-R107) -/

/-- A command whose rule refuses completes with the refusal (60_exceptions.md R263). -/
theorem runCommand_refuses {body : Params → Proc Code} {s : State} {c : Code} (hn : s.noReset = true)
    (h : body s.params.params = refuse c) : Refuses (runCommand body s) s c := by
  have hdid := ((Did.refl s.start).orAcc { ill := true }).setShadow { s.results with rdata := 0 }
  rw [Effect.nil_seq] at hdid
  exact runCommand_completed hn ((congrFun h s.start).trans (refuse_apply c s.start)) hdid

theorem blockLenOk_eq_false {len : Byte} (h : len.toNat = 0 ∨ 16 < len.toNat) : blockLenOk len = false := by
  unfold blockLenOk
  rcases h with h | h <;> simp [h]

theorem cmdRegReadBlock_eq_refuse {len : Byte} (h : blockLenOk len = false) (p : Params) (sa off : Byte) :
    cmdRegReadBlock p sa off len = refuse .illegalCmd := by
  simp only [cmdRegReadBlock, h, Bool.false_eq_true, if_false]

/-- The ranges of 30_encoding.md R105 lie outside the list of R102. -/
theorem not_mem_listedOps {op : Byte} (h : (0x06 ≤ op.toNat ∧ op.toNat ≤ 0x0F) ∨ (0x13 ≤ op.toNat ∧ op.toNat ≤ 0x1F) ∨
    (0x24 ≤ op.toNat ∧ op.toNat ≤ 0x2F) ∨ (0x31 ≤ op.toNat ∧ op.toNat ≤ 0x3F) ∨
    (0x42 ≤ op.toNat ∧ op.toNat ≤ 0x4F) ∨ 0x54 ≤ op.toNat) : op ∉ listedOps := by
  have hlisted : ∀ b ∈ listedOps, b.toNat ≤ 0x05 ∨ (0x10 ≤ b.toNat ∧ b.toNat ≤ 0x12) ∨
      (0x20 ≤ b.toNat ∧ b.toNat ≤ 0x23) ∨ b.toNat = 0x30 ∨ (0x40 ≤ b.toNat ∧ b.toNat ≤ 0x41) ∨
      (0x50 ≤ b.toNat ∧ b.toNat ≤ 0x53) := by decide
  intro hmem
  have hop := hlisted op hmem
  omega

theorem runWord_of_not_listed {w : Word} (h : opField w ∉ listedOps) (s : State) :
    runWord w s = execIllegal (s.accept w) := by
  rw [runWord, decodeWord_of_not_listed h]

/-- Settles O50: an unlisted OP byte and a length outside 1..16 both run `refuse`. -/
theorem illegalCommandsAreRefused : Obligations.IllegalCommandsAreRefused := by
  refine ⟨fun s w rest hb hhost hrest hop => ?opcode, fun sa off len s hn hlen => ?length⟩
  case opcode =>
    rw [step_write_cmd hhost hb rfl, runWord_of_not_listed (not_mem_listedOps hop)]
    exact runCommand_refuses (decide_eq_true hrest) rfl
  case length =>
    exact runCommand_refuses (body := fun p => cmdRegReadBlock p sa off len) hn
      (cmdRegReadBlock_eq_refuse (blockLenOk_eq_false hlen) _ sa off)

/-- Settles O21: OP 0 alone selects NOP, and its rule writes RDATA and nothing else. -/
theorem nopCompletes : Obligations.NopCompletes :=
  ⟨rfl, fun _ h => decodeWord_of_opField (i := .nop) h, fun s hn =>
    runCommand_completed (body := fun _ => cmdNop) hn rfl ((Did.refl s.start).setShadow _)⟩

end Sys2Proof.Machine

/-! The statements of 41_register_access.md: the address-switch workaround on its own (R120-R122), the register commands
(R130-R134), the poll read (R136), and the workaround writes in the trace of any command (R123, R135). -/

namespace Sys2Proof.Machine

/-! ## The workaround (41_register_access.md R120-R122) -/

theorem lookup_eq_some_of_nodup {α β : Type} [BEq α] [LawfulBEq α] {l : List (α × β)} {k : α} {b : β}
    (hnd : (l.map Prod.fst).Nodup) (hmem : (k, b) ∈ l) : l.lookup k = some b := by
  obtain ⟨l₁, l₂, rfl⟩ := List.append_of_mem hmem
  refine List.lookup_eq_some_iff.mpr ⟨l₁, l₂, rfl, fun q hq => bne_iff_ne.mpr fun hk => ?_⟩
  rw [List.map_append, List.map_cons] at hnd
  exact (List.disjoint_of_nodup_append hnd) (List.mem_map_of_mem hq) (hk ▸ List.mem_cons_self)

theorem waTable_nodup (p : ParamSet) : (p.params.WA_TABLE.map Prod.fst).Nodup := by
  have hwf := p.ok
  simp only [Params.wf, Bool.and_eq_true] at hwf
  obtain ⟨⟨⟨_, hwa⟩, _⟩, _⟩ := hwf
  exact ((Params.waTableOk_iff p.params).mp hwa).1

/-- A sub-address of WA_TABLE has the offset that the table gives it (41_register_access.md R121). -/
theorem waOffset_of_mem (p : ParamSet) {sa off : Byte} (h : (sa, off) ∈ p.params.WA_TABLE) :
    waOffset p.params sa = off := by
  rw [waOffset, lookup_eq_some_of_nodup (waTable_nodup p) h, Option.getD_some]

/-- A sub-address outside WA_TABLE has offset 0 (41_register_access.md R121). -/
theorem waOffset_of_not_mem {p : Params} {sa : Byte} (h : ∀ off, (sa, off) ∉ p.WA_TABLE) : waOffset p sa = 0x00 := by
  have hnone : p.WA_TABLE.lookup sa = none :=
    List.lookup_eq_none_iff.mpr fun q hq => bne_iff_ne.mpr fun hsa => h q.2 (hsa ▸ hq)
  rw [waOffset, hnone, Option.getD_none]

theorem LastAddr.eq_iff {la : LastAddr} {sa : Byte} : la = ⟨true, sa⟩ ↔ la.valid = true ∧ la.sa = sa := by
  cases la
  simp

theorem State.orAcc_none (s : State) : s.orAcc {} = s := by rw [State.orAcc, Acc.or_none]

theorem workaround_same {s : State} {sa : Byte} (p : Params) (h : s.la = ⟨true, sa⟩) : workaround p sa s = .ok () s := by
  rw [workaround_apply, if_pos (LastAddr.eq_iff.mp h)]

/-- On another sub-address the memory moves first, then comes the zero write, whose failure raises WA
(41_register_access.md R120, R122). -/
theorem workaround_switch {s : State} {sa : Byte} (p : Params) (hq : s.quiet = true) (h : s.la ≠ ⟨true, sa⟩) :
    ∃ ok, workaround p sa s =
      .ok () (((s.setLa sa).busEvent (.w sa [waOffset p sa, 0x00] ok)).orAcc { wa := !ok }) := by
  have hq' : (s.setLa sa).quiet = true := hq
  refine ⟨((s.setLa sa).answer (.w sa [waOffset p sa, 0x00])).ok, ?_⟩
  rw [workaround_apply, if_neg (mt LastAddr.eq_iff.mpr h), busW_apply, hostWindow_quiet hq']
  dsimp only
  cases ((s.setLa sa).answer (.w sa [waOffset p sa, 0x00])).ok with
  | false => rfl
  | true => exact congrArg (EStateM.Result.ok _) (State.orAcc_none _).symm

/-- Settles O19: the two cases of the last-address memory, and the two of the table. -/
theorem workaroundFiresOnASwitch : Obligations.WorkaroundFiresOnASwitch :=
  ⟨fun p _ _ hq => ⟨workaround_same p, workaround_switch p hq⟩,
    fun p _ => ⟨fun _ => waOffset_of_mem p, waOffset_of_not_mem⟩⟩

/-! ## The register commands (41_register_access.md R130-R134) -/

section
variable {s : State}

/-- REG_READ runs RegRead and reports its byte (41_register_access.md R130). -/
theorem regRead_completed (hn : s.noReset = true) (sa off : Byte) :
    ∃ (d : RdDraw) (x : Side), x.takenFrom s ∧
      exec (.regRead sa off) s = .next (s.completed x (readEff ⟨sa, off⟩ d)
        { s.results with rdata := (d.v.getD 0).setWidth 32 } s.pstate (if d.v.isSome then .ok else .busErr)) := by
  obtain ⟨d, v, hv, hd⟩ := regRead_did (Ready.ofNoReset hn).start ⟨sa, off⟩
  refine ⟨d, runCommand_completed (body := fun p => cmdRegRead p sa off) hn ?_ (hd.setShadow _)⟩
  simp only [cmdRegRead, bind_apply, hv]
  cases d.v <;> simp [hd.shadow]

/-- REG_WRITE runs RegWrite and clears RDATA (41_register_access.md R131). -/
theorem regWrite_completed (hn : s.noReset = true) (sa off value : Byte) :
    ∃ (d : WrDraw) (x : Side), x.takenFrom s ∧
      exec (.regWrite sa off value) s = .next (s.completed x (writeEff ⟨sa, off⟩ value d)
        { s.results with rdata := 0 } s.pstate (if d.ok then .ok else .busErr)) := by
  obtain ⟨d, v, hv, hd⟩ := regWrite_did (Ready.ofNoReset hn).start ⟨sa, off⟩ value
  refine ⟨d, runCommand_completed (body := fun p => cmdRegWrite p sa off value) hn ?_ (hd.setShadow _)⟩
  simp [cmdRegWrite, hv, hd.shadow]

/-- Settles O22. -/
theorem regReadAndRegWriteComplete : Obligations.RegReadAndRegWriteComplete := fun sa off _ hn =>
  ⟨regRead_completed hn sa off, regWrite_completed hn sa off⟩

theorem blockLenOk_eq_true {len : Byte} (h1 : 1 ≤ len.toNat) (h16 : len.toNat ≤ 16) : blockLenOk len = true := by
  simp [blockLenOk, h1, h16]

/-- DBUF after a block read of `n`: the bytes read, and 0 past them (41_register_access.md R132). -/
theorem dbufOf_take (b : Vector Byte 16) (n : Nat) :
    dbufOf (b.toList.take n) = Vector.ofFn fun k => if k.val < n then b[k] else 0 := by
  refine congrArg Vector.ofFn (funext fun k => ?_)
  rw [List.getD_eq_getElem?_getD, List.getElem?_take]
  split <;> simp

/-- Settles O23: the length is accepted, and the bytes of RegReadBlock fill DBUF when there are any. -/
theorem regReadBlockCompletes : Obligations.RegReadBlockCompletes := by
  intro sa off len s hn h1 h16
  obtain ⟨⟨wa, b⟩, v, hv, hd⟩ := regReadBlock_did (Ready.ofNoReset hn).start ⟨sa, off⟩ len.toNat
  refine ⟨⟨wa, b⟩, runCommand_completed (body := fun p => cmdRegReadBlock p sa off len) hn ?_ (hd.setShadow _)⟩
  simp only [cmdRegReadBlock, blockLenOk_eq_true h1 h16, if_true, bind_apply, hv, BlkDraw.bytes]
  cases b with
  | none => simp [hd.shadow]
  | some b =>
    simp only [Option.map_some, writeShadow_apply, setRdata_apply, pure_apply, bind_apply, hd.shadow, dbufOf_take]
    rfl

/-- REG_SET and REG_CLR, by what they do to the byte (41_register_access.md R133, R134). -/
def cmdRegModify (p : Params) (l : Loc) (f : Byte → Byte) : Proc Code := do
  let r ← regModify p l f
  setRdata (rdataPair r.vr r.vw)
  return if r.ok then .ok else .busErr

theorem exec_regSet (sa off m : Byte) (s : State) :
    exec (.regSet sa off m) s = runCommand (fun p => cmdRegModify p ⟨sa, off⟩ fun v => v ||| m) s := rfl

theorem exec_regClr (sa off m : Byte) (s : State) :
    exec (.regClr sa off m) s = runCommand (fun p => cmdRegModify p ⟨sa, off⟩ fun v => v &&& ~~~m) s := rfl

/-- RDATA of a read-modify-write: the value written above the value read, 0 when the read failed (41_register_access.md
R133). -/
def modifyWord (f : Byte → Byte) (v : Option Byte) : Word :=
  match v with
  | none => 0
  | some v => v.setWidth 32 ||| ((f v).setWidth 32 <<< 8)

theorem rdataPair_eq_modifyWord (f : Byte → Byte) (v : Option Byte) :
    rdataPair (v.getD 0) ((v.map f).getD 0) = modifyWord f v := by
  rw [rdataPair, packWord_zero_eq]
  cases v <;> simp [modifyWord]

theorem cmdRegModify_completed (hn : s.noReset = true) (l : Loc) (f : Byte → Byte) :
    ∃ (d : RmwDraw) (x : Side), x.takenFrom s ∧
      runCommand (fun p => cmdRegModify p l f) s = .next (s.completed x (rmwEff l f d)
        { s.results with rdata := modifyWord f d.v } s.pstate (if d.good then .ok else .busErr)) := by
  obtain ⟨d, v, hv, hd⟩ := regModify_did (Ready.ofNoReset hn).start l f
  refine ⟨d, runCommand_completed hn ?_ (hd.setShadow _)⟩
  simp only [cmdRegModify, bind_apply, hv, rdataPair_eq_modifyWord, setRdata_apply, hd.shadow]
  rfl

/-- Settles O24: the two commands are one read-modify-write, each with its own change of the byte. -/
theorem regSetAndRegClrComplete : Obligations.RegSetAndRegClrComplete := by
  intro sa off mask s hn
  simp only [exec_regSet, exec_regClr]
  exact ⟨cmdRegModify_completed hn _ _, cmdRegModify_completed hn _ _⟩

end

/-! ## The poll read (41_register_access.md R136) -/

/-- A run raises the flags of its effect, and WA for a failed workaround write. -/
theorem Did.acc_eq {u v : State} {e : Effect} {r : Results} {st : PState} (h : Did u e r st v) :
    ∃ wa, v.acc = u.acc.or (e.acc.or { wa := wa }) := by
  obtain ⟨_, _, rfl⟩ := h
  exact ⟨_, rfl⟩

theorem State.eq_with_acc {v : State} {a : Acc} (h : a = v.acc) : v = { v with acc := a } := by
  rw [h]

/-- Settles O25: RegPoll and RegRead are one access, and raise their own flag when it failed. -/
theorem failedPollsNeverSetBus : Obligations.FailedPollsNeverSetBus := by
  intro p l s hp hn
  obtain ⟨wa, t, v, ht, ⟨b, hb, hd⟩ | ⟨hb, hd⟩⟩ := access_wr_did (hp ▸ Ready.ofNoReset hn) l.sa [l.off] 1
  all_goals obtain ⟨wa', hacc⟩ := hd.acc_eq
  · refine ⟨some ((b.toList.take 1).getD 0 0), v, ?_, ?_, ?_, ?_⟩
    · simp [regPoll, ht, hb]
    · simp [hacc]
    · simp [hacc]
    · have hread : regRead p l s = .ok (some ((b.toList.take 1).getD 0 0)) v := by simp [regRead, ht, hb]
      exact hread.trans (congrArg (EStateM.Result.ok _) (State.eq_with_acc (by simp [hacc, Acc.or])))
  · refine ⟨none, v.orAcc { pbus := true }, ?_, ?_, ?_, ?_⟩
    · simp [regPoll, ht, hb]
    · simp [hacc]
    · simp [hacc]
    · simp [regRead, ht, hb, hacc, State.orAcc, Acc.or]

end Sys2Proof.Machine

namespace Sys2Proof.Machine

/-! ## WA in an effect's flags (41_register_access.md R122)

No rule raises WA itself: the flag of an effect is told by the workaround writes between its events alone. -/

section
variable (p : Params) (l : Loc)

@[simp] theorem readEff_wa (d : RdDraw) : (readEff l d).acc.wa = false := rfl
@[simp] theorem pollEff_wa (d : RdDraw) : (pollEff l d).acc.wa = false := rfl
@[simp] theorem writeEff_wa (b : Byte) (d : WrDraw) : (writeEff l b d).acc.wa = false := rfl
@[simp] theorem blockEff_wa (n : Nat) (d : BlkDraw) : (blockEff l n d).acc.wa = false := rfl
@[simp] theorem delayEff_wa (ms : Nat) : (delayEff ms).acc.wa = false := rfl

@[simp] theorem rmwEff_wa (f : Byte → Byte) (d : RmwDraw) : (rmwEff l f d).acc.wa = false := by
  unfold rmwEff
  split <;> rfl

@[simp] theorem setEff_wa (m : Byte) (d : RmwDraw) : (setEff l m d).acc.wa = false := rmwEff_wa _ _ _
@[simp] theorem clrEff_wa (m : Byte) (d : RmwDraw) : (clrEff l m d).acc.wa = false := rmwEff_wa _ _ _

@[simp] theorem writesEff_wa (ws : List (Loc × Byte)) (ds : List WrDraw) : (writesEff ws ds).acc.wa = false := by
  induction ws generalizing ds with
  | nil => rfl
  | cons w ws ih =>
    cases ds with
    | nil => rfl
    | cons d ds => simp [writesEff, ih]

@[simp] theorem waitEff_wa (d : WaitDraw) : (waitEff p d).acc.wa = false := by
  have hpolls : ∀ ds, (auxPollsEff p ds).acc.wa = false := fun ds => by
    induction ds with
    | nil => rfl
    | cons d ds ih => exact (Acc.or_wa _ _).trans ih
  have hend : (waitEndEff p d.fin).acc.wa = false := by cases d.fin <;> rfl
  simp [waitEff, hpolls, hend]

@[simp] theorem auxWriteEff_wa (o : Byte) (d : AuxWriteDraw) : (auxWriteEff p o d).acc.wa = false := by
  simp [auxWriteEff]

@[simp] theorem auxReadEff_wa (c : Byte) (d : AuxReadDraw) : (auxReadEff p c d).acc.wa = false := by simp [auxReadEff]
@[simp] theorem addrEff_wa (dev : Byte) (d : AddrDraw) : (addrEff p dev d).acc.wa = false := by simp [addrEff]
@[simp] theorem auxResetEff_wa (d : PulseDraw) : (auxResetEff p d).acc.wa = false := by simp [auxResetEff]
@[simp] theorem countEff_wa (d : CountDraw) : (countEff p d).acc.wa = false := by simp [countEff]
@[simp] theorem initEff_wa (d : InitDraw) : (initEff p d).acc.wa = false := by simp [initEff]

@[simp] theorem attemptEff_wa (o : Byte) (w : AuxWriteDraw) (r : AuxReadDraw) : (attemptEff p o w r).acc.wa = false := by
  simp [attemptEff]

@[simp] theorem chunkEff_wa (o : Byte) (d : ChunkDraw) : (chunkEff p o d).acc.wa = false := by
  have hechoes : ∀ ds, (echoesEff p o ds).acc.wa = false := fun ds => by
    induction ds with
    | nil => rfl
    | cons d ds ih => simp [echoesEff, ih]
  cases hl : d.last with
  | none => simp [chunkEff, hl, hechoes]
  | some l => by_cases hr : l.read.res = .ok <;> simp [chunkEff, hl, hechoes, lastEff, hr]

@[simp] theorem segEff_wa (seg o : Byte) (d : SegDraw) : (segEff p seg o d).acc.wa = false := by
  cases hc : d.chunk <;> simp [segEff, hc]

@[simp] theorem piecesEff_wa (k : Nat) (ds : List PieceDraw) : (piecesEff p k ds).acc.wa = false := by
  induction ds generalizing k with
  | nil => rfl
  | cons d ds ih => cases d <;> simp [piecesEff, pieceEff, ih]

@[simp] theorem strobeEff_wa (a b : RmwDraw) : (strobeEff p a b).acc.wa = false := by simp [strobeEff]

@[simp] theorem fwPollsEff_wa (ds : List FwDraw) : (fwPollsEff p ds).acc.wa = false := by
  induction ds with
  | nil => rfl
  | cons d ds ih => by_cases hl : d.loaded p = true <;> simp [fwPollsEff, fwEff, hl, ih]

@[simp] theorem powerOnEff_wa : (powerOnEff p).acc.wa = false := rfl
@[simp] theorem powerDownEff_wa : (powerDownEff p).acc.wa = false := rfl

@[simp] theorem failedEff_wa (as : List (List FwDraw)) : (failedEff p as).acc.wa = false := by
  induction as with
  | nil => rfl
  | cons a as ih => simp [failedEff, ih]

@[simp] theorem readyEff_wa (d : ReadyDraw) : (readyEff p d).acc.wa = false := by
  by_cases hl : d.ready.loaded p = true <;> simp [readyEff, fwEff, hl]

@[simp] theorem hpdPollsEff_wa (ds : List RdDraw) : (hpdPollsEff p ds).acc.wa = false := by
  induction ds with
  | nil => rfl
  | cons d ds ih => simp [hpdPollsEff, hpdPollEff, ih]

@[simp] theorem hpdEff_wa (d : HpdDraw) : (hpdEff p d).acc.wa = false := by simp [hpdEff, hpdPollEff, startEff]

end

/-! ## The workaround writes of every command (41_register_access.md R122, R123, R135) -/

/-- A procedure that runs to its end by an effect without WA: a failed workaround write alone sets it. -/
def LeavesWa (p : Params) {α : Type} (x : Proc α) : Prop :=
  ∀ u, Ready p u → ∃ a e v, x u = .ok a v ∧ Reached u e v ∧ e.acc.wa = false

namespace LeavesWa

variable {p : Params} {α β : Type}

theorem pure (a : α) : LeavesWa p (pure a : Proc α) := fun u _ => ⟨a, {}, u, rfl, .refl u, rfl⟩

theorem bind {x : Proc α} {f : α → Proc β} (hx : LeavesWa p x) (hf : ∀ a, LeavesWa p (f a)) :
    LeavesWa p (x >>= f) := by
  intro u hu
  obtain ⟨a, e, v, hv, hd, he⟩ := hx u hu
  obtain ⟨b, e', w, hw, hd', he'⟩ := hf a v (hd.ready hu)
  exact ⟨b, e.seq e', w, by rw [bind_apply, hv]; exact hw, hd.trans hd', by simp [he, he']⟩

theorem get : LeavesWa p (get : Proc State) := fun u _ => ⟨u, {}, u, rfl, .refl u, rfl⟩

theorem writeShadow (f : Results → Results) : LeavesWa p (writeShadow f) := fun u _ =>
  ⟨(), {}, u.setShadow (f u.shadow), rfl, (Reached.refl u).setShadow _, rfl⟩

theorem setRdata (v : Word) : LeavesWa p (setRdata v) := writeShadow _

theorem endCode : LeavesWa p endCode := get.bind fun _ => pure _

theorem refuse (c : Code) : LeavesWa p (refuse c) := fun u _ =>
  ⟨c, _, _, refuse_apply c u, ((Reached.refl u).orAcc { ill := true }).setShadow _, rfl⟩

/-! ### Registers -/

theorem regRead (l : Loc) : LeavesWa p (regRead p l) := fun _ hu =>
  have ⟨_, v, hv, hd⟩ := regRead_did hu l
  ⟨_, _, v, hv, hd.reached, rfl⟩

theorem regWrite (l : Loc) (b : Byte) : LeavesWa p (regWrite p l b) := fun _ hu =>
  have ⟨_, v, hv, hd⟩ := regWrite_did hu l b
  ⟨_, _, v, hv, hd.reached, rfl⟩

theorem regReadBlock (l : Loc) (n : Nat) : LeavesWa p (regReadBlock p l n) := fun _ hu =>
  have ⟨_, v, hv, hd⟩ := regReadBlock_did hu l n
  ⟨_, _, v, hv, hd.reached, rfl⟩

theorem regModify (l : Loc) (f : Byte → Byte) : LeavesWa p (regModify p l f) := fun _ hu =>
  have ⟨_, v, hv, hd⟩ := regModify_did hu l f
  ⟨_, _, v, hv, hd.reached, rmwEff_wa _ _ _⟩

theorem regWriteAll (ws : List (Loc × Byte)) : LeavesWa p (regWriteAll p ws) := fun _ hu =>
  have ⟨_, v, _, hv, hd⟩ := regWriteAll_did hu ws
  ⟨(), _, v, hv, hd.reached, writesEff_wa _ _⟩

theorem cmdRegRead (sa off : Byte) : LeavesWa p (cmdRegRead p sa off) := by
  refine (regRead _).bind fun r => ?_
  cases r <;> exact (setRdata _).bind fun _ => pure _

theorem cmdRegWrite (sa off v : Byte) : LeavesWa p (cmdRegWrite p sa off v) :=
  (regWrite _ _).bind fun _ => (setRdata _).bind fun _ => pure _

theorem cmdRegReadBlock (sa off len : Byte) : LeavesWa p (cmdRegReadBlock p sa off len) := by
  unfold Machine.cmdRegReadBlock
  split
  · refine (regReadBlock _ _).bind fun r => ?_
    cases r with
    | some r => exact (writeShadow _).bind fun _ => (setRdata _).bind fun _ => pure _
    | none => exact (setRdata _).bind fun _ => pure _
  · exact refuse _

theorem cmdRegModify (l : Loc) (f : Byte → Byte) : LeavesWa p (cmdRegModify p l f) :=
  (regModify l f).bind fun _ => (setRdata _).bind fun _ => pure _

/-! ### AUX -/

theorem auxWrite (o : Byte) : LeavesWa p (auxWrite p o) := fun _ hu =>
  have ⟨_, v, _, hv, hd⟩ := auxWrite_did hu o
  ⟨_, _, v, hv, Did.reached hd, auxWriteEff_wa _ _ _⟩

theorem auxRead (c : Byte) : LeavesWa p (auxRead p c) := fun _ hu =>
  have ⟨_, v, _, hv, hd⟩ := auxRead_did hu c
  ⟨_, _, v, hv, Did.reached hd, auxReadEff_wa _ _ _⟩

theorem auxReset : LeavesWa p (auxReset p) := fun _ hu =>
  have ⟨_, v, hv, hd⟩ := auxReset_did hu
  ⟨_, _, v, hv, Did.reached hd, auxResetEff_wa _ _⟩

theorem auxReport (r : AuxRes × Nat) : LeavesWa p (auxReport r) := fun u _ =>
  have ⟨c, _, hend⟩ := auxReport_ends r u
  ⟨c, {}, _, hend, (Reached.refl u).setShadow _, rfl⟩

/-! ### EDID -/

theorem blockCount : LeavesWa p (blockCount p) := fun _ hu =>
  have ⟨_, v, _, hv, hd⟩ := blockCount_did hu
  ⟨_, _, v, hv, Did.reached hd, countEff_wa _ _⟩

theorem edidChunk (o : Byte) : LeavesWa p (edidChunk p o) := fun _ hu =>
  have ⟨_, v, _, hv, hd⟩ := edidChunk_did hu o
  ⟨_, _, v, hv, Did.reached hd, chunkEff_wa _ _ _⟩

theorem edidSegChunk (g o : Byte) : LeavesWa p (edidSegChunk p g o) := fun _ hu =>
  have ⟨_, v, _, hv, hd⟩ := edidSegChunk_did hu g o
  ⟨_, _, v, hv, Did.reached hd, segEff_wa _ _ _ _⟩

theorem edidInit : LeavesWa p (edidInit p) := fun _ hu =>
  have ⟨_, v, hv, hd⟩ := edidInit_did hu
  ⟨_, _, v, hv, Did.reached hd, initEff_wa _ _⟩

theorem edidCollect (size n k nOk nCopied : Nat) : LeavesWa p (edidCollect p size n k nOk nCopied) := fun _ hu =>
  have ⟨_, v, _, _, _, hv, hd⟩ := edidCollect_did hu size n k nOk nCopied
  ⟨_, _, v, hv, hd.reached, piecesEff_wa _ _ _⟩

theorem chunkReport (c : Chunk) : LeavesWa p (chunkReport c) := fun u _ =>
  have ⟨k, _, _, hend⟩ := chunkReport_ends c u
  ⟨k, {}, _, hend, (Reached.refl u).setShadow _, rfl⟩

theorem cmdEdidBlockCount : LeavesWa p (cmdEdidBlockCount p) :=
  blockCount.bind fun _ => (writeShadow _).bind fun _ => (setRdata _).bind fun _ => endCode

theorem cmdEdidReadFull : LeavesWa p (cmdEdidReadFull p) := by
  refine get.bind fun s => edidInit.bind fun ok => ?_
  cases ok with
  | false => exact (setRdata _).bind fun _ => pure _
  | true =>
    refine blockCount.bind fun cr => (writeShadow _).bind fun _ => (edidCollect _ _ _ _ _).bind fun r =>
      auxReset.bind fun _ => (writeShadow _).bind fun _ => (setRdata _).bind fun _ => ?_
    cases r.fail with
    | some c => exact pure _
    | none => exact endCode

/-! ### PLL and video -/

theorem cmdPllSolve : LeavesWa p (cmdPllSolve p) := by
  refine get.bind fun s => (setRdata _).bind fun _ => ?_
  cases pllSolve p s.inputs.pllClkHz.toNat with
  | none => exact pure _
  | some c => exact (writeShadow _).bind fun _ => pure _

theorem programLanes : LeavesWa p (programLanes p) :=
  (regModify _ _).bind fun _ => (regModify _ _).bind fun _ => (regModify _ _).bind fun _ => pure _

theorem programPostdiv (pd : Nat) : LeavesWa p (programPostdiv p pd) :=
  (regWrite _ _).bind fun _ => (regModify _ _).bind fun _ => (regModify _ _).bind fun _ => pure _

theorem mnStrobe : LeavesWa p (mnStrobe p) := fun _ hu =>
  have ⟨_, _, v, hv, hd⟩ := mnStrobe_did hu
  ⟨_, _, v, hv, Did.reached hd, strobeEff_wa _ _ _⟩

theorem cmdVideoConfig : LeavesWa p (cmdVideoConfig p) := by
  refine get.bind fun s => (setRdata _).bind fun _ => ?_
  cases pllSolve p (s.inputs.tPixclkKhz.toNat * 1000) with
  | none => exact pure _
  | some c =>
    exact (writeShadow _).bind fun _ => (regWriteAll _).bind fun _ => programLanes.bind fun _ =>
      (regWriteAll _).bind fun _ => (regWriteAll _).bind fun _ => (regWriteAll _).bind fun _ =>
      (regWriteAll _).bind fun _ => (programPostdiv _).bind fun _ => mnStrobe.bind fun _ => endCode

theorem cmdMnStrobe : LeavesWa p (cmdMnStrobe p) := mnStrobe.bind fun _ => (setRdata _).bind fun _ => endCode

/-! ### Power and link -/

theorem powerAttempts (n a : Nat) : LeavesWa p (powerAttempts p n a) := fun _ hu => by
  rcases powerAttempts_did hu n a with ⟨as, v, _, _, hv, hd⟩ | ⟨as, d, _, v, _, _, _, hv, hd⟩
  · exact ⟨_, _, v, hv, hd.reached, failedEff_wa _ _⟩
  · exact ⟨_, _, v, hv, hd.reached, by simp⟩

theorem cmdPowerUp : LeavesWa p (cmdPowerUp p) := by
  refine get.bind fun s => ?_
  split
  · exact refuse _
  · exact powerAttempts _ _

theorem hpdPolls (n i : Nat) : LeavesWa p (hpdPolls p n i) := fun _ hu => by
  rcases hpdPolls_did hu n i with ⟨ds, v, _, _, hv, hd⟩ | ⟨d, v, _, _, _, hv, hd⟩
  · exact ⟨_, _, v, hv, hd.reached, hpdPollsEff_wa _ _⟩
  · exact ⟨_, _, v, hv, hd.reached, hpdEff_wa _ _⟩

theorem cmdWaitHpd : LeavesWa p (cmdWaitHpd p) := by
  refine get.bind fun s => ?_
  split
  · exact refuse _
  · exact hpdPolls _ _

theorem cmdPowerRole : LeavesWa p (cmdPowerRole p) := by
  refine (regRead _).bind fun r => ?_
  cases r <;> exact (setRdata _).bind fun _ => pure _

theorem powerDown : LeavesWa p (powerDown p) := fun _ hu =>
  have ⟨v, hv, hd⟩ := powerDown_did hu
  ⟨(), _, v, hv, hd.reached, powerDownEff_wa _⟩

theorem cmdPowerOff : LeavesWa p (cmdPowerOff p) := by
  refine get.bind fun s => ?_
  split
  · exact refuse _
  · exact powerDown.bind fun _ => (setRdata _).bind fun _ => pure _

end LeavesWa

/-- Every command is a rule that leaves WA to the workaround writes. -/
theorem exec_leavesWa (i : Instr) :
    ∃ body : Params → Proc Code, (∀ s, exec i s = runCommand body s) ∧ ∀ p, LeavesWa p (body p) := by
  cases i with
  | nop => exact ⟨fun _ => cmdNop, fun _ => rfl, fun _ => (LeavesWa.setRdata _).bind fun _ => .pure _⟩
  | regRead sa off => exact ⟨fun p => cmdRegRead p sa off, fun _ => rfl, fun _ => .cmdRegRead sa off⟩
  | regWrite sa off v => exact ⟨fun p => cmdRegWrite p sa off v, fun _ => rfl, fun _ => .cmdRegWrite sa off v⟩
  | regReadBlock sa off len =>
    exact ⟨fun p => cmdRegReadBlock p sa off len, fun _ => rfl, fun _ => .cmdRegReadBlock sa off len⟩
  | regSet sa off m => exact ⟨_, exec_regSet sa off m, fun _ => .cmdRegModify _ _⟩
  | regClr sa off m => exact ⟨_, exec_regClr sa off m, fun _ => .cmdRegModify _ _⟩
  | auxWrite o =>
    exact ⟨fun p => cmdAuxWrite p o, fun _ => rfl, fun _ => (LeavesWa.auxWrite o).bind .auxReport⟩
  | auxRead c => exact ⟨fun p => cmdAuxRead p c, fun _ => rfl, fun _ => (LeavesWa.auxRead c).bind .auxReport⟩
  | auxReset =>
    exact ⟨cmdAuxReset, fun _ => rfl, fun _ =>
      LeavesWa.auxReset.bind fun _ => (LeavesWa.setRdata 0).bind fun _ => .pure _⟩
  | edidBlockCount => exact ⟨cmdEdidBlockCount, fun _ => rfl, fun _ => .cmdEdidBlockCount⟩
  | edidReadChunk o =>
    exact ⟨fun p => cmdEdidReadChunk p o, fun _ => rfl, fun _ => (LeavesWa.edidChunk o).bind .chunkReport⟩
  | edidReadSegment g o =>
    exact ⟨fun p => cmdEdidReadSegment p g o, fun _ => rfl, fun _ => (LeavesWa.edidSegChunk g o).bind .chunkReport⟩
  | edidReadFull => exact ⟨cmdEdidReadFull, fun _ => rfl, fun _ => .cmdEdidReadFull⟩
  | pllSolve => exact ⟨cmdPllSolve, fun _ => rfl, fun _ => .cmdPllSolve⟩
  | videoConfig => exact ⟨cmdVideoConfig, fun _ => rfl, fun _ => .cmdVideoConfig⟩
  | mnStrobe => exact ⟨cmdMnStrobe, fun _ => rfl, fun _ => .cmdMnStrobe⟩
  | powerUp => exact ⟨cmdPowerUp, fun _ => rfl, fun _ => .cmdPowerUp⟩
  | waitHpd => exact ⟨cmdWaitHpd, fun _ => rfl, fun _ => .cmdWaitHpd⟩
  | powerRole => exact ⟨cmdPowerRole, fun _ => rfl, fun _ => .cmdPowerRole⟩
  | powerOff => exact ⟨cmdPowerOff, fun _ => rfl, fun _ => .cmdPowerOff⟩

/-- Settles O20: a completed command's trace and last-address memory are woven from its effect's acts, and the effect
leaves WA to them. -/
theorem workaroundsFollowTheAddressSwitches : Obligations.WorkaroundsFollowTheAddressSwitches := by
  intro i s t hn he
  obtain ⟨body, hexec, hbody⟩ := exec_leavesWa i
  obtain ⟨c, e, v, hv, hd, hwa⟩ := hbody _ _ (Ready.ofNoReset hn).start
  obtain ⟨x, _, hrun⟩ := runCommand_completed hn hv hd
  rw [hexec, hrun] at he
  cases he
  exact ⟨e.acts, rfl, rfl, by simp [State.completed, hwa]⟩

end Sys2Proof.Machine

/-! The statements of 42_aux.md: the reports of AUX_WRITE and AUX_READ (R142-R146, R150, R151), the timeout of AuxWait
(R145), and AUX_RESET (R147, R152). -/

namespace Sys2Proof.Machine

/-! ## The reports of the AUX ops (42_aux.md R150, R151) -/

theorem WaitDraw.polls_le {p : Params} {d : WaitDraw} (h : d.legal p = true) : d.polls ≤ Config.AUX_POLL_MAX := by
  obtain ⟨pending, fin⟩ := d
  cases fin with
  | timeout => exact Nat.le_refl _
  | clear wa s r =>
    simp only [WaitDraw.legal, Bool.and_eq_true, decide_eq_true_eq] at h
    obtain ⟨_, hlt, _⟩ := h
    exact hlt

/-- RDATA's low byte holds the polls whole: there are fewer than 256 (42_aux.md R145, R150). -/
theorem rdataPair_polls {n : Nat} (h : n ≤ Config.AUX_POLL_MAX) (b : Byte) :
    rdataPair (BitVec.ofNat 8 n) b = BitVec.ofNat 32 n ||| (b.setWidth 32 <<< 8) := by
  have hn : (BitVec.ofNat 8 n).setWidth 32 = BitVec.ofNat 32 n := by
    have : n < 256 := Nat.lt_of_le_of_lt h (by decide)
    apply BitVec.eq_of_toNat_eq
    simp only [BitVec.toNat_setWidth, BitVec.toNat_ofNat]
    omega
  rw [rdataPair, packWord_zero_eq, BitVec.shiftLeft_zero, hn]

section
variable {s v : State} {e : Effect}

/-- The report of an AUX op with effect `e`: RDATA in the shadow, and the code of R150. -/
theorem auxReport_apply (hd : DidAux s.start e v) (r : AuxRes) (n : Nat) :
    auxReport (r, n) v = .ok (r.endCode e)
      (v.setShadow { s.results.withStatus e with rdata := rdataPair (BitVec.ofNat 8 n) (e.status s.results) }) := by
  have hshadow : v.shadow = s.results.withStatus e := Did.shadow hd
  have hcode : v.acc.endCode = e.acc.endCode := Did.endCode hd
  simp only [auxReport, bind_apply, get_apply, setRdata_apply, hshadow]
  cases r with
  | ok => exact congrArg (EStateM.Result.ok · _) hcode
  | _ => rfl

/-- A command that runs one AUX op and reports it completes with the op's effect (42_aux.md R150, R151). -/
theorem auxOp_completed {op : Params → Proc (AuxRes × Nat)} {d : WaitDraw} {r : AuxRes} (hn : s.noReset = true)
    (hl : d.legal s.params.params = true) (hop : op s.params.params s.start = .ok (r, d.polls) v)
    (hd : DidAux s.start e v) :
    ∃ x, Side.takenFrom x s ∧ runCommand (fun p => op p >>= auxReport) s = .next (s.completed x e
      { s.results.withStatus e with rdata := BitVec.ofNat 32 d.polls ||| ((e.status s.results).setWidth 32 <<< 8) }
      s.pstate (r.endCode e)) := by
  rw [← rdataPair_polls (WaitDraw.polls_le hl)]
  refine runCommand_completed hn ?_ (Did.setShadow hd _)
  rw [bind_apply, hop]
  exact auxReport_apply hd r d.polls

end

/-- Settles O26: each command is its AUX op and the report, and the op has the effect of its accesses. -/
theorem auxWriteAndAuxReadComplete : Obligations.AuxWriteAndAuxReadComplete := by
  refine fun s hn => ⟨fun offset => ?write, fun lenCmd => ?read⟩
  case write =>
    obtain ⟨d, v, hl, hv, hd⟩ := auxWrite_did (Ready.ofNoReset hn).start offset
    obtain ⟨x, hx, hrun⟩ := auxOp_completed (op := fun p => auxWrite p offset) hn hl hv hd
    exact ⟨d, x, hl, hx, hrun⟩
  case read =>
    obtain ⟨d, v, hl, hv, hd⟩ := auxRead_did (Ready.ofNoReset hn).start lenCmd
    obtain ⟨x, hx, hrun⟩ := auxOp_completed (op := fun p => auxRead p lenCmd) hn hl hv hd
    exact ⟨d, x, hl, hx, hrun⟩

/-! ## AUX_RESET (42_aux.md R147, R152) -/

/-- Settles O28: AuxReset makes both accesses, and leaves AUX_LAST_STATUS alone. -/
theorem auxResetCompletes : Obligations.AuxResetCompletes := by
  intro s hn
  obtain ⟨d, v, hv, hd⟩ := auxReset_did (Ready.ofNoReset hn).start
  have hshadow : v.shadow = s.results := (Did.shadow hd).trans (Results.withStatus_of_last (auxResetEff_last d) _)
  refine ⟨d, runCommand_completed (body := cmdAuxReset) hn ?_ (Did.setShadow hd _)⟩
  simp only [cmdAuxReset, bind_apply, hv, setRdata_apply, pure_apply, hshadow, Bool.and_eq_true]

/-! ## The timeout of AuxWait (42_aux.md R144, R145) -/

/-- The byte a one-byte read takes from the chip's answer. -/
def answerByte (a : BusAnswer) : Option Byte := if a.ok then some a.data[0] else none

/-- A poll read with a quiet host, no change of sub-address and an answer ready (41_register_access.md R120, R136). -/
theorem regPoll_of_chip {s : State} {l : Loc} {a : BusAnswer} {chip : List BusAnswer} (p : Params)
    (hq : s.quiet = true) (hla : s.la = ⟨true, l.sa⟩) (hchip : s.chip = a :: chip) :
    regPoll p l s =
      .ok (answerByte a) ((s.busEvent (readEvent l (answerByte a))).orAcc { pbus := (answerByte a).isNone }) := by
  have hans : s.answer (.wr l.sa [l.off] 1) = a := by simp [State.answer, hchip]
  have hbyte : a.data.toList.take 1 = [a.data[0]] := by
    rw [take_one_of_vector]
    simp
  simp only [regPoll, bind_apply, workaround_same p hla, busWR_apply, hostWindow_quiet hq, hans, hbyte, answerByte]
  cases a.ok with
  | true => exact congrArg (EStateM.Result.ok _) (State.orAcc_none _).symm
  | false => rfl

theorem delay_quiet {s : State} (p : Params) (ms : Nat) (hq : s.quiet = true) :
    delay p ms s = .ok () (s.delayed p ms) := by
  rw [delay_apply, hostWindow_quiet hq]

/-- AuxWait's next `n` polls each find an answer ready, and none of them shows the enable bit clear. -/
structure EnableStaysSet (p : Params) (n : Nat) (s : State) : Prop where
  quiet : s.quiet = true
  la : s.la = ⟨true, p.CHIP_MAP.L_AUX_CTRL_STATUS.sa⟩
  answers : n ≤ s.chip.length
  set : ∀ a ∈ s.chip, a.ok = true → a.data[0] &&& p.CHIP_MAP.M_AUX_OP_EN ≠ 0

/-- The events of polls that read `vs`: 2 ms before each read (42_aux.md R144). -/
def pollEvents (p : Params) (vs : List (Option Byte)) : List Event :=
  vs.flatMap fun v => [.d Config.AUX_POLL_MS, readEvent p.CHIP_MAP.L_AUX_CTRL_STATUS v]

section
variable {p : Params} {s : State} {n : Nat}

theorem EnableStaysSet.orAcc (h : EnableStaysSet p n s) (a : Acc) : EnableStaysSet p n (s.orAcc a) :=
  ⟨h.quiet, h.la, h.answers, h.set⟩

theorem EnableStaysSet.setShadow (h : EnableStaysSet p n s) (r : Results) : EnableStaysSet p n (s.setShadow r) :=
  ⟨h.quiet, h.la, h.answers, h.set⟩

theorem EnableStaysSet.setLoop (h : EnableStaysSet p n s) (l : Loops) : EnableStaysSet p n (s.setLoop l) :=
  ⟨h.quiet, h.la, h.answers, h.set⟩

theorem EnableStaysSet.delayed (h : EnableStaysSet p n s) (ms : Nat) : EnableStaysSet p n (s.delayed p ms) :=
  ⟨h.quiet, h.la, h.answers, h.set⟩

theorem EnableStaysSet.busEvent (h : EnableStaysSet p (n + 1) s) (e : Event) : EnableStaysSet p n (s.busEvent e) where
  quiet := h.quiet
  la := h.la
  answers := by
    rw [State.busEvent_chip, List.length_tail]
    exact Nat.le_sub_of_add_le h.answers
  set a ha := h.set a (List.mem_of_mem_tail ha)

/-- A poll read takes an answer, and what it reads does not show the enable bit clear. -/
theorem EnableStaysSet.exists_regPoll (h : EnableStaysSet p (n + 1) s) :
    ∃ (v : Option Byte) (t : State), regPoll p p.CHIP_MAP.L_AUX_CTRL_STATUS s = .ok v t ∧ EnableStaysSet p n t ∧
      t.trace = s.trace ++ [readEvent p.CHIP_MAP.L_AUX_CTRL_STATUS v] ∧
      ∀ b, v = some b → b &&& p.CHIP_MAP.M_AUX_OP_EN ≠ 0 := by
  obtain ⟨a, chip, hchip⟩ := List.exists_cons_of_length_pos (Nat.lt_of_lt_of_le n.succ_pos h.answers)
  refine ⟨_, _, regPoll_of_chip p h.quiet h.la hchip, (h.busEvent _).orAcc _, rfl, fun b hb => ?_⟩
  obtain ⟨hok, rfl⟩ : a.ok = true ∧ a.data[0] = b := by simpa [answerByte] using hb
  exact h.set a (hchip ▸ List.mem_cons_self) hok

/-- One round of AuxWait: 2 ms and a poll read, and on to the next poll (42_aux.md R144). -/
theorem EnableStaysSet.exists_poll (h : EnableStaysSet p (n + 1) s) (i : Nat) :
    ∃ (v : Option Byte) (t : State), auxPolls p (n + 1) i s = auxPolls p n (i + 1) t ∧ EnableStaysSet p n t ∧
      t.trace = s.trace ++ pollEvents p [v] := by
  have hstart := h.setLoop { s.loop with poll := i }
  obtain ⟨v, t, hread, hnext, htrace, hset⟩ := (hstart.delayed Config.AUX_POLL_MS).exists_regPoll
  have htrace' : t.trace = s.trace ++ pollEvents p [v] := by
    rw [htrace]
    simp [pollEvents]
  simp only [auxPolls, bind_apply, setPoll_apply, delay_quiet p _ hstart.quiet, hread]
  cases v with
  | none => exact ⟨none, t, rfl, hnext, htrace'⟩
  | some b =>
    refine ⟨some b, _, ?_, hnext.setShadow { t.shadow with auxLastStatus := b }, htrace'⟩
    simp only [setAuxLast, bind_apply, writeShadow_apply, hset b rfl, if_false]

/-- All the polls that are left are made, and the wait times out (42_aux.md R145). -/
theorem auxPolls_timeout (h : EnableStaysSet p n s) (i : Nat) :
    ∃ (t : State) (vs : List (Option Byte)), auxPolls p n i s = .ok (.tmo, Config.AUX_POLL_MAX) t ∧
      vs.length = n ∧ t.trace = s.trace ++ pollEvents p vs ∧ t.acc.tmo = true := by
  induction n generalizing s i with
  | zero => exact ⟨s.orAcc { tmo := true }, [], rfl, rfl, (List.append_nil _).symm, Bool.or_true _⟩
  | succ n ih =>
    obtain ⟨v, u, hpoll, hu, htrace⟩ := h.exists_poll i
    obtain ⟨t, vs, hrest, hlen, htrace', htmo⟩ := ih hu (i + 1)
    refine ⟨t, v :: vs, hpoll.trans hrest, congrArg (· + 1) hlen, ?_, htmo⟩
    rw [htrace', htrace, List.append_assoc]
    rfl

end

/-! ### The events of the polls -/

section
variable (p : Params) (vs : List (Option Byte))

theorem pollEvents_cons (v : Option Byte) : pollEvents p (v :: vs) =
    .d 2 :: readEvent p.CHIP_MAP.L_AUX_CTRL_STATUS v :: pollEvents p vs := rfl

theorem pollEvents_length : (pollEvents p vs).length = 2 * vs.length := by
  simp [pollEvents, Nat.mul_comm]

theorem pollEvents_count_delay : (pollEvents p vs).count (.d 2) = vs.length := by
  induction vs with
  | nil => rfl
  | cons v vs ih => simp [pollEvents_cons, readEvent, ih]

theorem pollEvents_busCount : busCount (pollEvents p vs) = vs.length := by
  induction vs with
  | nil => rfl
  | cons v vs ih => simp [pollEvents_cons, readEvent, ih]

theorem pollEvents_delayMs : delayMs (pollEvents p vs) = 2 * vs.length := by
  induction vs with
  | nil => rfl
  | cons v vs ih =>
    simp only [pollEvents_cons, readEvent, delayMs, ih, List.length_cons]
    omega

theorem mem_pollEvents {e : Event} : e ∈ pollEvents p vs ↔
    ∃ v ∈ vs, e = .d 2 ∨ e = readEvent p.CHIP_MAP.L_AUX_CTRL_STATUS v := by
  simp [pollEvents]

end

/-- Settles O27: the wait makes all 150 polls, each one delay and one poll read, and then times out. -/
theorem auxWaitTimesOutAfter150Polls : Obligations.AuxWaitTimesOutAfter150Polls := by
  intro s sa hq hla hsa hlen hset
  obtain ⟨t, vs, hrun, hvs, htrace, htmo⟩ := auxPolls_timeout (n := 150) ⟨hq, hsa ▸ hla, hlen, hset⟩ 1
  refine ⟨t, pollEvents s.params.params vs, hrun, htrace, ?_, ?_, ?_, ?_, htmo, fun e he => ?_⟩
  · rw [pollEvents_length, hvs]
  · rw [pollEvents_count_delay, hvs]
  · rw [pollEvents_busCount, hvs]
  · rw [pollEvents_delayMs, hvs]
  · obtain ⟨v, _, hd | hr⟩ := (mem_pollEvents _ _).mp he
    · exact .inl hd
    · exact .inr ⟨v, hr⟩

end Sys2Proof.Machine

/-! The statements of 43_edid.md: the block count (R160, R161, R171), the chunk commands (R162-R165, R172, R173), and the
full read with its counts (R166-R170, R174). -/

namespace Sys2Proof.Machine

theorem rdataPair_eq (low high : Byte) : rdataPair low high = low.setWidth 32 ||| (high.setWidth 32 <<< 8) := by
  rw [rdataPair, packWord_zero_eq, BitVec.shiftLeft_zero]

theorem State.setShadow_setShadow (r r' : Results) (s : State) : (s.setShadow r).setShadow r' = s.setShadow r' := rfl

/-! ## EDID_BLOCK_COUNT (43_edid.md R160, R161, R171) -/

/-- Settles O29: BlockCount has the effect of its accesses, and the command reports the two bytes. -/
theorem edidBlockCountCompletes : Obligations.EdidBlockCountCompletes := by
  refine ⟨fun _ => rfl, fun s hn => ?_⟩
  obtain ⟨d, v, hl, hv, hd⟩ := blockCount_did (Ready.ofNoReset hn).start
  have hshadow : v.shadow = s.results.withStatus (countEff s.params.params d) := Did.shadow hd
  have hcode : v.acc.endCode = (countEff s.params.params d).acc.endCode := Did.endCode hd
  refine ⟨d, ?_⟩
  rw [← rdataPair_eq, ← hshadow, ← hcode]
  obtain ⟨x, hx, hrun⟩ := runCommand_completed (body := cmdEdidBlockCount) hn
    (by simp only [cmdEdidBlockCount, setEdidBlocks, bind_apply, hv, writeShadow_apply, setRdata_apply]; rfl)
    (Did.setShadow hd _)
  exact ⟨x, hl, hx, hrun⟩

/-! ## EDID_READ_CHUNK and EDID_READ_SEGMENT (43_edid.md R162-R165, R172, R173) -/

section
variable {s v : State} {e : Effect} {c : Chunk}

/-- The report of a chunk read with effect `e`: the shadow, and the code (43_edid.md R172). -/
theorem chunkReport_apply (hd : DidAux s.start e v) (c : Chunk) :
    chunkReport c v = .ok (c.endCode e) (v.setShadow ((s.results.withStatus e).withChunk c)) := by
  have hshadow : v.shadow = s.results.withStatus e := Did.shadow hd
  have hcode : v.acc.endCode = e.acc.endCode := Did.endCode hd
  rw [← hshadow, Chunk.endCode, ← hcode]
  by_cases hok : c.res = .ok
  · simp only [chunkReport, Results.withChunk, dbufOf, if_pos hok, bind_apply, writeShadow_apply, setRdata_apply,
      endCode_apply, State.setShadow_shadow, State.setShadow_acc, State.setShadow_setShadow]
  · simp only [chunkReport, Results.withChunk, if_neg hok, bind_apply, setRdata_apply, pure_apply]

/-- A command that reads one chunk and reports it completes with the read's effect (43_edid.md R172, R173). -/
theorem chunkRead_completed {read : Params → Proc Chunk} (hn : s.noReset = true)
    (hread : read s.params.params s.start = .ok c v) (hd : DidAux s.start e v) :
    ∃ x, Side.takenFrom x s ∧ runCommand (fun p => read p >>= chunkReport) s =
      .next (s.completed x e ((s.results.withStatus e).withChunk c) s.pstate (c.endCode e)) := by
  refine runCommand_completed hn ?_ (Did.setShadow hd _)
  rw [bind_apply, hread]
  exact chunkReport_apply hd c

end

/-- Settles O30: each command is its chunk read and the report, and the read has the effect of its accesses. -/
theorem edidReadChunkAndSegmentComplete : Obligations.EdidReadChunkAndSegmentComplete := by
  refine fun offset s hn => ⟨?chunk, fun segment => ?segment⟩
  case chunk =>
    obtain ⟨d, v, hl, hv, hd⟩ := edidChunk_did (Ready.ofNoReset hn).start offset
    obtain ⟨x, hx, hrun⟩ := chunkRead_completed (read := fun p => edidChunk p offset) hn hv hd
    exact ⟨d, x, hl, hx, hrun⟩
  case segment =>
    obtain ⟨d, v, hl, hv, hd⟩ := edidSegChunk_did (Ready.ofNoReset hn).start segment offset
    obtain ⟨x, hx, hrun⟩ := chunkRead_completed (read := fun p => edidSegChunk p segment offset) hn hv hd
    exact ⟨d, x, hl, hx, hrun⟩

/-! ## EDID_READ_FULL (43_edid.md R166-R170) -/

/-- The result registers of a full read that passed its init: the block count, the chunks that fit, how many bytes they
are, and in RDATA how many chunks were read (43_edid.md R168-R170). -/
def FullDraw.results (d : FullDraw) (p : Params) (size : Nat) (r : Results) : Results :=
  { r.withStatus (fullEff p d) with
    edidCount := d.blocks
    edidRaw := d.count.raw
    edidBuf := piecesBuf size 0 r.edidBuf d.pieces
    edidValidLen := BitVec.ofNat 10 (16 * fitting size (okPieces d.pieces))
    rdata := d.blocks.setWidth 32 ||| (BitVec.ofNat 32 (okPieces d.pieces) <<< 8) }

/-- The init reads no AUX status byte. -/
theorem initEff_last (p : Params) (d : InitDraw) : (initEff p d).last = none := by
  simp only [initEff, clrEff, Effect.seq_last, rmwEff_last, writeEff_last, Option.or_none]

theorem okPieces_le_length (ds : List PieceDraw) : okPieces ds ≤ ds.length := List.length_filter_le _ _

/-- RDATA's byte above the block count holds the chunks read whole: there are at most 32 (43_edid.md R170). -/
theorem rdataPair_chunks {c : Byte} {n : Nat} (hc : c.toNat ≤ 3) (hn : n ≤ 8 * (c.toNat + 1)) :
    rdataPair c (BitVec.ofNat 8 n) = c.setWidth 32 ||| (BitVec.ofNat 32 n <<< 8) := by
  rw [rdataPair_eq, BitVec.setWidth_ofNat_of_le_of_lt (by decide) (by omega)]

section
variable {p : Params} {u v : State}

/-- A full read whose init failed makes no further access (43_edid.md R167, R170). -/
theorem cmdEdidReadFull_of_init_fails {d : InitDraw} (h : edidInit p u = .ok d.good v) (hbad : d.good = false) :
    cmdEdidReadFull p u = .ok .edidInitFail (v.setShadow { v.shadow with rdata := 0 }) := by
  rw [hbad] at h
  simp only [cmdEdidReadFull, bind_apply, get_apply, h]
  rfl

/-- A full read whose init succeeded: the block count, the chunks, and the AUX reset, one after the other
(43_edid.md R170). -/
theorem cmdEdidReadFull_of_init_good {di : InitDraw} (hu : Ready p u) (h1 : edidInit p u = .ok di.good v)
    (e1 : DidAux u (initEff p di) v) (hgood : di.good = true) :
    ∃ (d : FullDraw) (w : State), d.legal p = true ∧
      cmdEdidReadFull p u = .ok ((failCode d.pieces).getD w.acc.endCode) w ∧
      Did u (fullEff p d) (d.results p u.edidDestSize u.shadow) u.pstate w := by
  obtain ⟨dc, v2, l2, h2, e2⟩ := blockCount_did (e1.ready hu)
  have e12 := Did.setShadow (e1.trans e2) { v2.shadow with edidCount := edidClamp dc.raw, edidRaw := dc.raw }
  obtain ⟨ds, v3, hlegal, hlen, hend, h3, e3⟩ := edidCollect_did (e12.ready hu) u.edidDestSize
    (Config.CHUNKS_PER_GROUP * ((edidClamp dc.raw).toNat + 1)) 0 0 0
  have e123 := e12.trans e3
  obtain ⟨dr, v4, h4, e4⟩ := auxReset_did (e123.ready hu)
  have hdid : Did u (fullEff p ⟨di, dc, ds, dr⟩) v4.shadow u.pstate v4 := by
    have h := e123.trans e4
    rw [← Did.shadow e4, Effect.seq_assoc, Effect.seq_assoc, e3.pstate, e12.pstate] at h
    exact h
  have hresults : FullDraw.results ⟨di, dc, ds, dr⟩ p u.edidDestSize u.shadow = { v4.shadow with
      edidValidLen := BitVec.ofNat 10 (16 * fitting u.edidDestSize (okPieces ds))
      rdata := rdataPair (edidClamp dc.raw) (BitVec.ofNat 8 (okPieces ds)) } := by
    rw [rdataPair_chunks (edidClamp_le dc.raw) ((okPieces_le_length ds).trans hlen), Did.shadow e4, e3.shadow,
      State.setShadow_shadow, Did.shadow e2, Did.shadow e1, FullDraw.results, fullEff]
    simp only [Results.withStatus_seq]
    rfl
  refine ⟨⟨di, dc, ds, dr⟩, v4.setShadow (FullDraw.results _ p u.edidDestSize u.shadow), ?legal, ?run,
    Did.setShadow hdid _⟩
  case legal =>
    simp only [FullDraw.legal, Bool.and_eq_true, Bool.or_eq_true, decide_eq_true_eq]
    exact ⟨⟨⟨⟨hgood, l2⟩, hlegal⟩, hlen⟩, hend⟩
  case run =>
    rw [hresults]
    simp only [cmdEdidReadFull, bind_apply, get_apply, h1, hgood, if_true, h2, setEdidBlocks, writeShadow_apply, h3, h4,
      setRdata_apply, fitting, List.range_eq_range', Nat.zero_add]
    cases failCode ds <;> rfl

end

/-- Settles O31: the init decides which of the two forms the read has, and each form completes with its effect. -/
theorem edidReadFullCompletes : Obligations.EdidReadFullCompletes := by
  intro s hn
  obtain ⟨di, v, hv, hd⟩ := edidInit_did (Ready.ofNoReset hn).start
  cases hgood : di.good with
  | false =>
    have hshadow : v.shadow = s.results := (Did.shadow hd).trans (Results.withStatus_of_last (initEff_last _ _) _)
    have hrun := cmdEdidReadFull_of_init_fails hv hgood
    rw [hshadow] at hrun
    obtain ⟨x, hx, hnext⟩ := runCommand_completed hn hrun (Did.setShadow hd _)
    exact .inl ⟨di, x, hgood, hx, hnext⟩
  | true =>
    obtain ⟨d, w, hl, hrun, hdid⟩ := cmdEdidReadFull_of_init_good (Ready.ofNoReset hn).start hv hd hgood
    rw [hdid.endCode] at hrun
    obtain ⟨x, hx, hnext⟩ := runCommand_completed hn hrun hdid
    exact .inr ⟨d, x, hl, hx, hnext⟩

/-! ## The counts of a full read (43_edid.md R174) -/

/-- The chunks that fit are the ones below `size / 16`. -/
theorem fitting_eq (size n : Nat) : fitting size n = min n (size / 16) := by
  induction n with
  | zero => simp [fitting]
  | succ n ih =>
    have hfit : chunkDest n + 16 ≤ size ↔ n < size / 16 := by rw [chunkDest_eq]; omega
    unfold fitting at ih ⊢
    rw [List.range_succ, List.filter_append, List.length_append, ih]
    by_cases h : n < size / 16 <;> simp [hfit, h] <;> omega

/-- With no chunk failed, all of them were read. -/
theorem okPieces_of_failCode_none {ds : List PieceDraw} (h : failCode ds = none) : okPieces ds = ds.length := by
  simp only [failCode, Option.map_eq_none_iff, List.find?_eq_none] at h
  exact congrArg List.length (List.filter_eq_self.mpr fun d hd => by simpa using h d hd)

/-- A chunk that failed has a failing code. -/
theorem failCode_ne_ok (ds : List PieceDraw) : failCode ds ≠ some .ok := by
  intro h
  obtain ⟨d, hd, hr⟩ := Option.map_eq_some_iff.mp h
  have := List.find?_some hd
  simp [hr] at this

/-- A full read whose code is OK read every chunk of its blocks. -/
theorem FullDraw.okPieces_eq {p : Params} {d : FullDraw} {c : Code} (hl : d.legal p = true)
    (hok : (failCode d.pieces).getD c = .ok) : okPieces d.pieces = 8 * (d.blocks.toNat + 1) := by
  have hnone : failCode d.pieces = none := by
    cases hf : failCode d.pieces with
    | none => rfl
    | some k =>
      rw [hf] at hok
      exact absurd (hf.trans (congrArg some hok)) (failCode_ne_ok _)
  rw [okPieces_of_failCode_none hnone]
  simp only [FullDraw.legal, hnone, Bool.and_eq_true, Option.isSome_none, Bool.or_false, decide_eq_true_eq] at hl
  exact hl.2

/-- Settles O32: the code is OK only when the init succeeded and every chunk of the blocks was read. -/
theorem edidReadFullCounts : Obligations.EdidReadFullCounts := by
  intro s t hn he hok
  rcases edidReadFullCompletes s hn with ⟨d, x, _, _, hrun⟩ | ⟨d, x, hl, _, hrun⟩
  · rw [hrun] at he
    cases he
    cases hok
  · rw [hrun] at he
    cases he
    have hblocks : d.blocks.toNat ≤ 3 := edidClamp_le _
    have hchunks : okPieces d.pieces = 8 * (d.blocks.toNat + 1) := FullDraw.okPieces_eq hl hok
    have hsize : State.fitSize s ≤ 512 := Nat.min_le_right _ _
    refine ⟨?len, congrArg (fun n => d.blocks.setWidth 32 ||| (BitVec.ofNat 32 n <<< 8)) hchunks, hblocks⟩
    show (BitVec.ofNat 10 (16 * fitting (State.fitSize s) (okPieces d.pieces))).toNat =
      min (128 * (d.blocks.toNat + 1)) (16 * (State.fitSize s / 16))
    rw [fitting_eq, hchunks, BitVec.toNat_ofNat]
    omega

end Sys2Proof.Machine

/-! The fractional-PLL solver (44_pll.md): the divider search, the gcd, the fit to 24 bits, the doublings, and the solver
made of them. -/

namespace Sys2Proof.Machine

/-! ## The divider search and the snapping (44_pll.md R193, R194) -/

theorem find?_dividers_eq_some {bound clk d : Nat} :
    dividers.find? (fun q => decide (bound / q ≤ clk)) = some d ↔
      1 ≤ d ∧ d ≤ 16 ∧ bound / d ≤ clk ∧ ∀ q, 1 ≤ q → q < d → clk < bound / q := by
  simp only [dividers, List.find?_range'_eq_some, List.mem_range'_1, Bool.not_eq_true', decide_eq_true_eq,
    decide_eq_false_iff_not, not_le]
  have hrange : 1 ≤ d ∧ d < 1 + 16 ↔ 1 ≤ d ∧ d ≤ 16 := by omega
  rw [hrange, and_left_comm, and_assoc]

theorem find?_dividers_eq_none {bound clk : Nat} :
    dividers.find? (fun q => decide (bound / q ≤ clk)) = none ↔ ∀ q, 1 ≤ q → q ≤ 16 → clk < bound / q := by
  simp only [dividers, List.find?_range'_eq_none, Bool.not_eq_true', decide_eq_false_iff_not, not_le]
  exact forall₂_congr fun q _ => by rw [show q < 1 + 16 ↔ q ≤ 16 by omega]

/-- A divider of the search meets the preferred bound first, or, where none does, the absolute one (44_pll.md R193). -/
theorem pickDivider_eq_some {p : Params} {clk d : Nat} : pickDivider p clk = some d ↔
    (1 ≤ d ∧ d ≤ 16 ∧ p.PLL_OUT_FREQ_MIN / d ≤ clk ∧ ∀ q, 1 ≤ q → q < d → clk < p.PLL_OUT_FREQ_MIN / q) ∨
    ((∀ q, 1 ≤ q → q ≤ 16 → clk < p.PLL_OUT_FREQ_MIN / q) ∧
      1 ≤ d ∧ d ≤ 16 ∧ p.PLL_OUT_FREQ_ABS_MIN / d ≤ clk ∧ ∀ q, 1 ≤ q → q < d → clk < p.PLL_OUT_FREQ_ABS_MIN / q) := by
  rw [← find?_dividers_eq_some, ← find?_dividers_eq_none, ← find?_dividers_eq_some, pickDivider]
  cases dividers.find? fun q => decide (p.PLL_OUT_FREQ_MIN / q ≤ clk) <;> simp

/-- The search succeeds on the envelope: divider 16 meets the absolute bound (44_pll.md R202). -/
theorem exists_pickDivider {p : Params} {clk : Nat} (h : p.PLL_OUT_FREQ_ABS_MIN / 16 ≤ clk) :
    ∃ d, pickDivider p clk = some d := by
  rw [← Option.isSome_iff_exists, pickDivider]
  split
  · rfl
  · rw [Option.isSome_iff_ne_none, ne_eq, find?_dividers_eq_none]
    exact fun hnone => absurd h (hnone 16 (by decide) le_rfl).not_ge

theorem pickDivider_mem {p : Params} {clk d : Nat} (h : pickDivider p clk = some d) : 1 ≤ d ∧ d ≤ 16 := by
  rcases pickDivider_eq_some.mp h with ⟨h1, h16, _⟩ | ⟨_, h1, h16, _⟩ <;> exact ⟨h1, h16⟩

theorem snap_eq (d : Nat) :
    snap d = if d = 7 then 8 else if d = 11 then 12 else if d = 13 ∨ d = 14 then 15 else d := by
  unfold snap
  split <;> simp_all

/-- A snapped divider is one of the twelve that divide the reference clock (44_pll.md R194). -/
theorem snap_divides {d : Nat} (h1 : 1 ≤ d) (h16 : d ≤ 16) :
    snap d ∈ [1, 2, 3, 4, 5, 6, 8, 9, 10, 12, 15, 16] ∧ snap d ∣ 27000000 := by
  have hall : ∀ d ∈ dividers, snap d ∈ [1, 2, 3, 4, 5, 6, 8, 9, 10, 12, 15, 16] ∧ snap d ∣ 27000000 := by decide
  exact hall d (List.mem_range'_1.mpr ⟨h1, (by omega : d < 1 + 16)⟩)

/-- Snapping never lowers a divider, and stays in the range of the search. -/
theorem snap_bounds {d : Nat} (h16 : d ≤ 16) : d ≤ snap d ∧ snap d ≤ 16 := by
  rw [snap_eq]
  split_ifs <;> omega

/-- Settles O36: the search by its two halves, the snapping by its table. -/
theorem dividerSearchFindsTheSmallest : Obligations.DividerSearchFindsTheSmallest :=
  ⟨fun _ _ _ => pickDivider_eq_some, fun d h1 h16 => ⟨snap_eq d, snap_divides h1 h16⟩⟩

/-! ## The gcd (44_pll.md R196) -/

/-- Each subtraction keeps the gcd and lowers the sum, so the sum is fuel enough. -/
theorem gcdSub_eq_gcd {fuel a b : Nat} (ha : 1 ≤ a) (hb : 1 ≤ b) (hfuel : a + b ≤ fuel) :
    gcdSub fuel a b = Nat.gcd a b := by
  induction fuel generalizing a b with
  | zero => omega
  | succ fuel ih =>
    rw [gcdSub]
    rcases Nat.lt_trichotomy a b with hlt | rfl | hgt
    · rw [if_neg hlt.ne, if_neg hlt.not_gt, ih ha (by omega) (by omega), Nat.gcd_sub_self_right hlt.le]
    · rw [if_pos rfl, Nat.gcd_self]
    · rw [if_neg hgt.ne', if_pos hgt, ih (by omega) hb (by omega), Nat.gcd_sub_self_left hgt.le]

/-- Settles O35: the subtraction form with the sum as its fuel. -/
theorem subtractionGcdIsTheGcd : Obligations.SubtractionGcdIsTheGcd := fun _ _ ha hb => gcdSub_eq_gcd ha hb le_rfl

/-! ## Step 7: the fit to 24 bits (44_pll.md R197) -/

/-- `i` is the smallest divisor, from 1 on, at which both quotients fit 24 bits. -/
structure FitDivisor (m7 n7 i : Nat) : Prop where
  pos : 1 ≤ i
  m_le : m7 / i ≤ 0xFFFFFF
  n_le : n7 / i ≤ 0xFFFFFF
  least : ∀ j, 1 ≤ j → j < i → 0xFFFFFF < m7 / j ∨ 0xFFFFFF < n7 / j

theorem FitDivisor.symm {m7 n7 i : Nat} (h : FitDivisor m7 n7 i) : FitDivisor n7 m7 i :=
  ⟨h.pos, h.n_le, h.m_le, fun j h1 hj => (h.least j h1 hj).symm⟩

theorem FitDivisor.le {m7 n7 i j : Nat} (h : FitDivisor m7 n7 i) (hj : 1 ≤ j) (hm : m7 / j ≤ 0xFFFFFF)
    (hn : n7 / j ≤ 0xFFFFFF) : i ≤ j := by
  by_contra hlt
  rcases h.least j hj (by omega) with h | h <;> omega

theorem FitDivisor.unique {m7 n7 i j : Nat} (h : FitDivisor m7 n7 i) (h' : FitDivisor m7 n7 j) : i = j :=
  Nat.le_antisymm (h.le h'.pos h'.m_le h'.n_le) (h'.le h.pos h.m_le h.n_le)

/-- A pair that fits is not divided. -/
theorem FitDivisor.eq_one {m7 n7 i : Nat} (h : FitDivisor m7 n7 i) (hm : m7 ≤ 0xFFFFFF) (hn : n7 ≤ 0xFFFFFF) : i = 1 :=
  Nat.le_antisymm (h.le le_rfl (by rwa [Nat.div_one]) (by rwa [Nat.div_one])) h.pos

/-- The first part stays positive when the second is not 2^24 times as large: at the divisor before `i` the first
quotient would be at most 1, so the second would be what does not fit. -/
theorem FitDivisor.div_pos {m7 n7 i : Nat} (h : FitDivisor m7 n7 i) (hm : 1 ≤ m7) (hratio : n7 / m7 ≤ 0xFFFFFF) :
    1 ≤ m7 / i := by
  by_contra hzero
  have hlt : m7 < i := (Nat.div_eq_zero_iff_lt h.pos).mp (Nat.lt_one_iff.mp (not_le.mp hzero))
  rcases h.least (i - 1) (by omega) (by omega) with hbig | hbig
  · have : m7 / (i - 1) ≤ m7 / m7 := Nat.div_le_div_left (by omega) hm
    rw [Nat.div_self hm] at this
    omega
  · have : n7 / (i - 1) ≤ n7 / m7 := Nat.div_le_div_left (by omega) hm
    omega

/-- The loop stops at the first divisor that fits, and beyond the sum of the two both quotients are 0. -/
theorem fitFrom_eq {fuel i m7 n7 : Nat} (hi : 1 ≤ i) (hfuel : m7 + n7 + 1 < i + fuel)
    (hmiss : ∀ j, 1 ≤ j → j < i → 0xFFFFFF < m7 / j ∨ 0xFFFFFF < n7 / j) :
    ∃ k, FitDivisor m7 n7 k ∧ fitFrom fuel i m7 n7 = (m7 / k, n7 / k) := by
  induction fuel generalizing i with
  | zero =>
    have hm : m7 / (m7 + n7 + 1) = 0 := Nat.div_eq_of_lt (by omega)
    have hn : n7 / (m7 + n7 + 1) = 0 := Nat.div_eq_of_lt (by omega)
    have := hmiss (m7 + n7 + 1) (by omega) (by omega)
    omega
  | succ fuel ih =>
    rw [fitFrom]
    split
    · next hfit => exact ⟨i, ⟨hi, hfit.1, hfit.2, hmiss⟩, rfl⟩
    · next hfit =>
      refine ih (by omega) (by omega) fun j h1 hj => ?_
      rcases Nat.lt_succ_iff_lt_or_eq.mp hj with hj | rfl
      · exact hmiss j h1 hj
      · exact (not_and_or.mp hfit).imp not_le.mp not_le.mp

theorem fit24_eq (m7 n7 : Nat) : ∃ i, FitDivisor m7 n7 i ∧ fit24 m7 n7 = (m7 / i, n7 / i) :=
  fitFrom_eq le_rfl (by omega) fun j h1 hj => by omega

/-- Settles O37: the loop ends at the smallest divisor that fits. -/
theorem fitDividesByTheSmallestDivisor : Obligations.FitDividesByTheSmallestDivisor := fun m n =>
  have ⟨i, h, heq⟩ := fit24_eq m n
  ⟨i, h.pos, heq, h.m_le, h.n_le, h.least⟩

/-! ## Step 8: the doublings (44_pll.md R198) -/

/-- `(m, n)` is `(a, b)` doubled `j` times, and the next doubling would leave 24 bits. -/
structure Doubled (a b j m n : Nat) : Prop where
  m_eq : m = 2 ^ j * a
  n_eq : n = 2 ^ j * b
  m_le : m ≤ 0xFFFFFF
  n_le : n ≤ 0xFFFFFF
  full : 0xFFFFFF < 2 * m ∨ 0xFFFFFF < 2 * n

/-- No more doublings fit than were made: one more would be among them. -/
theorem Doubled.count_le {a b j k m n m' n' : Nat} (h : Doubled a b j m n) (h' : Doubled a b k m' n') : k ≤ j := by
  by_contra hlt
  have hpow : 2 * 2 ^ j ≤ 2 ^ k := by
    rw [← Nat.pow_succ']
    exact Nat.pow_le_pow_right (by decide) (by omega)
  have hm : 2 * m ≤ m' := by
    rw [h.m_eq, h'.m_eq, ← Nat.mul_assoc]
    exact Nat.mul_le_mul_right a hpow
  have hn : 2 * n ≤ n' := by
    rw [h.n_eq, h'.n_eq, ← Nat.mul_assoc]
    exact Nat.mul_le_mul_right b hpow
  rcases h.full with hfull | hfull
  · exact absurd (hm.trans h'.m_le) hfull.not_ge
  · exact absurd (hn.trans h'.n_le) hfull.not_ge

theorem Doubled.unique {a b j k m n m' n' : Nat} (h : Doubled a b j m n) (h' : Doubled a b k m' n') :
    m = m' ∧ n = n' := by
  obtain rfl : j = k := Nat.le_antisymm (h'.count_le h) (h.count_le h')
  exact ⟨h.m_eq.trans h'.m_eq.symm, h.n_eq.trans h'.n_eq.symm⟩

theorem doubleUp_doubled_of_fuel {fuel a b : Nat} (ha : a ≤ 0xFFFFFF) (hb : b ≤ 0xFFFFFF)
    (hfuel : 0xFFFFFF < 2 ^ fuel * a) : ∃ j, Doubled a b j (doubleUp fuel a b).1 (doubleUp fuel a b).2 := by
  induction fuel generalizing a b with
  | zero => omega
  | succ fuel ih =>
    rw [doubleUp]
    split
    · next hfit =>
      obtain ⟨j, h⟩ := ih hfit.1 hfit.2 (by rwa [← Nat.mul_assoc, ← Nat.pow_succ])
      exact ⟨j + 1, by rw [h.m_eq, Nat.pow_succ, Nat.mul_assoc], by rw [h.n_eq, Nat.pow_succ, Nat.mul_assoc],
        h.m_le, h.n_le, h.full⟩
    · next hfull => exact ⟨0, by simp, by simp, ha, hb, (not_and_or.mp hfull).imp not_le.mp not_le.mp⟩

/-- 24 doublings of a positive number leave 24 bits, so the fuel of step 8 is enough (log entry 14). -/
theorem doubleUp_doubled {a b : Nat} (hpos : 1 ≤ a) (ha : a ≤ 0xFFFFFF) (hb : b ≤ 0xFFFFFF) :
    ∃ j, Doubled a b j (doubleUp 24 a b).1 (doubleUp 24 a b).2 :=
  doubleUp_doubled_of_fuel ha hb (by omega)

/-! ## Steps 5 to 8: `Reduce` (44_pll.md R196-R198) -/

/-- What steps 5 to 8 make of `(m0, n0)`: the reduced fraction, divided by `i` with no part lost, doubled `j` times. -/
structure Reduces (m0 n0 i j m n : Nat) : Prop where
  fit : FitDivisor (m0 / Nat.gcd m0 n0) (n0 / Nat.gcd m0 n0) i
  m_pos : 1 ≤ m0 / Nat.gcd m0 n0 / i
  n_pos : 1 ≤ n0 / Nat.gcd m0 n0 / i
  doubled : Doubled (m0 / Nat.gcd m0 n0 / i) (n0 / Nat.gcd m0 n0 / i) j m n

theorem reduce_eq_some {m0 n0 m n : Nat} : reduce m0 n0 = some (m, n) ↔ ∃ i j, Reduces m0 n0 i j m n := by
  obtain ⟨i, hfit, heq⟩ := fit24_eq (m0 / Nat.gcd m0 n0) (n0 / Nat.gcd m0 n0)
  simp only [reduce, heq]
  split
  · next hzero =>
    refine ⟨(nomatch ·), fun ⟨i', j, h⟩ => ?_⟩
    obtain rfl := hfit.unique h.fit
    have := h.m_pos
    have := h.n_pos
    omega
  · next hzero =>
    rw [not_or, ← ne_eq, ← ne_eq, ← Nat.one_le_iff_ne_zero, ← Nat.one_le_iff_ne_zero] at hzero
    obtain ⟨j, hdbl⟩ := doubleUp_doubled hzero.1 hfit.m_le hfit.n_le
    constructor
    · intro h
      rw [Option.some_inj.mp h] at hdbl
      exact ⟨i, j, hfit, hzero.1, hzero.2, hdbl⟩
    · rintro ⟨i', j', h⟩
      obtain rfl := hfit.unique h.fit
      exact congrArg some (Prod.ext_iff.mpr (hdbl.unique h.doubled))

theorem Reduces.pos {m0 n0 i j m n : Nat} (h : Reduces m0 n0 i j m n) : 1 ≤ m ∧ 1 ≤ n := by
  rw [h.doubled.m_eq, h.doubled.n_eq]
  exact ⟨Nat.mul_pos (Nat.two_pow_pos j) h.m_pos, Nat.mul_pos (Nat.two_pow_pos j) h.n_pos⟩

/-- Where step 7 divides by 1 the ratio is exact (44_pll.md R200). -/
theorem Reduces.ratio {m0 n0 j m n : Nat} (h : Reduces m0 n0 1 j m n) : m * n0 = m0 * n := by
  have hm := h.doubled.m_eq
  have hn := h.doubled.n_eq
  rw [Nat.div_one] at hm hn
  rw [hm, hn, Nat.mul_assoc, Nat.div_mul_right_comm (Nat.gcd_dvd_left m0 n0),
    Nat.mul_div_assoc _ (Nat.gcd_dvd_right m0 n0), Nat.mul_left_comm]

/-- A quotient is that of the reduced fraction. -/
theorem div_gcd_div_div_gcd (a b : Nat) : a / Nat.gcd a b / (b / Nat.gcd a b) = a / b := by
  rw [Nat.div_div_eq_div_mul, Nat.mul_div_cancel' (Nat.gcd_dvd_right a b)]

/-- `Reduce` fails on no fraction whose two quotients both fit 24 bits. -/
theorem reduce_ne_none {m0 n0 : Nat} (hm : 1 ≤ m0) (hn : 1 ≤ n0) (hmn : m0 / n0 ≤ 0xFFFFFF) (hnm : n0 / m0 ≤ 0xFFFFFF) :
    reduce m0 n0 ≠ none := by
  obtain ⟨i, hfit, heq⟩ := fit24_eq (m0 / Nat.gcd m0 n0) (n0 / Nat.gcd m0 n0)
  have hm7 : 1 ≤ m0 / Nat.gcd m0 n0 := Nat.div_gcd_pos_of_pos_left n0 hm
  have hn7 : 1 ≤ n0 / Nat.gcd m0 n0 := Nat.div_gcd_pos_of_pos_right m0 hn
  have hmpos := hfit.div_pos hm7 (by rwa [Nat.gcd_comm, div_gcd_div_div_gcd])
  have hnpos := hfit.symm.div_pos hn7 (by rwa [div_gcd_div_div_gcd])
  simp only [reduce, heq]
  rw [if_neg (by omega)]
  exact Option.some_ne_none _

/-- Settles O39: a second reduction divides by the gcd and then only doubles, so it gives the pair back when the gcd is
the power of two that the doublings make. -/
theorem reduceIsIdempotentOnPowersOfTwo : Obligations.ReduceIsIdempotentOnPowersOfTwo := by
  intro m0 n0 m n _ _ hred
  obtain ⟨_, _, hout⟩ := reduce_eq_some.mp hred
  obtain ⟨hm, hn⟩ := hout.pos
  have hmle : m / Nat.gcd m n ≤ 0xFFFFFF := (Nat.div_le_self _ _).trans hout.doubled.m_le
  have hnle : n / Nat.gcd m n ≤ 0xFFFFFF := (Nat.div_le_self _ _).trans hout.doubled.n_le
  have hm7 : 1 ≤ m / Nat.gcd m n := Nat.div_gcd_pos_of_pos_left n hm
  have hmul : Nat.gcd m n * (m / Nat.gcd m n) = m := Nat.mul_div_cancel' (Nat.gcd_dvd_left m n)
  constructor
  · intro hagain
    obtain ⟨i, j, h⟩ := reduce_eq_some.mp hagain
    obtain rfl := h.fit.eq_one hmle hnle
    have hdoubled := h.doubled.m_eq
    rw [Nat.div_one] at hdoubled
    exact ⟨j, Nat.eq_of_mul_eq_mul_right hm7 (hmul.trans hdoubled)⟩
  · rintro ⟨k, hk⟩
    refine reduce_eq_some.mpr ⟨1, k, ⟨le_rfl, ?_, ?_, fun j h1 hj => by omega⟩, ?_, ?_,
      ⟨?_, ?_, hout.doubled.m_le, hout.doubled.n_le, hout.doubled.full⟩⟩ <;> rw [Nat.div_one]
    · exact hmle
    · exact hnle
    · exact hm7
    · exact Nat.div_gcd_pos_of_pos_right m hn
    · rw [← hk, hmul]
    · rw [← hk, Nat.mul_div_cancel' (Nat.gcd_dvd_right m n)]

/-! ## The solver (44_pll.md R191) -/

theorem inEnvelope_iff {p : Params} {clk : Nat} :
    inEnvelope p clk = true ↔ clk ≤ p.PLL_OUT_FREQ_ABS_MAX ∧ p.PLL_OUT_FREQ_ABS_MIN / 16 ≤ clk := by
  simp [inEnvelope]

theorem pllSolve_of_not_inEnvelope {p : Params} {clk : Nat} (h : ¬inEnvelope p clk = true) : pllSolve p clk = none :=
  if_neg h

/-- Steps 4 to 8, once the clock lies in the envelope and the search has found a divider. -/
theorem pllSolve_of_divider {p : Params} {clk d : Nat} (henv : inEnvelope p clk = true)
    (hd : pickDivider p clk = some d) :
    pllSolve p clk = if p.PLL_OUT_FREQ_ABS_MAX < clk * snap d then none else
      (reduce clk (27000000 / snap d)).map fun r => ⟨r.1, r.2, snap d, achieved r.1 r.2 (snap d)⟩ := by
  simp only [pllSolve, henv, hd, if_true]
  cases reduce clk (27000000 / snap d) <;> rfl

/-- What an Ok result came from, step by step. -/
theorem pllSolve_eq_some {p : Params} {clk : Nat} {c : PllCoeffs} (h : pllSolve p clk = some c) :
    ∃ d i j, pickDivider p clk = some d ∧ c.pd = snap d ∧ clk * c.pd ≤ p.PLL_OUT_FREQ_ABS_MAX ∧
      Reduces clk (27000000 / c.pd) i j c.m c.n ∧ c.act = achieved c.m c.n c.pd := by
  by_cases henv : inEnvelope p clk = true
  · obtain ⟨d, hd⟩ := exists_pickDivider (inEnvelope_iff.mp henv).2
    rw [pllSolve_of_divider henv hd] at h
    split at h
    · cases h
    · next hle =>
      obtain ⟨r, hr, rfl⟩ := Option.map_eq_some_iff.mp h
      obtain ⟨i, j, hred⟩ := reduce_eq_some.mp hr
      exact ⟨d, i, j, hd, rfl, not_lt.mp hle, hred, rfl⟩
  · rw [pllSolve_of_not_inEnvelope henv] at h
    cases h

theorem reference_div_pos {pd : Nat} (hpd : pd ∣ 27000000) : 0 < 27000000 / pd :=
  Nat.div_pos (Nat.le_of_dvd (by decide) hpd) (Nat.pos_of_dvd_of_pos hpd (by decide))

/-- Where step 7 divides by 1, the PLL runs at `clk · pd` and the achieved clock is the requested one (44_pll.md R200). -/
theorem achieved_of_reduces {clk pd j m n : Nat} (hpd : pd ∣ 27000000) (h : Reduces clk (27000000 / pd) 1 j m n) :
    m * 27000000 = clk * pd * n ∧ m * 27000000 / n = clk * pd ∧ achieved m n pd = clk := by
  have hpos : 1 ≤ pd := Nat.pos_of_dvd_of_pos hpd (by decide)
  have hcross : m * 27000000 = clk * pd * n := calc
    m * 27000000 = m * (27000000 / pd) * pd := by rw [Nat.mul_assoc, Nat.div_mul_cancel hpd]
    _ = clk * pd * n := by rw [h.ratio, Nat.mul_right_comm]
  have hquot : m * 27000000 / n = clk * pd := by rw [hcross, Nat.mul_div_cancel _ h.pos.2]
  exact ⟨hcross, hquot, by rw [achieved, hquot, Nat.mul_div_cancel _ hpos]⟩

/-- Settles O38: the result came from its steps, and each step has its property. -/
theorem solverOutputProperties : Obligations.SolverOutputProperties := by
  intro p clk c hc
  obtain ⟨d, i, j, hd, hpd, hmax, hred, hact⟩ := pllSolve_eq_some hc
  obtain ⟨h1, h16⟩ := pickDivider_mem hd
  obtain ⟨hlegal, hdvd⟩ := snap_divides h1 h16
  rw [← hpd] at hlegal hdvd
  have hgcd : Nat.gcd c.m c.n = 2 ^ j * Nat.gcd (clk / Nat.gcd clk (27000000 / c.pd) / i)
      (27000000 / c.pd / Nat.gcd clk (27000000 / c.pd) / i) := by
    rw [← Nat.gcd_mul_left, ← hred.doubled.m_eq, ← hred.doubled.n_eq]
  refine ⟨⟨d, hd, hpd⟩, hred.pos.1, hred.doubled.m_le, hred.pos.2, hred.doubled.n_le, hred.doubled.full, hlegal, hmax,
    hact, i, j, hred.fit.pos, hred.doubled.m_eq, hred.doubled.n_eq, hgcd, hred.fit.least, ?exact⟩
  rintro rfl
  obtain ⟨hcross, hquot, hclk⟩ := achieved_of_reduces hdvd hred
  have hcoprime := Nat.coprime_div_gcd_div_gcd (Nat.gcd_pos_of_pos_right clk (reference_div_pos hdvd))
  refine ⟨?_, hcross, hquot, hact.trans hclk⟩
  rw [hgcd, Nat.div_one, Nat.div_one, hcoprime, Nat.mul_one]

/-! ## Reachability and bounds (44_pll.md R202) -/

theorem pllBounds_ordered (p : ParamSet) :
    p.params.PLL_OUT_FREQ_ABS_MIN ≤ p.params.PLL_OUT_FREQ_MIN ∧
      p.params.PLL_OUT_FREQ_MIN ≤ p.params.PLL_OUT_FREQ_ABS_MAX ∧ 1 ≤ p.params.PLL_OUT_FREQ_ABS_MIN / 16 := by
  have hwf := p.ok
  simp only [Params.wf, Bool.and_eq_true, p.params.pllBoundsOk_iff] at hwf
  omega

/-- The reference clock's part of the fraction is less than 2^24 times the clock: it exceeds 24 bits only with divider 1,
and that divider asks for a clock of at least ABS_MIN. -/
theorem reference_div_clk_le (p : ParamSet) {clk d : Nat} (hd : pickDivider p.params clk = some d) :
    27000000 / snap d / clk ≤ 0xFFFFFF := by
  obtain ⟨h1, h16⟩ := pickDivider_mem hd
  obtain ⟨hmin, _, habs⟩ := pllBounds_ordered p
  rcases Nat.eq_or_lt_of_le h1 with rfl | h2
  · have hclk : 16 ≤ clk := by
      rcases pickDivider_eq_some.mp hd with ⟨_, _, hle, _⟩ | ⟨_, _, _, hle, _⟩ <;> omega
    exact (Nat.div_le_div_left hclk (by decide)).trans (by decide)
  · have hsnap : 2 ≤ snap d := h2.trans_le (snap_bounds h16).1
    calc 27000000 / snap d / clk ≤ 27000000 / snap d := Nat.div_le_self _ _
      _ ≤ 27000000 / 2 := Nat.div_le_div_left hsnap (by decide)
      _ ≤ 0xFFFFFF := by decide

/-- The clock's part of the fraction is less than 2^24 times the reference's: their ratio is that of `clk · pd`, at most
ABS_MAX, to the reference clock. -/
theorem clk_div_reference_le {clk pd absMax : Nat} (hpd : pd ∣ 27000000) (hle : clk * pd ≤ absMax)
    (hmax : absMax / 27000000 ≤ 0xFFFFFF) : clk / (27000000 / pd) ≤ 0xFFFFFF := by
  have hpos : 0 < pd := Nat.pos_of_dvd_of_pos hpd (by decide)
  calc clk / (27000000 / pd) = clk * pd / 27000000 := by
        rw [← Nat.mul_div_mul_right clk _ hpos, Nat.div_mul_cancel hpd]
    _ ≤ absMax / 27000000 := Nat.div_le_div_right hle
    _ ≤ 0xFFFFFF := hmax

/-- Inside the envelope the output check alone rejects. -/
theorem pllSolve_eq_none_iff (p : ParamSet) (hmax : p.params.PLL_OUT_FREQ_ABS_MAX / 27000000 ≤ 0xFFFFFF) {clk d : Nat}
    (henv : inEnvelope p.params clk = true) (hd : pickDivider p.params clk = some d) :
    pllSolve p.params clk = none ↔ p.params.PLL_OUT_FREQ_ABS_MAX < clk * snap d := by
  rw [pllSolve_of_divider henv hd]
  split
  · next hlt => exact iff_of_true rfl hlt
  · next hle =>
    refine iff_of_false (fun hnone => ?_) hle
    obtain ⟨h1, h16⟩ := pickDivider_mem hd
    have hdvd := (snap_divides h1 h16).2
    have hclk : 1 ≤ clk := (pllBounds_ordered p).2.2.trans (inEnvelope_iff.mp henv).2
    exact reduce_ne_none hclk (reference_div_pos hdvd) (clk_div_reference_le hdvd (not_lt.mp hle) hmax)
      (reference_div_clk_le p hd) (Option.map_eq_none_iff.mp hnone)

/-- Settles O40: divider 1 accepts the upper bound, and at the lower bound no divider brings the output above ABS_MIN. -/
theorem solverAcceptsTheEnvelope : Obligations.SolverAcceptsTheEnvelope := by
  intro p hmax
  obtain ⟨hmin, hminmax, hpos⟩ := pllBounds_ordered p
  have hsolve : ∀ clk, p.params.PLL_OUT_FREQ_ABS_MIN / 16 ≤ clk → clk ≤ p.params.PLL_OUT_FREQ_ABS_MAX →
      ∃ d, pickDivider p.params clk = some d ∧
        (pllSolve p.params clk = none ↔ p.params.PLL_OUT_FREQ_ABS_MAX < clk * snap d) := fun clk hlo hhi =>
    have ⟨d, hd⟩ := exists_pickDivider hlo
    ⟨d, hd, pllSolve_eq_none_iff p hmax (inEnvelope_iff.mpr ⟨hhi, hlo⟩) hd⟩
  refine ⟨hsolve, ?upper, ?lower, fun clk hlt => ?above, fun clk hlt => ?below⟩
  case upper =>
    have hd : pickDivider p.params p.params.PLL_OUT_FREQ_ABS_MAX = some 1 :=
      pickDivider_eq_some.mpr (.inl ⟨le_rfl, by decide, by rwa [Nat.div_one], fun q h1 hq => by omega⟩)
    rw [Option.isSome_iff_ne_none, ne_eq, pllSolve_eq_none_iff p hmax (inEnvelope_iff.mpr ⟨le_rfl, by omega⟩) hd]
    exact (Nat.mul_one _).not_gt
  case lower =>
    obtain ⟨d, hd, hiff⟩ := hsolve _ le_rfl (by omega)
    rw [Option.isSome_iff_ne_none, ne_eq, hiff, not_lt]
    calc p.params.PLL_OUT_FREQ_ABS_MIN / 16 * snap d ≤ p.params.PLL_OUT_FREQ_ABS_MIN / 16 * 16 :=
          Nat.mul_le_mul_left _ (snap_bounds (pickDivider_mem hd).2).2
      _ ≤ p.params.PLL_OUT_FREQ_ABS_MAX := by omega
  case above => exact pllSolve_of_not_inEnvelope fun h => hlt.not_ge (inEnvelope_iff.mp h).1
  case below => exact pllSolve_of_not_inEnvelope fun h => hlt.not_ge (inEnvelope_iff.mp h).2

/-! ## Scenario A (44_pll.md R203) -/

/-- The fraction of 74.3 MHz fits 24 bits with every divider, so step 7 does not divide it. -/
theorem scenarioA_fits {pd : Nat} (h : pd ∈ [1, 2, 3, 4, 5, 6, 8, 9, 10, 12, 15, 16]) :
    74300000 / Nat.gcd 74300000 (27000000 / pd) ≤ 0xFFFFFF ∧
      27000000 / pd / Nat.gcd 74300000 (27000000 / pd) ≤ 0xFFFFFF := by
  revert pd
  decide

/-- Settles O41: the test bounds give divider 7, snapped to 8; with any divider the pair is exact. -/
theorem scenarioAIsExact : Obligations.ScenarioAIsExact := by
  refine ⟨fun p hmin habs hmax => ?values, fun p c hc => ?exact⟩
  case values =>
    have henv : inEnvelope p.params 74300000 = true := inEnvelope_iff.mpr (by omega)
    have hd : pickDivider p.params 74300000 = some 7 := by
      rw [pickDivider, hmin, habs]
      decide
    rw [pllSolve_of_divider henv hd, hmax]
    decide
  case exact =>
    obtain ⟨d, i, j, hd, hpd, _, hred, hact⟩ := pllSolve_eq_some hc
    obtain ⟨h1, h16⟩ := pickDivider_mem hd
    obtain ⟨hlegal, hdvd⟩ := snap_divides h1 h16
    rw [← hpd] at hlegal hdvd
    obtain ⟨hm, hn⟩ := scenarioA_fits hlegal
    obtain rfl := hred.fit.eq_one hm hn
    exact hact.trans (achieved_of_reduces hdvd hred).2.2

/-! ## The command (44_pll.md R190) -/

theorem cmdPllSolve_of_range {p : Params} {u : State} (h : pllSolve p u.inputs.pllClkHz.toNat = none) :
    cmdPllSolve p u = .ok .pllRange (u.setShadow { u.shadow with rdata := 0 }) := by
  simp only [cmdPllSolve, bind_apply, get_apply, setRdata_apply, h]
  rfl

theorem cmdPllSolve_of_solved {p : Params} {u : State} {c : PllCoeffs}
    (h : pllSolve p u.inputs.pllClkHz.toNat = some c) :
    cmdPllSolve p u = .ok .ok (u.setShadow (Results.withPll { u.shadow with rdata := 0 } c)) := by
  simp only [cmdPllSolve, setPll, bind_apply, get_apply, setRdata_apply, writeShadow_apply, h]
  rfl

/-- Settles O34: the rule only writes the shadow, by the solver's answer. -/
theorem pllSolveCompletes : Obligations.PllSolveCompletes := by
  intro s hn
  have hdid := Did.refl s.start
  cases hsolve : pllSolve s.params.params s.inputs.pllClkHz.toNat with
  | none => exact runCommand_completed hn (cmdPllSolve_of_range hsolve) (hdid.setShadow _)
  | some c => exact runCommand_completed hn (cmdPllSolve_of_solved hsolve) (hdid.setShadow _)

end Sys2Proof.Machine

/-! The statements of 45_video_config.md: what VIDEO_CONFIG and MN_STROBE leave behind (R220-R230, R232), and the event
count of VIDEO_CONFIG (R231). -/

namespace Sys2Proof.Machine

/-! ## The steps of VIDEO_CONFIG (45_video_config.md R220-R229) -/

section
variable {p : Params} {u : State}

theorem regWriteAll_append (p : Params) (ws ws' : List (Loc × Byte)) :
    regWriteAll p (ws ++ ws') = regWriteAll p ws >>= fun _ => regWriteAll p ws' := by
  induction ws with
  | nil => rfl
  | cons w ws ih => simp only [List.cons_append, regWriteAll, ih, bind_assoc]

/-- The horizontal, vertical, M/N and adjustment steps are one list of writes (45_video_config.md R224-R227). -/
theorem videoSteps_eq (p : Params) (x : Inputs) (c : PllCoeffs) :
    videoSteps p x c = (do
      regWriteAll p (pixclkWrites p x)
      programLanes p
      regWriteAll p (timingWrites p x c.m c.n)
      programPostdiv p c.pd
      mnStrobe p
      endCode) := by
  have htiming : regWriteAll p (timingWrites p x c.m c.n) = (do
      programHorizontal p x
      programVertical p x
      programMN p c.m c.n
      programDigAdj p) := by
    simp only [programHorizontal, programVertical, programMN, programDigAdj, ← regWriteAll_append]
    rfl
  simp only [htiming, bind_assoc]
  rfl

/-- The effect of the steps: every one is made, whatever fails (45_video_config.md R221). -/
theorem videoSteps_did (hu : Ready p u) (x : Inputs) (c : PllCoeffs) :
    ∃ (d : VideoDraw) (v : State), d.legal = true ∧ videoSteps p x c u = .ok v.acc.endCode v ∧
      DidPlain u (videoEff p x c d) v := by
  obtain ⟨pixclk, v1, hpixclk, h1, e1⟩ := regWriteAll_did hu (pixclkWrites p x)
  have u1 := e1.ready hu
  obtain ⟨laneClr, laneSet, laneSwap, v2, h2, e2⟩ := programLanes_did u1
  have u2 := e2.ready u1
  obtain ⟨timing, v3, htiming, h3, e3⟩ := regWriteAll_did u2 (timingWrites p x c.m c.n)
  have u3 := e3.ready u2
  obtain ⟨postdiv, pllClr, pllSet, v4, h4, e4⟩ := programPostdiv_did u3 c.pd
  have u4 := e4.ready u3
  obtain ⟨low, high, v5, h5, e5⟩ := mnStrobe_did u4
  refine ⟨⟨pixclk, laneClr, laneSet, laneSwap, timing, postdiv, pllClr, pllSet, low, high⟩, v5, ?_, ?_, ?_⟩
  · simp [VideoDraw.legal, hpixclk, htiming, pixclkWrites, timingWrites]
  · simp only [videoSteps_eq, bind_apply, h1, h2, h3, h4, h5, endCode_apply]
  · have hdid := DidPlain.trans e1 (e2.trans (DidPlain.trans e3 (e4.trans e5)))
    simpa only [videoEff, Effect.seq_assoc] using hdid

/-! ## The two commands (45_video_config.md R220, R230, R232) -/

theorem cmdVideoConfig_of_range (h : pllSolve p (u.inputs.tPixclkKhz.toNat * 1000) = none) :
    cmdVideoConfig p u = .ok .pllRange (u.setShadow { u.shadow with rdata := 0 }) := by
  simp only [cmdVideoConfig, bind_apply, get_apply, setRdata_apply, h]
  rfl

/-- After a successful solve the command has the effect of its steps, on the new PLL registers. -/
theorem cmdVideoConfig_did (hu : Ready p u) {c : PllCoeffs}
    (hc : pllSolve p (u.inputs.tPixclkKhz.toNat * 1000) = some c) :
    ∃ (d : VideoDraw) (v : State), d.legal = true ∧ cmdVideoConfig p u = .ok v.acc.endCode v ∧
      Did u (videoEff p u.inputs c d) (Results.withPll { u.shadow with rdata := 0 } c) u.pstate v := by
  have hpll := hu.setShadow (.withPll { u.shadow with rdata := 0 } c)
  obtain ⟨d, v, hlegal, hv, hd⟩ := videoSteps_did hpll u.inputs c
  exact ⟨d, v, hlegal, (cmdVideoConfig_some hc).trans hv, hd.fromSetShadow⟩

end

/-- Settles O42: on PLL_RANGE only RDATA was written; after a solve the command has the effect of its steps. -/
theorem videoConfigCompletes : Obligations.VideoConfigCompletes := by
  refine fun s hn => ⟨fun c hc => ?solved, fun hc => ?range⟩
  case solved =>
    obtain ⟨d, v, hlegal, hv, hd⟩ := cmdVideoConfig_did (Ready.ofNoReset hn).start hc
    rw [hd.endCode] at hv
    obtain ⟨x, hx, hrun⟩ := runCommand_completed hn hv hd
    exact ⟨d, x, hlegal, hx, hrun⟩
  case range =>
    exact runCommand_completed hn (cmdVideoConfig_of_range hc) ((Did.refl s.start).setShadow _)

/-- Settles O44: the strobe has the effect of its accesses, and the command clears RDATA. -/
theorem mnStrobeCompletes : Obligations.MnStrobeCompletes := by
  intro s hn
  obtain ⟨low, high, v, hv, hd⟩ := mnStrobe_did (Ready.ofNoReset hn).start
  have hshadow : v.shadow = s.results := Did.shadow hd
  have hcode : v.acc.endCode = (strobeEff s.params.params low high).acc.endCode := Did.endCode hd
  refine ⟨low, high, runCommand_completed (body := cmdMnStrobe) hn ?_ (Did.setShadow hd _)⟩
  simp only [cmdMnStrobe, bind_apply, hv, setRdata_apply, endCode_apply, State.setShadow_acc, hcode, hshadow]

/-! ## The event count of VIDEO_CONFIG (45_video_config.md R231) -/

/-- The bus transactions of an effect, and one more for each read that failed: a read-modify-write has two of them,
whether its read fails or not. -/
def Effect.transactions (e : Effect) : Nat := busCount (e.acts.map Act.ev) + e.acts.countP Act.failedRead

/-- The delays and pin changes of an effect. -/
def Effect.offBus (e : Effect) : List Event := (e.acts.map Act.ev).filter fun ev => (Event.busSa ev).isNone

section
variable (l : Loc)

@[simp] theorem Effect.transactions_seq (a b : Effect) :
    (a.seq b).transactions = a.transactions + b.transactions := by
  simp only [Effect.transactions, Effect.seq_acts, List.map_append, busCount_append, List.countP_append]
  omega

@[simp] theorem Effect.offBus_seq (a b : Effect) : (a.seq b).offBus = a.offBus ++ b.offBus := by
  simp only [Effect.offBus, Effect.seq_acts, List.map_append, List.filter_append]

@[simp] theorem writeEff_transactions (b : Byte) (d : WrDraw) : (writeEff l b d).transactions = 1 := rfl
@[simp] theorem writeEff_offBus (b : Byte) (d : WrDraw) : (writeEff l b d).offBus = [] := rfl

@[simp] theorem delayEff_transactions (ms : Nat) : (delayEff ms).transactions = 0 := rfl
@[simp] theorem delayEff_offBus (ms : Nat) : (delayEff ms).offBus = [.d ms] := rfl

@[simp] theorem rmwEff_transactions (f : Byte → Byte) (d : RmwDraw) : (rmwEff l f d).transactions = 2 := by
  unfold rmwEff
  split <;> rfl

@[simp] theorem rmwEff_offBus (f : Byte → Byte) (d : RmwDraw) : (rmwEff l f d).offBus = [] := by
  unfold rmwEff
  split <;> rfl

theorem writesEff_transactions {ws : List (Loc × Byte)} {ds : List WrDraw} (h : ds.length = ws.length) :
    (writesEff ws ds).transactions = ws.length := by
  induction ws generalizing ds with
  | nil => rfl
  | cons w ws ih =>
    cases ds with
    | nil => cases h
    | cons d ds => simp [writesEff, ih (Nat.succ.inj h), Nat.add_comm]

@[simp] theorem writesEff_offBus (ws : List (Loc × Byte)) (ds : List WrDraw) : (writesEff ws ds).offBus = [] := by
  induction ws generalizing ds with
  | nil => rfl
  | cons w ws ih =>
    cases ds with
    | nil => rfl
    | cons d ds => simp [writesEff, ih]

end

section
variable (p : Params)

@[simp] theorem strobeEff_transactions (low high : RmwDraw) : (strobeEff p low high).transactions = 4 := by
  simp [strobeEff, setEff, clrEff]

@[simp] theorem strobeEff_offBus (low high : RmwDraw) : (strobeEff p low high).offBus = [.d 1] := by
  simp [strobeEff, setEff, clrEff]

/-- 2 writes of the pixel clock, 3 lane modifications, 22 writes, the post-divider with its pulse, and the strobe. -/
theorem videoEff_transactions (x : Inputs) (c : PllCoeffs) {d : VideoDraw} (h : d.legal = true) :
    (videoEff p x c d).transactions = 39 := by
  obtain ⟨hpixclk, htiming⟩ : d.pixclk.length = 2 ∧ d.timing.length = 22 := by simpa [VideoDraw.legal] using h
  have h2 : (writesEff (pixclkWrites p x) d.pixclk).transactions = 2 := writesEff_transactions hpixclk
  have h22 : (writesEff (timingWrites p x c.m c.n) d.timing).transactions = 22 := writesEff_transactions htiming
  simp [videoEff, setEff, clrEff, h2, h22]

theorem videoEff_offBus (x : Inputs) (c : PllCoeffs) (d : VideoDraw) : (videoEff p x c d).offBus = [.d 1] := by
  simp [videoEff, setEff, clrEff]

end

theorem Acc.endCode_ne_pllRange (a : Acc) : a.endCode ≠ .pllRange := by
  unfold Acc.endCode
  split <;> decide

/-- Settles O43: the code is PLL_RANGE exactly when the solver refuses, and the effect's acts are the steps'. -/
theorem videoConfigEventCount : Obligations.VideoConfigEventCount := by
  intro s t hn hexec
  obtain ⟨hsolved, hrange⟩ := videoConfigCompletes s hn
  cases hc : pllSolve s.params.params (s.inputs.tPixclkKhz.toNat * 1000) with
  | none =>
    obtain ⟨x, _, hrun⟩ := hrange hc
    obtain rfl := Host.Outcome.next.inj (hexec.symm.trans hrun)
    exact ⟨fun _ => List.append_nil _, fun hne => absurd rfl hne⟩
  | some c =>
    obtain ⟨d, x, hlegal, _, hrun⟩ := hsolved c hc
    obtain rfl := Host.Outcome.next.inj (hexec.symm.trans hrun)
    exact ⟨fun heq => absurd heq (Acc.endCode_ne_pllRange _), fun _ =>
      ⟨_, rfl, videoEff_transactions _ s.inputs c hlegal, videoEff_offBus _ s.inputs c d⟩⟩

end Sys2Proof.Machine

/-! The statements of 46_power_link.md: POWER_UP (R240-R244), WAIT_HPD and its timeout (R245-R248), POWER_ROLE (R249),
POWER_OFF (R243, R250), and the PSTATE preconditions (R251). -/

namespace Sys2Proof.Machine

/-! ## POWER_UP (46_power_link.md R240-R244)

Every register read of POWER_UP is a poll read, so no attempt raises BUS (41_register_access.md R136). -/

section
variable (p : Params)

@[simp] theorem fwEff_bus (d : FwDraw) : (fwEff p d).acc.bus = false := by
  unfold fwEff
  split <;> rfl

@[simp] theorem fwPollsEff_bus (ds : List FwDraw) : (fwPollsEff p ds).acc.bus = false := by
  induction ds with
  | nil => rfl
  | cons d ds ih => simp [fwPollsEff, delayEff, Acc.or, ih]

@[simp] theorem failedEff_bus (as : List (List FwDraw)) : (failedEff p as).acc.bus = false := by
  induction as with
  | nil => rfl
  | cons a as ih => simp [failedEff, powerOnEff, powerDownEff, pinEff, delayEff, Acc.or, ih]

@[simp] theorem readyEff_bus (d : ReadyDraw) : (readyEff p d).acc.bus = false := by
  simp [readyEff, powerOnEff, pinEff, delayEff, Acc.or]

theorem powerUpEff_endCode (as : List (List FwDraw)) (d : ReadyDraw) :
    ((failedEff p as).seq (readyEff p d)).acc.endCode = .ok := by
  simp [Acc.endCode, Acc.or]

end

theorem cmdPowerUp_of_off {p : Params} {u : State} (h : u.pstate = .off) :
    cmdPowerUp p u = powerAttempts p Config.POWERUP_ATTEMPTS 1 u := by
  simp only [cmdPowerUp, bind_apply, get_apply, h, ne_eq, not_true_eq_false, if_false]

/-- Settles O45: in Off the rule is its attempts, and they have one of the two effects. -/
theorem powerUpCompletes : Obligations.PowerUpCompletes := by
  intro s hn hoff
  have hattempts : cmdPowerUp s.params.params s.start = powerAttempts s.params.params 3 1 s.start := cmdPowerUp_of_off hoff
  rcases powerAttempts_did (Ready.ofNoReset hn).start 3 1 with
    ⟨as, v, hfailed, hlen, hv, hd⟩ | ⟨as, d, vr, v, hfailed, hlen, hready, hv, hd⟩
  case inl =>
    obtain ⟨x, hx, hrun⟩ := runCommand_completed hn (hattempts.trans hv) hd
    exact .inl ⟨as, x, hlen, hfailed, hx, hrun⟩
  case inr =>
    rw [hd.endCode, powerUpEff_endCode] at hv
    rw [Nat.add_comm] at hd
    obtain ⟨x, hx, hrun⟩ := runCommand_completed hn (hattempts.trans hv) hd
    exact .inr ⟨as, d, vr, x, hlen, hfailed, hready, hx, hrun⟩

/-! ## WAIT_HPD (46_power_link.md R245-R247) -/

theorem cmdWaitHpd_of_firmwareLoaded {p : Params} {u : State} (h : u.pstate = .firmwareLoaded) :
    cmdWaitHpd p u = hpdPolls p Config.HPD_POLL_MAX 1 u := by
  simp only [cmdWaitHpd, bind_apply, get_apply, h, ne_eq, not_true_eq_false, if_false]

/-- Settles O46: in FirmwareLoaded the rule is its polls, and they have one of the two effects. -/
theorem waitHpdCompletes : Obligations.WaitHpdCompletes := by
  intro s hn hloaded
  have hpolls : cmdWaitHpd s.params.params s.start = hpdPolls s.params.params Config.HPD_POLL_MAX 1 s.start :=
    cmdWaitHpd_of_firmwareLoaded hloaded
  rcases hpdPolls_did (Ready.ofNoReset hn).start Config.HPD_POLL_MAX 1 with
    ⟨ds, v, hunseen, hlen, hv, hd⟩ | ⟨d, v, hunseen, hlt, hseen, hv, hd⟩
  case inl =>
    obtain ⟨x, hx, hrun⟩ := runCommand_completed hn (hpolls.trans hv) hd
    rw [show s.start.pstate = .firmwareLoaded from hloaded] at hrun
    exact .inr ⟨ds, x, hlen, hunseen, hx, hrun⟩
  case inr =>
    rw [hd.endCode] at hv
    rw [Nat.add_comm] at hd
    obtain ⟨x, hx, hrun⟩ := runCommand_completed hn (hpolls.trans hv) hd
    exact .inl ⟨d, x, by simp [HpdDraw.legal, hunseen, hlt, hseen], hx, hrun⟩

/-! ## POWER_ROLE (46_power_link.md R249) -/

/-- The role bit lies above the byte. -/
theorem setWidth_and_bitAt_eight (v : Byte) (b : Bool) : v.setWidth 32 &&& bitAt b 8 = 0 := by
  refine BitVec.eq_of_getLsbD_eq fun i _ => ?_
  rw [BitVec.getLsbD_and, getLsbD_bitAt b i (by decide)]
  by_cases hi : i = 8 <;> simp [hi]

/-- The role bit above the byte is the byte plus 2^8. -/
theorem roleWord_eq_add (p : Params) (v : Byte) :
    roleWord p v = v.setWidth 32 + (if v &&& p.CHIP_MAP.M_ROLE ≠ 0 then 0x100 else 0) := by
  rw [roleWord, ← BitVec.add_eq_or_of_and_eq_zero _ _ (setWidth_and_bitAt_eight v _), bitAt]
  simp only [decide_eq_true_eq]
  rfl

/-- Settles O48: the rule is one RegRead and its report, whatever PSTATE is. -/
theorem powerRoleCompletes : Obligations.PowerRoleCompletes := by
  intro s hn
  obtain ⟨d, v, hv, hd⟩ := regRead_did (Ready.ofNoReset hn).start s.params.params.CHIP_MAP.L_SYS_STATUS
  refine ⟨d, runCommand_completed (body := cmdPowerRole) hn ?_ (hd.setShadow _)⟩
  simp only [cmdPowerRole, bind_apply, hv]
  cases d.v <;> simp [hd.shadow, roleWord_eq_add]

/-! ## POWER_OFF (46_power_link.md R243, R250) -/

theorem cmdPowerOff_of_accepted {p : Params} {u v : State} (h : u.pstate = .firmwareLoaded ∨ u.pstate = .linkReady)
    (hv : powerDown p u = .ok () v) : cmdPowerOff p u = .ok .ok (v.setShadow { v.shadow with rdata := 0 }) := by
  have hst : ¬(u.pstate = .off ∨ u.pstate = .poweringUp) := by
    rcases h with h | h <;> simp [h]
  simp only [cmdPowerOff, bind_apply, get_apply, hst, if_false, hv, setRdata_apply, pure_apply]

/-- Settles O49: the rule is PowerDown, whose effect is the three events. -/
theorem powerOffCompletes : Obligations.PowerOffCompletes := by
  intro s hn hst
  obtain ⟨v, hv, hd⟩ := powerDown_did (Ready.ofNoReset hn).start
  have hbody := cmdPowerOff_of_accepted (u := s.start) hst hv
  rw [hd.shadow] at hbody
  exact runCommand_completed hn hbody (hd.setShadow _)

/-! ## The HPD timeout (46_power_link.md R248) -/

/-- What `vs.length` rounds of a wait and a poll read of `l` issue, when they read `vs` and no workaround fires. -/
def pollRounds (ms : Nat) (l : Loc) (vs : List (Option Byte)) : List Event :=
  vs.flatMap fun v => [.d ms, readEvent l v]

section
variable {ms : Nat} {l : Loc} {vs : List (Option Byte)}

theorem pollRounds_cons (v : Option Byte) :
    pollRounds ms l (v :: vs) = .d ms :: readEvent l v :: pollRounds ms l vs := rfl

theorem pollRounds_length : (pollRounds ms l vs).length = 2 * vs.length := by
  simp [pollRounds, Nat.mul_comm]

theorem pollRounds_count_delay : (pollRounds ms l vs).count (.d ms) = vs.length := by
  induction vs with
  | nil => rfl
  | cons v vs ih => simp [pollRounds_cons, readEvent, ih]

theorem pollRounds_busCount : busCount (pollRounds ms l vs) = vs.length := by
  induction vs with
  | nil => rfl
  | cons v vs ih => simp [pollRounds_cons, readEvent, ih]

theorem mem_pollRounds {e : Event} : e ∈ pollRounds ms l vs ↔ ∃ v ∈ vs, e = .d ms ∨ e = readEvent l v := by
  simp [pollRounds]

end

/-- WAIT_HPD's next `n` polls each find an answer ready, and none of them shows HPD. -/
structure HpdStaysClear (p : Params) (n : Nat) (s : State) : Prop where
  quiet : s.quiet = true
  la : s.la = ⟨true, p.CHIP_MAP.L_SYS_STATUS.sa⟩
  answers : n ≤ s.chip.length
  clear : ∀ a ∈ s.chip, a.ok = true → a.data[0] &&& p.CHIP_MAP.M_HPD = 0

/-- The state after poll `i`, answered by `a` (46_power_link.md R246). -/
def State.hpdPolled (p : Params) (i : Nat) (a : BusAnswer) (s : State) : State :=
  ((((s.setLoop { s.loop with poll := i }).delayed p 10).busEvent
    (readEvent p.CHIP_MAP.L_SYS_STATUS (answerByte a))).orAcc { pbus := (answerByte a).isNone })

section
variable {p : Params} {s : State} {n : Nat}

theorem HpdStaysClear.hpdPolled (h : HpdStaysClear p (n + 1) s) (i : Nat) (a : BusAnswer) :
    HpdStaysClear p n (s.hpdPolled p i a) where
  quiet := h.quiet
  la := h.la
  answers := by
    show n ≤ s.chip.tail.length
    rw [List.length_tail]
    exact Nat.le_sub_of_add_le h.answers
  clear b hb := h.clear b (List.mem_of_mem_tail hb)

/-- A poll whose answer does not show HPD leads to the next one (46_power_link.md R245, R246). -/
theorem HpdStaysClear.exists_poll (h : HpdStaysClear p (n + 1) s) (i : Nat) :
    ∃ a, hpdPolls p (n + 1) i s = hpdPolls p n (i + 1) (s.hpdPolled p i a) := by
  obtain ⟨a, chip, hchip⟩ := List.exists_cons_of_length_pos (Nat.lt_of_lt_of_le n.succ_pos h.answers)
  have hread := regPoll_of_chip (s := (s.setLoop { s.loop with poll := i }).delayed p 10)
    (l := p.CHIP_MAP.L_SYS_STATUS) p h.quiet h.la hchip
  have hclear : a.ok = true → a.data[0] &&& p.CHIP_MAP.M_HPD = 0 := h.clear a (hchip ▸ List.mem_cons_self)
  refine ⟨a, ?_⟩
  rw [State.hpdPolled]
  simp only [hpdPolls, Config.HPD_POLL_MS, bind_apply, setPoll_apply, hread,
    delay_quiet (s := s.setLoop { s.loop with poll := i }) p 10 h.quiet]
  cases hok : a.ok with
  | false => simp only [answerByte, hok, Bool.false_eq_true, if_false]
  | true => simp only [answerByte, hok, if_true, hclear hok, ne_eq, not_true_eq_false, if_false]

/-- All the polls that are left are made, and the wait times out (46_power_link.md R248). -/
theorem hpdPolls_timeout (h : HpdStaysClear p n s) (i : Nat) :
    ∃ (t : State) (vs : List (Option Byte)), hpdPolls p n i s = .ok .hpdTimeout t ∧ vs.length = n ∧
      t.trace = s.trace ++ pollRounds 10 p.CHIP_MAP.L_SYS_STATUS vs ∧ t.pstate = s.pstate ∧
      t.shadow.rdata = 10000 ∧ t.quiet = true := by
  induction n generalizing s i with
  | zero => exact ⟨s.setShadow { s.shadow with rdata := 10000 }, [], rfl, rfl, (List.append_nil _).symm, rfl, rfl, h.quiet⟩
  | succ n ih =>
    obtain ⟨a, hpoll⟩ := h.exists_poll i
    obtain ⟨t, vs, hrest, hlen, htrace, hpstate, hrdata, hquiet⟩ := ih (h.hpdPolled i a) (i + 1)
    refine ⟨t, answerByte a :: vs, hpoll.trans hrest, congrArg (· + 1) hlen, ?_, hpstate, hrdata, hquiet⟩
    rw [htrace, pollRounds_cons]
    simp [State.hpdPolled]

end

/-- Settles O47: the wait makes all its polls, each one delay and one poll read, and then times out. -/
theorem hpdTimeoutAfter10000Polls : Obligations.HpdTimeoutAfter10000Polls := by
  intro s hq hst hla hlen hclear
  have hstart : HpdStaysClear s.params.params 10000 s.start := ⟨hq, hla, hlen, hclear⟩
  obtain ⟨t, vs, hpolls, hvs, htrace, hpstate, hrdata, hquiet⟩ := hpdPolls_timeout hstart 1
  have hrun : exec .waitHpd s = .next (t.commit .hpdTimeout) :=
    runCommand_commit ((cmdWaitHpd_of_firmwareLoaded (u := s.start) hst).trans hpolls) hquiet
  refine ⟨_, pollRounds 10 _ vs, hrun, rfl, hpstate.trans hst, hrdata, htrace, ?_, ?_, ?_, fun e he => ?_⟩
  · rw [pollRounds_length, hvs]
  · rw [pollRounds_count_delay, hvs]
  · rw [pollRounds_busCount, hvs]
  · obtain ⟨v, _, hd | hr⟩ := mem_pollRounds.mp he
    · exact .inl hd
    · exact .inr ⟨v, hr⟩

/-! ## The PSTATE preconditions (46_power_link.md R251) -/

/-- A command whose rule refuses in the state it starts from completes with the refusal (60_exceptions.md R263). -/
theorem runCommand_refuses_at {body : Params → Proc Code} {s : State} {c : Code} (hn : s.noReset = true)
    (h : body s.params.params s.start = refuse c s.start) : Refuses (runCommand body s) s c := by
  have hrun : runCommand body s = runCommand (fun _ => refuse c) s := by rw [runCommand_next, runCommand_next, h]
  rw [hrun]
  exact runCommand_refuses hn rfl

section
variable {p : Params} {u : State}

theorem cmdPowerUp_of_not_off (h : u.pstate ≠ .off) : cmdPowerUp p u = refuse .stateErr u := by
  simp only [cmdPowerUp, bind_apply, get_apply, ne_eq, h, not_false_eq_true, if_true]

theorem cmdWaitHpd_of_not_firmwareLoaded (h : u.pstate ≠ .firmwareLoaded) : cmdWaitHpd p u = refuse .stateErr u := by
  simp only [cmdWaitHpd, bind_apply, get_apply, ne_eq, h, not_false_eq_true, if_true]

theorem cmdPowerOff_of_not_accepted (hf : u.pstate ≠ .firmwareLoaded) (hl : u.pstate ≠ .linkReady) :
    cmdPowerOff p u = refuse .stateErr u := by
  have hst : u.pstate = .off ∨ u.pstate = .poweringUp := by
    cases h : u.pstate with
    | off => exact .inl rfl
    | poweringUp => exact .inr rfl
    | firmwareLoaded => exact absurd h hf
    | linkReady => exact absurd h hl
  simp only [cmdPowerOff, bind_apply, get_apply, hst, if_true]

end

/-! ### The codes a command can end with -/

theorem Acc.endCode_ne_stateErr (a : Acc) : a.endCode ≠ .stateErr := by
  unfold Acc.endCode
  split <;> decide

theorem okOrBusErr_ne_stateErr (c : Prop) [Decidable c] : (if c then Code.ok else .busErr) ≠ .stateErr := by
  split <;> decide

theorem AuxRes.code_ne_stateErr (r : AuxRes) : r.code ≠ .stateErr := by
  cases r <;> decide

theorem AuxRes.endCode_ne_stateErr (r : AuxRes) (e : Effect) : r.endCode e ≠ .stateErr := by
  cases r with
  | ok => exact Acc.endCode_ne_stateErr _
  | _ => exact Code.noConfusion

theorem ChunkDraw.chunk_ne_stateErr (d : ChunkDraw) : d.chunk.res ≠ .stateErr := by
  unfold ChunkDraw.chunk
  split
  · decide
  · split <;> exact Code.noConfusion

theorem SegDraw.result_ne_stateErr (d : SegDraw) : d.result.res ≠ .stateErr := by
  unfold SegDraw.result
  split
  · exact AuxRes.code_ne_stateErr _
  · exact ChunkDraw.chunk_ne_stateErr _

theorem Chunk.endCode_ne_stateErr {c : Chunk} (h : c.res ≠ .stateErr) (e : Effect) : c.endCode e ≠ .stateErr := by
  unfold Chunk.endCode
  split
  · exact Acc.endCode_ne_stateErr _
  · exact h

theorem failCode_ne_stateErr (ds : List PieceDraw) : failCode ds ≠ some .stateErr := by
  intro h
  obtain ⟨d, _, hres⟩ := Option.map_eq_some_iff.mp h
  cases d with
  | direct d => exact ChunkDraw.chunk_ne_stateErr d hres
  | segment d => exact SegDraw.result_ne_stateErr d hres

/-- The code of a full read: the failing chunk's, or the accumulated one. -/
theorem fullCode_ne_stateErr (ds : List PieceDraw) (a : Acc) : (failCode ds).getD a.endCode ≠ .stateErr := by
  cases h : failCode ds with
  | none => exact Acc.endCode_ne_stateErr a
  | some c => exact fun hc => failCode_ne_stateErr ds (h.trans (congrArg some hc))

/-- The PSTATE in which a command is accepted (46_power_link.md R251). -/
def AcceptedIn (i : Instr) (st : PState) : Prop :=
  match i with
  | .powerUp => st = .off
  | .waitHpd => st = .firmwareLoaded
  | .powerOff => st = .firmwareLoaded ∨ st = .linkReady
  | _ => True

/-- Command `i` completes from `s` with a code other than STATE_ERR. -/
def EndsWithoutStateErr (i : Instr) (s : State) : Prop :=
  ∃ x e r st c, c ≠ .stateErr ∧ exec i s = .next (s.completed x e r st c)

theorem EndsWithoutStateErr.of_exec {i : Instr} {s : State} {x : Side} {e : Effect} {r : Results} {st : PState} {c : Code}
    (h : exec i s = .next (s.completed x e r st c)) (hc : c ≠ .stateErr) : EndsWithoutStateErr i s :=
  ⟨x, e, r, st, c, hc, h⟩

theorem EndsWithoutStateErr.result_ne {i : Instr} {s t : State} (h : EndsWithoutStateErr i s) (he : exec i s = .next t) :
    t.result ≠ .stateErr := by
  obtain ⟨x, e, r, st, c, hc, hrun⟩ := h
  obtain rfl := Host.Outcome.next.inj (hrun.symm.trans he)
  exact hc

/-- The code of each command in the states where it is accepted, from what it completes with. -/
theorem exec_endsWithoutStateErr {s : State} (hn : s.noReset = true) (i : Instr) (hacc : AcceptedIn i s.pstate) :
    EndsWithoutStateErr i s := by
  cases i with
  | nop =>
    obtain ⟨x, _, h⟩ := nopCompletes.2.2 s hn
    exact .of_exec h (by decide)
  | regRead sa off =>
    obtain ⟨d, x, _, h⟩ := regRead_completed hn sa off
    exact .of_exec h (okOrBusErr_ne_stateErr _)
  | regWrite sa off v =>
    obtain ⟨d, x, _, h⟩ := regWrite_completed hn sa off v
    exact .of_exec h (okOrBusErr_ne_stateErr _)
  | regReadBlock sa off len =>
    by_cases hlen : 1 ≤ len.toNat ∧ len.toNat ≤ 16
    · obtain ⟨d, x, _, h⟩ := regReadBlockCompletes sa off len s hn hlen.1 hlen.2
      exact .of_exec h (okOrBusErr_ne_stateErr _)
    · obtain ⟨x, _, h⟩ := illegalCommandsAreRefused.2 sa off len s hn (by omega)
      exact .of_exec h (by decide)
  | regSet sa off m =>
    obtain ⟨d, x, _, h⟩ := (regSetAndRegClrComplete sa off m s hn).1
    exact .of_exec h (okOrBusErr_ne_stateErr _)
  | regClr sa off m =>
    obtain ⟨d, x, _, h⟩ := (regSetAndRegClrComplete sa off m s hn).2
    exact .of_exec h (okOrBusErr_ne_stateErr _)
  | auxWrite o =>
    obtain ⟨d, x, _, _, h⟩ := (auxWriteAndAuxReadComplete s hn).1 o
    exact .of_exec h (AuxRes.endCode_ne_stateErr _ _)
  | auxRead k =>
    obtain ⟨d, x, _, _, h⟩ := (auxWriteAndAuxReadComplete s hn).2 k
    exact .of_exec h (AuxRes.endCode_ne_stateErr _ _)
  | auxReset =>
    obtain ⟨d, x, _, h⟩ := auxResetCompletes s hn
    exact .of_exec h (okOrBusErr_ne_stateErr _)
  | edidBlockCount =>
    obtain ⟨d, x, _, _, h⟩ := edidBlockCountCompletes.2 s hn
    exact .of_exec h (Acc.endCode_ne_stateErr _)
  | edidReadChunk o =>
    obtain ⟨d, x, _, _, h⟩ := (edidReadChunkAndSegmentComplete o s hn).1
    exact .of_exec h (Chunk.endCode_ne_stateErr (ChunkDraw.chunk_ne_stateErr d) _)
  | edidReadSegment g o =>
    obtain ⟨d, x, _, _, h⟩ := (edidReadChunkAndSegmentComplete o s hn).2 g
    exact .of_exec h (Chunk.endCode_ne_stateErr (SegDraw.result_ne_stateErr d) _)
  | edidReadFull =>
    rcases edidReadFullCompletes s hn with ⟨d, x, _, _, h⟩ | ⟨d, x, _, _, h⟩
    · exact .of_exec h (by decide)
    · exact .of_exec h (fullCode_ne_stateErr _ _)
  | pllSolve =>
    obtain ⟨x, _, h⟩ := pllSolveCompletes s hn
    split at h <;> exact .of_exec h (by decide)
  | videoConfig =>
    obtain ⟨hsolved, hrange⟩ := videoConfigCompletes s hn
    cases hc : pllSolve s.params.params (s.inputs.tPixclkKhz.toNat * 1000) with
    | none =>
      obtain ⟨x, _, h⟩ := hrange hc
      exact .of_exec h (by decide)
    | some c =>
      obtain ⟨d, x, _, _, h⟩ := hsolved c hc
      exact .of_exec h (Acc.endCode_ne_stateErr _)
  | mnStrobe =>
    obtain ⟨low, high, x, _, h⟩ := mnStrobeCompletes s hn
    exact .of_exec h (Acc.endCode_ne_stateErr _)
  | powerUp =>
    rcases powerUpCompletes s hn hacc with ⟨as, x, _, _, _, h⟩ | ⟨as, d, vr, x, _, _, _, _, h⟩
    · exact .of_exec h (by decide)
    · exact .of_exec h (by decide)
  | waitHpd =>
    rcases waitHpdCompletes s hn hacc with ⟨d, x, _, _, h⟩ | ⟨ds, x, _, _, _, h⟩
    · exact .of_exec h (Acc.endCode_ne_stateErr _)
    · exact .of_exec h (by decide)
  | powerRole =>
    obtain ⟨d, x, _, h⟩ := powerRoleCompletes s hn
    exact .of_exec h (okOrBusErr_ne_stateErr _)
  | powerOff =>
    obtain ⟨x, _, h⟩ := powerOffCompletes s hn hacc
    exact .of_exec h (by decide)

/-- Settles O51: outside its states each of the three rules is `refuse`, and in them no command ends with STATE_ERR. -/
theorem statePreconditions : Obligations.StatePreconditions := by
  refine ⟨fun s hn => ⟨fun hst => ?_, fun hst => ?_, fun hf hl => ?_⟩, fun i s t hn he herr => ?_⟩
  · exact runCommand_refuses_at hn (cmdPowerUp_of_not_off (u := s.start) hst)
  · exact runCommand_refuses_at hn (cmdWaitHpd_of_not_firmwareLoaded (u := s.start) hst)
  · exact runCommand_refuses_at hn (cmdPowerOff_of_not_accepted (u := s.start) hf hl)
  · have hacc : ¬AcceptedIn i s.pstate := fun h => (exec_endsWithoutStateErr hn i h).result_ne he herr
    cases i with
    | powerUp => exact .inl ⟨rfl, hacc⟩
    | waitHpd => exact .inr (.inl ⟨rfl, hacc⟩)
    | powerOff => exact .inr (.inr ⟨rfl, not_or.mp hacc⟩)
    | _ => exact absurd trivial hacc

end Sys2Proof.Machine

/-! The statements of 60_exceptions.md: that there are no traps (R266), what each result code leaves in PSTATE (R269), and
the delay ceilings (R276). -/

namespace Sys2Proof.Machine

/-! ## No traps (60_exceptions.md R266) -/

section
variable (i : Instr) (w : Word) (s : State)

theorem exec_answers : ∃ t, exec i s = .next t := by
  obtain ⟨body, hrun, _⟩ := exec_body i
  exact ⟨_, (hrun s).trans (runCommand_next body s)⟩

theorem execIllegal_answers : ∃ t, execIllegal s = .next t := ⟨_, runCommand_next _ s⟩

theorem runWord_answers : ∃ t, runWord w s = .next t := by
  unfold runWord
  split
  · exact exec_answers _ _
  · exact execIllegal_answers _

theorem step_answers : ∃ t, step s = .next t := by
  unfold step
  cases hostNext s with
  | done u => exact ⟨u, rfl⟩
  | command w u => exact runWord_answers w u

end

/-- Settles O52: every command is a rule run to its commit or its reset, and a step runs at most one. -/
theorem everyStepAnswersANextState : Obligations.EveryStepAnswersANextState := ⟨exec_answers, step_answers⟩

/-! ## The codes and PSTATE (60_exceptions.md R269)

The three commands that move PSTATE, by the codes they end with. -/

section
variable {s t : State} {o : Outcome} {c : Code}

theorem Refuses.of_next (h : Refuses o s c) (ho : o = .next t) : t.result = c ∧ t.pstate = s.pstate := by
  obtain ⟨x, _, hrun⟩ := h
  obtain rfl := Host.Outcome.next.inj (hrun.symm.trans ho)
  exact ⟨rfl, rfl⟩

theorem Acc.endCode_ok_or_busErr (a : Acc) : a.endCode = .ok ∨ a.endCode = .busErr := by
  unfold Acc.endCode
  split
  · exact .inr rfl
  · exact .inl rfl

theorem powerUp_pstate (hn : s.noReset = true) (he : exec .powerUp s = .next t) :
    t.result = .ok ∧ t.pstate = .firmwareLoaded ∨ t.result = .fwTimeout ∧ t.pstate = .off ∨
      t.result = .stateErr ∧ t.pstate = s.pstate := by
  by_cases hoff : s.pstate = .off
  · rcases powerUpCompletes s hn hoff with ⟨as, x, _, _, _, hrun⟩ | ⟨as, d, vr, x, _, _, _, _, hrun⟩
    · obtain rfl := Host.Outcome.next.inj (hrun.symm.trans he)
      exact .inr (.inl ⟨rfl, rfl⟩)
    · obtain rfl := Host.Outcome.next.inj (hrun.symm.trans he)
      exact .inl ⟨rfl, rfl⟩
  · exact .inr (.inr (((statePreconditions.1 s hn).1 hoff).of_next he))

theorem waitHpd_pstate (hn : s.noReset = true) (he : exec .waitHpd s = .next t) :
    (t.result = .ok ∨ t.result = .busErr) ∧ t.pstate = .linkReady ∨
      t.result = .hpdTimeout ∧ t.pstate = .firmwareLoaded ∨ t.result = .stateErr ∧ t.pstate = s.pstate := by
  by_cases hloaded : s.pstate = .firmwareLoaded
  · rcases waitHpdCompletes s hn hloaded with ⟨d, x, _, _, hrun⟩ | ⟨ds, x, _, _, _, hrun⟩
    · obtain rfl := Host.Outcome.next.inj (hrun.symm.trans he)
      exact .inl ⟨Acc.endCode_ok_or_busErr _, rfl⟩
    · obtain rfl := Host.Outcome.next.inj (hrun.symm.trans he)
      exact .inr (.inl ⟨rfl, rfl⟩)
  · exact .inr (.inr (((statePreconditions.1 s hn).2.1 hloaded).of_next he))

theorem powerOff_pstate (hn : s.noReset = true) (he : exec .powerOff s = .next t) :
    t.result = .ok ∧ t.pstate = .off ∨ t.result = .stateErr ∧ t.pstate = s.pstate := by
  by_cases hacc : s.pstate = .firmwareLoaded ∨ s.pstate = .linkReady
  · obtain ⟨x, _, hrun⟩ := powerOffCompletes s hn hacc
    obtain rfl := Host.Outcome.next.inj (hrun.symm.trans he)
    exact .inl ⟨rfl, rfl⟩
  · obtain ⟨hloaded, hready⟩ := not_or.mp hacc
    exact .inr (((statePreconditions.1 s hn).2.2 hloaded hready).of_next he)

end

/-- Settles O58: the three commands that move PSTATE by their codes, every other one by its row of `MovesPower`. -/
theorem codeDecidesPstate : Obligations.CodeDecidesPstate := by
  intro i s t hn he
  cases i with
  | powerUp =>
    obtain ⟨hc, hst⟩ | ⟨hc, hst⟩ | ⟨hc, hst⟩ := powerUp_pstate hn he <;> rw [hc] <;> exact hst
  | waitHpd =>
    obtain ⟨hc | hc, hst⟩ | ⟨hc, hst⟩ | ⟨hc, hst⟩ := waitHpd_pstate hn he <;> rw [hc] <;> exact hst
  | powerOff =>
    obtain ⟨hc, hst⟩ | ⟨hc, hst⟩ := powerOff_pstate hn he <;> rw [hc] <;> exact hst
  | _ =>
    obtain ⟨x, e, r, st, c, rfl, _, hmoves⟩ := completes_of_exec hn he
    exact hmoves.2

/-! ## The delays of an effect (00_scope.md R13) -/

/-- The delays of an effect's events, in ms; the workaround writes between them have none (`State.completed_timebase`). -/
def Effect.delaySum (e : Effect) : Nat := delayMs (e.acts.map Act.ev)

theorem delayMs_weave (p : Params) (la : LastAddr) (acts : List Act) :
    delayMs (weave p la acts) = delayMs (acts.map Act.ev) := by
  induction acts generalizing la with
  | nil => rfl
  | cons a acts ih =>
    obtain ⟨ev, wa⟩ := a
    cases ev with
    | d ms => exact congrArg (ms + ·) (ih _)
    | g pin v => exact ih _
    | w sa bytes ok =>
      simp only [weave, Event.busSa, waEvents]
      split <;> exact ih _
    | wr sa wb n ok bytes =>
      simp only [weave, Event.busSa, waEvents]
      split <;> exact ih _

theorem State.completed_timebase (s : State) (x : Side) (e : Effect) (r : Results) (st : PState) (c : Code) :
    (s.completed x e r st c).timebase = s.timebase + e.delaySum * s.params.params.CLK_PER_MS := by
  rw [Effect.delaySum, ← delayMs_weave s.params.params s.la]
  rfl

theorem delayMs_filter_offBus (evs : List Event) :
    delayMs (evs.filter fun ev => (Event.busSa ev).isNone) = delayMs evs := by
  induction evs with
  | nil => rfl
  | cons ev evs ih =>
    cases ev with
    | d ms => exact congrArg (ms + ·) ih
    | w sa bytes ok => exact ih
    | wr sa wb n ok bytes => exact ih
    | g pin v => exact ih

/-- Bus transactions take no delay. -/
theorem Effect.delaySum_eq_offBus (e : Effect) : e.delaySum = delayMs e.offBus := (delayMs_filter_offBus _).symm

@[simp] theorem Effect.delaySum_nil (acc : Acc) (l : Option Byte) :
    Effect.delaySum { acts := [], acc := acc, last := l } = 0 := rfl

@[simp] theorem Effect.delaySum_seq (a b : Effect) : (a.seq b).delaySum = a.delaySum + b.delaySum := by
  simp only [Effect.delaySum, Effect.seq_acts, List.map_append, delayMs_append]

section
variable (p : Params) (l : Loc)

/-! ### Register procedures -/

@[simp] theorem readEff_delaySum (d : RdDraw) : (readEff l d).delaySum = 0 := rfl
@[simp] theorem pollEff_delaySum (d : RdDraw) : (pollEff l d).delaySum = 0 := rfl
@[simp] theorem writeEff_delaySum (b : Byte) (d : WrDraw) : (writeEff l b d).delaySum = 0 := rfl
@[simp] theorem blockEff_delaySum (n : Nat) (d : BlkDraw) : (blockEff l n d).delaySum = 0 := rfl
@[simp] theorem delayEff_delaySum (ms : Nat) : (delayEff ms).delaySum = ms := rfl
@[simp] theorem pinEff_delaySum (pin : Pin) (v : Bool) : (pinEff pin v).delaySum = 0 := rfl

@[simp] theorem rmwEff_delaySum (f : Byte → Byte) (d : RmwDraw) : (rmwEff l f d).delaySum = 0 := by
  rw [Effect.delaySum_eq_offBus, rmwEff_offBus]
  rfl

@[simp] theorem setEff_delaySum (m : Byte) (d : RmwDraw) : (setEff l m d).delaySum = 0 := rmwEff_delaySum _ _ _
@[simp] theorem clrEff_delaySum (m : Byte) (d : RmwDraw) : (clrEff l m d).delaySum = 0 := rmwEff_delaySum _ _ _

/-! ### AUX (42_aux.md R144) -/

@[simp] theorem auxPollEff_delaySum (d : RdDraw) : (auxPollEff p d).delaySum = 2 := rfl

@[simp] theorem auxPollsEff_delaySum (ds : List RdDraw) : (auxPollsEff p ds).delaySum = 2 * ds.length := by
  induction ds with
  | nil => rfl
  | cons d ds ih =>
    rw [auxPollsEff, Effect.delaySum_seq, auxPollEff_delaySum, ih, List.length_cons]
    omega

/-- At most 150 polls, each with 2 ms before it. -/
theorem waitEff_delaySum_le {d : WaitDraw} (h : d.legal p = true) : (waitEff p d).delaySum ≤ 300 := by
  obtain ⟨pending, fin⟩ := d
  simp only [waitEff, Effect.delaySum_seq, auxPollsEff_delaySum]
  cases fin with
  | timeout =>
    have hlen : pending.length = 150 := by simpa using (Bool.and_eq_true_iff.mp h).2
    simp [waitEndEff, hlen]
  | clear wa b r =>
    have hlen : pending.length < 150 := of_decide_eq_true (Bool.and_eq_true_iff.mp (Bool.and_eq_true_iff.mp h).2).1
    have hend : (waitEndEff p (.clear wa b r)).delaySum = 2 := rfl
    omega

@[simp] theorem auxWriteEff_delaySum (o : Byte) (d : AuxWriteDraw) :
    (auxWriteEff p o d).delaySum = (waitEff p d.wait).delaySum := by simp [auxWriteEff]

@[simp] theorem auxReadEff_delaySum (c : Byte) (d : AuxReadDraw) :
    (auxReadEff p c d).delaySum = (waitEff p d.wait).delaySum := by simp [auxReadEff]

@[simp] theorem addrEff_delaySum (dev : Byte) (d : AddrDraw) :
    (addrEff p dev d).delaySum = (waitEff p d.wait).delaySum := by simp [addrEff]

@[simp] theorem auxResetEff_delaySum (d : PulseDraw) : (auxResetEff p d).delaySum = 0 := by simp [auxResetEff]

/-! ### EDID (43_edid.md R160, R162, R165, R170) -/

@[simp] theorem initEff_delaySum (d : InitDraw) : (initEff p d).delaySum = 0 := by simp [initEff]

theorem countEff_delaySum_le {d : CountDraw} (h : d.legal p = true) : (countEff p d).delaySum ≤ 600 := by
  obtain ⟨hw, hr⟩ := Bool.and_eq_true_iff.mp h
  have hwrite := waitEff_delaySum_le p hw
  have hread := waitEff_delaySum_le p hr
  simp only [countEff, Effect.delaySum_seq, auxWriteEff_delaySum, auxReadEff_delaySum, readEff_delaySum]
  omega

/-- One attempt is two AUX ops. -/
theorem attemptEff_delaySum_le (o : Byte) {w : AuxWriteDraw} {r : AuxReadDraw} (hw : w.wait.legal p = true)
    (hr : r.wait.legal p = true) : (attemptEff p o w r).delaySum ≤ 600 := by
  have hwrite := waitEff_delaySum_le p hw
  have hread := waitEff_delaySum_le p hr
  simp only [attemptEff, Effect.delaySum_seq, auxWriteEff_delaySum, auxReadEff_delaySum]
  omega

theorem echoesEff_delaySum_le (o : Byte) {ds : List EchoDraw} (h : ds.all (EchoDraw.legal p) = true) :
    (echoesEff p o ds).delaySum ≤ 600 * ds.length := by
  induction ds with
  | nil => exact Nat.zero_le _
  | cons d ds ih =>
    rw [List.all_cons, Bool.and_eq_true] at h
    obtain ⟨hd, hds⟩ := h
    simp only [EchoDraw.legal, Bool.and_eq_true] at hd
    obtain ⟨⟨hw, hr⟩, _⟩ := hd
    have hattempt := attemptEff_delaySum_le p o hw hr
    have hrest := ih hds
    simp only [echoesEff, Effect.delaySum_seq, auxResetEff_delaySum, List.length_cons]
    omega

theorem lastEff_delaySum_le (o : Byte) {d : LastDraw} (h : d.legal p = true) : (lastEff p o d).delaySum ≤ 600 := by
  simp only [LastDraw.legal, Bool.and_eq_true] at h
  obtain ⟨⟨hw, hr⟩, _⟩ := h
  have hattempt := attemptEff_delaySum_le p o hw hr
  rw [lastEff, Effect.delaySum_seq]
  split <;> simpa using hattempt

/-- At most 3 attempts. -/
theorem chunkEff_delaySum_le (o : Byte) {d : ChunkDraw} (h : d.legal p = true) : (chunkEff p o d).delaySum ≤ 1800 := by
  obtain ⟨echoes, last⟩ := d
  obtain ⟨hall, hlast⟩ := Bool.and_eq_true_iff.mp h
  have hechoes := echoesEff_delaySum_le p o (ds := echoes) hall
  rw [chunkEff, Effect.delaySum_seq]
  cases last with
  | none =>
    have hlen : echoes.length = 3 := of_decide_eq_true hlast
    simp only [Effect.delaySum_nil]
    omega
  | some f =>
    obtain ⟨hlt, hf⟩ := Bool.and_eq_true_iff.mp hlast
    have hlen : echoes.length < 3 := of_decide_eq_true hlt
    have hfinal := lastEff_delaySum_le p o hf
    dsimp only
    omega

/-- Two AUX ops of setup, and the chunk. -/
theorem segEff_delaySum_le (g o : Byte) {d : SegDraw} (h : d.legal p = true) :
    (segEff p g o d).delaySum ≤ 600 + 1800 := by
  obtain ⟨addr, write, dev, chunk⟩ := d
  obtain ⟨hsetup, hchunk⟩ := Bool.and_eq_true_iff.mp h
  obtain ⟨ha, hw⟩ := Bool.and_eq_true_iff.mp hsetup
  have haddr := waitEff_delaySum_le p (d := addr.wait) ha
  have hwrite := waitEff_delaySum_le p (d := write.wait) hw
  simp only [segEff, Effect.delaySum_seq, addrEff_delaySum, auxWriteEff_delaySum, writeEff_delaySum]
  cases chunk with
  | none =>
    simp only [Effect.delaySum_nil]
    omega
  | some c =>
    have hread := chunkEff_delaySum_le p o (Bool.and_eq_true_iff.mp hchunk).2
    dsimp only
    omega

/-- The most a chunk of a full read may take: groups 0 and 1, the chunks below 16, need no segment setup. -/
theorem pieceEff_delaySum_le {k : Nat} {d : PieceDraw} (h : d.legal p k = true) :
    (pieceEff p k d).delaySum ≤ if k < 16 then 1800 else 600 + 1800 := by
  cases d with
  | direct d =>
    obtain ⟨hk, hd⟩ := Bool.and_eq_true_iff.mp h
    have hgroup : k / 8 ≤ 1 := of_decide_eq_true hk
    rw [if_pos (by omega)]
    exact chunkEff_delaySum_le p _ hd
  | segment d =>
    obtain ⟨hk, hd⟩ := Bool.and_eq_true_iff.mp h
    have hgroup : 1 < k / 8 := of_decide_eq_true hk
    rw [if_neg (by omega)]
    exact segEff_delaySum_le p _ _ hd

/-- The chunks from `k` on take at most 1800 ms each, and 600 ms more for each one from chunk 16 on. -/
theorem piecesEff_delaySum_le {k : Nat} {ds : List PieceDraw} (h : piecesLegal p k ds = true) :
    (piecesEff p k ds).delaySum ≤ 1800 * ds.length + 600 * ((k + ds.length - 16) - (k - 16)) := by
  induction ds generalizing k with
  | nil => exact Nat.zero_le _
  | cons d ds ih =>
    simp only [piecesLegal, Bool.and_eq_true] at h
    obtain ⟨⟨hd, _⟩, hds⟩ := h
    have hpiece := pieceEff_delaySum_le p hd
    have hrest := ih hds
    simp only [piecesEff, Effect.delaySum_seq, List.length_cons]
    split at hpiece <;> omega

/-- At most 32 chunks, 16 of them by segment. -/
theorem fullEff_delaySum_le {d : FullDraw} (h : d.legal p = true) :
    (fullEff p d).delaySum ≤ 600 + 16 * 1800 + 16 * (600 + 1800) := by
  simp only [FullDraw.legal, Bool.and_eq_true, decide_eq_true_eq] at h
  obtain ⟨⟨⟨⟨_, hcount⟩, hpieces⟩, hlen⟩, _⟩ := h
  have hblocks : d.blocks.toNat ≤ 3 := edidClamp_le _
  have hc := countEff_delaySum_le p hcount
  have hp := piecesEff_delaySum_le p hpieces
  simp only [fullEff, Effect.delaySum_seq, initEff_delaySum, auxResetEff_delaySum]
  omega

/-! ### Video (45_video_config.md R229) -/

theorem strobeEff_delaySum (low high : RmwDraw) : (strobeEff p low high).delaySum = 1 := by
  rw [Effect.delaySum_eq_offBus, strobeEff_offBus]
  rfl

theorem videoEff_delaySum (x : Inputs) (c : PllCoeffs) (d : VideoDraw) : (videoEff p x c d).delaySum = 1 := by
  rw [Effect.delaySum_eq_offBus, videoEff_offBus]
  rfl

/-! ### Power and link (46_power_link.md R240-R247) -/

@[simp] theorem fwEff_delaySum (d : FwDraw) : (fwEff p d).delaySum = 0 := by
  unfold fwEff
  split <;> rfl

@[simp] theorem fwPollsEff_delaySum (ds : List FwDraw) : (fwPollsEff p ds).delaySum = ds.length := by
  induction ds with
  | nil => rfl
  | cons d ds ih => simp [fwPollsEff, ih, Nat.add_comm]

@[simp] theorem powerOnEff_delaySum : (powerOnEff p).delaySum = p.T_PWR_MS + p.T_RST_MS := rfl

@[simp] theorem powerDownEff_delaySum : (powerDownEff p).delaySum = p.T_OFF_MS := rfl

/-- The delays of a failed attempt: its power-on, its whole poll budget, and the power-down. -/
def attemptMs (p : Params) : Nat := p.T_PWR_MS + p.T_RST_MS + p.FW_POLL_MAX + p.T_OFF_MS

theorem failedEff_delaySum {as : List (List FwDraw)} (h : as.all (failedLegal p) = true) :
    (failedEff p as).delaySum = as.length * attemptMs p := by
  induction as with
  | nil => rw [List.length_nil, Nat.zero_mul]; rfl
  | cons a as ih =>
    rw [List.all_cons, Bool.and_eq_true] at h
    obtain ⟨ha, has⟩ := h
    have hlen : a.length = p.FW_POLL_MAX := of_decide_eq_true (Bool.and_eq_true_iff.mp ha).2
    simp only [failedEff, Effect.delaySum_seq, powerOnEff_delaySum, fwPollsEff_delaySum, powerDownEff_delaySum, ih has,
      hlen, List.length_cons, Nat.succ_mul, attemptMs]
    omega

/-- The attempt that succeeds waits less than a failed one. -/
theorem readyEff_delaySum_le {d : ReadyDraw} {vr : Byte × Byte} (h : d.legal p vr = true) :
    (readyEff p d).delaySum ≤ attemptMs p := by
  simp only [ReadyDraw.legal, Bool.and_eq_true, decide_eq_true_eq] at h
  obtain ⟨⟨_, hlen⟩, _⟩ := h
  simp only [readyEff, Effect.delaySum_seq, powerOnEff_delaySum, fwPollsEff_delaySum, fwEff_delaySum, attemptMs]
  omega

@[simp] theorem hpdPollEff_delaySum (d : RdDraw) : (hpdPollEff p d).delaySum = 10 := rfl

@[simp] theorem hpdPollsEff_delaySum (ds : List RdDraw) : (hpdPollsEff p ds).delaySum = 10 * ds.length := by
  induction ds with
  | nil => rfl
  | cons d ds ih =>
    rw [hpdPollsEff, Effect.delaySum_seq, hpdPollEff_delaySum, ih, List.length_cons]
    omega

theorem hpdEff_delaySum_le {d : HpdDraw} (h : d.legal p = true) : (hpdEff p d).delaySum ≤ 100000 := by
  have hlen : d.before.length < 10000 :=
    of_decide_eq_true (Bool.and_eq_true_iff.mp (Bool.and_eq_true_iff.mp h).1).2
  simp only [hpdEff, startEff, Effect.delaySum_seq, hpdPollsEff_delaySum, hpdPollEff_delaySum, clrEff_delaySum,
    setEff_delaySum]
  omega

end

/-! ## The delay ceilings (60_exceptions.md R276) -/

/-- Command `i` completes from `s` with an effect whose delays keep to the command's ceiling. -/
def EndsWithinCeiling (i : Instr) (s : State) : Prop :=
  ∃ x e r st c, e.delaySum ≤ delayCeiling s.params.params i ∧ exec i s = .next (s.completed x e r st c)

section
variable {i : Instr} {s t : State} {x : Side} {e : Effect} {r : Results} {st : PState} {c : Code}

theorem EndsWithinCeiling.of_exec (h : exec i s = .next (s.completed x e r st c))
    (he : e.delaySum ≤ delayCeiling s.params.params i) : EndsWithinCeiling i s := ⟨x, e, r, st, c, he, h⟩

theorem EndsWithinCeiling.of_refuses (h : Refuses (exec i s) s c) : EndsWithinCeiling i s := by
  obtain ⟨x, _, hrun⟩ := h
  exact .of_exec hrun (Nat.zero_le _)

theorem EndsWithinCeiling.timebase (h : EndsWithinCeiling i s) (he : exec i s = .next t) :
    s.timebase ≤ t.timebase ∧
      t.timebase ≤ s.timebase + delayCeiling s.params.params i * s.params.params.CLK_PER_MS := by
  obtain ⟨x, e, r, st, c, hsum, hrun⟩ := h
  obtain rfl := Host.Outcome.next.inj (hrun.symm.trans he)
  rw [State.completed_timebase]
  exact ⟨Nat.le_add_right _ _, Nat.add_le_add_left (Nat.mul_le_mul_right _ hsum) _⟩

theorem powerUp_endsWithinCeiling (hn : s.noReset = true) : EndsWithinCeiling .powerUp s := by
  by_cases hoff : s.pstate = .off
  · rcases powerUpCompletes s hn hoff with ⟨as, x, hlen, hall, _, h⟩ | ⟨as, d, vr, x, hlen, hall, hready, _, h⟩
    · exact .of_exec h (by rw [failedEff_delaySum _ hall, hlen]; rfl)
    · have hfailed : as.length * attemptMs s.params.params ≤ 2 * attemptMs s.params.params :=
        Nat.mul_le_mul_right _ (Nat.le_of_lt_succ hlen)
      have hlast := readyEff_delaySum_le _ hready
      have hceiling : delayCeiling s.params.params .powerUp = 3 * attemptMs s.params.params := rfl
      refine .of_exec h ?_
      rw [Effect.delaySum_seq, failedEff_delaySum _ hall, hceiling]
      omega
  · exact .of_refuses ((statePreconditions.1 s hn).1 hoff)

theorem waitHpd_endsWithinCeiling (hn : s.noReset = true) : EndsWithinCeiling .waitHpd s := by
  by_cases hloaded : s.pstate = .firmwareLoaded
  · rcases waitHpdCompletes s hn hloaded with ⟨d, x, hlegal, _, h⟩ | ⟨ds, x, hlen, _, _, h⟩
    · exact .of_exec h (hpdEff_delaySum_le _ hlegal)
    · exact .of_exec h (by rw [hpdPollsEff_delaySum, hlen]; exact Nat.le_refl _)
  · exact .of_refuses ((statePreconditions.1 s hn).2.1 hloaded)

theorem powerOff_endsWithinCeiling (hn : s.noReset = true) : EndsWithinCeiling .powerOff s := by
  by_cases hacc : s.pstate = .firmwareLoaded ∨ s.pstate = .linkReady
  · obtain ⟨x, _, h⟩ := powerOffCompletes s hn hacc
    exact .of_exec h (Nat.le_refl _)
  · obtain ⟨hloaded, hready⟩ := not_or.mp hacc
    exact .of_refuses ((statePreconditions.1 s hn).2.2 hloaded hready)

/-- The delays of each command, from the effect that it completes with. -/
theorem exec_endsWithinCeiling (hn : s.noReset = true) (i : Instr) : EndsWithinCeiling i s := by
  cases i with
  | nop =>
    obtain ⟨x, _, h⟩ := nopCompletes.2.2 s hn
    exact .of_exec h (Nat.le_refl 0)
  | regRead sa off =>
    obtain ⟨d, x, _, h⟩ := regRead_completed hn sa off
    exact .of_exec h (readEff_delaySum _ d).le
  | regWrite sa off v =>
    obtain ⟨d, x, _, h⟩ := regWrite_completed hn sa off v
    exact .of_exec h (writeEff_delaySum _ v d).le
  | regReadBlock sa off len =>
    by_cases hlen : 1 ≤ len.toNat ∧ len.toNat ≤ 16
    · obtain ⟨d, x, _, h⟩ := regReadBlockCompletes sa off len s hn hlen.1 hlen.2
      exact .of_exec h (blockEff_delaySum _ _ d).le
    · exact .of_refuses (illegalCommandsAreRefused.2 sa off len s hn (by omega))
  | regSet sa off m =>
    obtain ⟨d, x, _, h⟩ := (regSetAndRegClrComplete sa off m s hn).1
    exact .of_exec h (setEff_delaySum _ m d).le
  | regClr sa off m =>
    obtain ⟨d, x, _, h⟩ := (regSetAndRegClrComplete sa off m s hn).2
    exact .of_exec h (clrEff_delaySum _ m d).le
  | auxWrite o =>
    obtain ⟨d, x, hlegal, _, h⟩ := (auxWriteAndAuxReadComplete s hn).1 o
    exact .of_exec h ((auxWriteEff_delaySum _ o d).trans_le (waitEff_delaySum_le _ hlegal))
  | auxRead k =>
    obtain ⟨d, x, hlegal, _, h⟩ := (auxWriteAndAuxReadComplete s hn).2 k
    exact .of_exec h ((auxReadEff_delaySum _ k d).trans_le (waitEff_delaySum_le _ hlegal))
  | auxReset =>
    obtain ⟨d, x, _, h⟩ := auxResetCompletes s hn
    exact .of_exec h (auxResetEff_delaySum _ d).le
  | edidBlockCount =>
    obtain ⟨d, x, hlegal, _, h⟩ := edidBlockCountCompletes.2 s hn
    exact .of_exec h (countEff_delaySum_le _ hlegal)
  | edidReadChunk o =>
    obtain ⟨d, x, hlegal, _, h⟩ := (edidReadChunkAndSegmentComplete o s hn).1
    exact .of_exec h (chunkEff_delaySum_le _ o hlegal)
  | edidReadSegment g o =>
    obtain ⟨d, x, hlegal, _, h⟩ := (edidReadChunkAndSegmentComplete o s hn).2 g
    exact .of_exec h (segEff_delaySum_le _ g o hlegal)
  | edidReadFull =>
    rcases edidReadFullCompletes s hn with ⟨d, x, _, _, h⟩ | ⟨d, x, hlegal, _, h⟩
    · exact .of_exec h ((initEff_delaySum _ d).trans_le (Nat.zero_le _))
    · exact .of_exec h (fullEff_delaySum_le _ hlegal)
  | pllSolve =>
    obtain ⟨x, _, h⟩ := pllSolveCompletes s hn
    split at h <;> exact .of_exec h (Nat.le_refl 0)
  | videoConfig =>
    obtain ⟨hsolved, hrange⟩ := videoConfigCompletes s hn
    cases hc : pllSolve s.params.params (s.inputs.tPixclkKhz.toNat * 1000) with
    | none =>
      obtain ⟨x, _, h⟩ := hrange hc
      exact .of_exec h (Nat.zero_le _)
    | some c =>
      obtain ⟨d, x, _, _, h⟩ := hsolved c hc
      exact .of_exec h (videoEff_delaySum _ _ c d).le
  | mnStrobe =>
    obtain ⟨low, high, x, _, h⟩ := mnStrobeCompletes s hn
    exact .of_exec h (strobeEff_delaySum _ low high).le
  | powerUp => exact powerUp_endsWithinCeiling hn
  | waitHpd => exact waitHpd_endsWithinCeiling hn
  | powerRole =>
    obtain ⟨d, x, _, h⟩ := powerRoleCompletes s hn
    exact .of_exec h (readEff_delaySum _ d).le
  | powerOff => exact powerOff_endsWithinCeiling hn

end

/-- Settles O59: a completed command moves the timebase by its effect's delays, and these keep to the ceiling. -/
theorem delayCeilings : Obligations.DelayCeilings := fun i _ _ hn he => (exec_endsWithinCeiling hn i).timebase he

end Sys2Proof.Machine

/-! The statements of 70_reset_and_hazards.md: the values a reset leaves (R291, R293), and the command that a reset
abandons before its first event (R292). -/

namespace Sys2Proof.Machine

/-! ## What a reset leaves (70_reset_and_hazards.md R291, R293) -/

/-- EDID_BUF, whose contents are drawn afresh (10_state.md R57), is the one register in which two resets can differ. -/
theorem readReg_engineReset {r : HostReg} (hr : ∀ k, r ≠ .edidBuf k) (s : State) :
    readReg r s.engineReset = readReg r State.reset := by
  cases r with
  | edidBuf k => exact absurd rfl (hr k)
  | _ => rfl

theorem readReg_reset {r : HostReg} (hr : ∀ k, r ≠ .edidBuf k) :
    readReg r State.reset = if r = .edidSize then 0x200 else 0 := by
  cases r with
  | edidBuf k => exact absurd rfl (hr k)
  | dbuf k => clear hr; revert k; decide
  | _ => decide

/-- Settles O1: the registers read as in the reset state, and the other fields are the reset's by definition. -/
theorem resetLeavesTheListedValues : Obligations.ResetLeavesTheListedValues := by
  refine ⟨fun s a ha => ⟨(readReg_engineReset ha s).trans (readReg_reset ha), readReg_reset ha⟩, fun s => ?_, ?_⟩
  · exact ⟨rfl, rfl, rfl, rfl, rfl, rfl, rfl, rfl, fun _ => rfl, rfl, rfl⟩
  · exact ⟨rfl, rfl, rfl, rfl, rfl, rfl, rfl, rfl, fun _ => rfl, rfl⟩

/-! ## A reset before the first event (70_reset_and_hazards.md R292)

Every event, and the commit, comes after a point where the host may act. So while a reset is due a command's rule can
only change what the reset discards, up to the first such point, and there it is abandoned. `Kept` cannot say this: it
takes the events apart from the points before them. -/

/-- The host's next act is a reset. -/
def State.resetDue (s : State) : Prop := s.host.head? = some .reset

/-- The due reset has not been passed: it would leave what it would have left in `s`. -/
def ResetAhead (s t : State) : Prop := s.resetDue → t.engineReset = s.engineReset

/-- The due reset was taken in `s`. -/
def ResetTaken (s t : State) : Prop := s.resetDue → t = (s.setHost s.host.tail).engineReset

/-- While a reset is due, the procedure changes only what the reset discards, or is abandoned. -/
abbrev Heeds (α : Type) (x : Proc α) : Prop := Rel ResetAhead ResetTaken α x

/-- The procedure does not end while a reset is due: it is abandoned. -/
abbrev Stops (α : Type) (x : Proc α) : Prop := Rel (fun s _ => ¬s.resetDue) ResetTaken α x

section
variable {α β : Type} {x : Proc α} {f : α → Proc β} {p : Params} {s t u : State}

theorem ResetAhead.host_eq (h : ResetAhead s t) (hs : s.resetDue) : t.host = s.host := by
  simpa using congrArg State.host (h hs)

theorem ResetAhead.resetDue (h : ResetAhead s t) (hs : s.resetDue) : t.resetDue := by
  rw [State.resetDue, h.host_eq hs]
  exact hs

theorem ResetAhead.trans (h : ResetAhead s t) (h' : ResetAhead t u) : ResetAhead s u :=
  fun hs => (h' (h.resetDue hs)).trans (h hs)

theorem ResetAhead.taken (h : ResetAhead s t) (h' : ResetTaken t u) : ResetTaken s u := by
  intro hs
  rw [h' (h.resetDue hs), h.host_eq hs]
  exact congrArg (State.setHost s.host.tail) (h hs)

/-! ### Sequences -/

theorem rel_mono {R R' E : State → State → Prop} (hR : ∀ a b, R a b → R' a b) (hx : Rel R E α x) : Rel R' E α x := by
  intro s
  have h := hx s
  cases hr : x s with
  | ok a t => rw [hr] at h; exact hR _ _ h
  | error e t => rw [hr] at h; exact h

/-- `rel_bind` for parts that keep different relations. -/
theorem rel_seq {R S T E E' : State → State → Prop} (hT : ∀ a b c, R a b → S b c → T a c)
    (hE : ∀ a b c, R a b → E' b c → E a c) (hx : Rel R E α x) (hf : ∀ a, Rel S E' β (f a)) : Rel T E β (x >>= f) := by
  intro s
  have h := hx s
  rw [bind_apply]
  cases hr : x s with
  | error e t => rw [hr] at h; exact h
  | ok a t =>
    rw [hr] at h
    have h2 := hf a t
    show match f a t with
      | .ok _ u => T s u
      | .error _ u => E s u
    cases hft : f a t with
    | ok b u => rw [hft] at h2; exact hT _ _ _ h h2
    | error e u => rw [hft] at h2; exact hE _ _ _ h h2

theorem rel_true (x : Proc α) : Rel (fun _ _ => True) (fun _ _ => True) α x := by
  intro s
  cases x s <;> trivial

theorem Heeds.bind (hx : Heeds α x) (hf : ∀ a, Heeds β (f a)) : Heeds β (x >>= f) :=
  rel_bind (R := ResetAhead) (E := ResetTaken) (fun _ _ _ h => h.trans) (fun _ _ _ h => h.taken) hx hf

theorem Heeds.bind_stops (hx : Heeds α x) (hf : ∀ a, Stops β (f a)) : Stops β (x >>= f) :=
  rel_seq (R := ResetAhead) (S := fun s _ => ¬s.resetDue) (fun _ _ _ h hn hs => hn (h.resetDue hs))
    (fun _ _ _ h => h.taken) hx hf

/-- Nothing that would follow an abandoned procedure runs. -/
theorem Stops.bind (hx : Stops α x) : Stops β (x >>= f) :=
  rel_seq (fun _ _ _ hn _ => hn) (fun _ _ _ hn _ hs => absurd hs hn) hx fun a => rel_true (f a)

theorem Stops.heeds (hx : Stops α x) : Heeds α x := rel_mono (fun _ _ hn hs => absurd hs hn) hx

theorem heeds_getThen {f : State → Proc α} (hf : ∀ s, Heeds α (f s)) : Heeds α (get >>= f) :=
  Heeds.bind (x := get) (fun _ _ => rfl) hf

theorem heeds_pure (a : α) : Heeds α (pure a) := fun _ _ => rfl

/-! ### The primitives -/

theorem stops_window : Stops Unit hostWindow := by
  intro s
  have hreset : s.resetDue → hostWindow s = .error .reset (s.setHost s.host.tail).engineReset :=
    fun hs => hostWindow_reset (List.cons_head?_tail hs).symm
  cases hw : hostWindow s with
  | ok u t =>
    intro hs
    rw [hreset hs] at hw
    cases hw
  | error e t =>
    intro hs
    rw [hreset hs] at hw
    cases hw
    rfl

theorem stops_finish (c : Code) : Stops Unit (finish c) := stops_window.bind

theorem stops_delay (ms : Nat) : Stops Unit (delay p ms) := stops_window.bind

theorem stops_gpioSet (pin : Pin) (v : Bool) : Stops Unit (gpioSet pin v) := stops_window.bind

theorem stops_setPState (x : PState) : Stops Unit (setPState x) := stops_window.bind

theorem stops_busW (sa : Byte) (bytes : List Byte) : Stops Bool (busW sa bytes) := stops_window.bind

theorem stops_busWR (sa : Byte) (wb : List Byte) (n : Nat) : Stops (Option (List Byte)) (busWR sa wb n) :=
  stops_window.bind

theorem heeds_modify {f : State → State} (hf : ∀ s, (f s).engineReset = s.engineReset) : Heeds PUnit (modify f) :=
  fun s _ => hf s

theorem heeds_raiseFlags (a : Acc) : Heeds Unit (raiseFlags a) := heeds_modify fun _ => rfl

theorem heeds_writeShadow (f : Results → Results) : Heeds Unit (writeShadow f) := heeds_modify fun _ => rfl

theorem heeds_setRdata (v : Word) : Heeds Unit (setRdata v) := heeds_writeShadow _

theorem heeds_setPll (c : PllCoeffs) : Heeds Unit (setPll c) := heeds_writeShadow _

theorem heeds_setPoll (i : Nat) : Heeds Unit (setPoll i) := heeds_modify fun _ => rfl

theorem heeds_setAttempt (i : Nat) : Heeds Unit (setAttempt i) := heeds_modify fun _ => rfl

theorem heeds_refuse (c : Code) : Heeds Code (refuse c) :=
  (heeds_raiseFlags _).bind fun _ => (heeds_setRdata 0).bind fun _ => heeds_pure c

/-! ### Register procedures -/

theorem heeds_workaround (sa : Byte) : Heeds Unit (workaround p sa) := by
  intro s
  rw [workaround_apply]
  by_cases hl : s.la.valid = true ∧ s.la.sa = sa
  · rw [if_pos hl]
    exact fun _ => rfl
  · rw [if_neg hl]
    have hb := stops_busW sa [waOffset p sa, Config.WA_VALUE] (s.setLa sa)
    cases hw : busW sa [waOffset p sa, Config.WA_VALUE] (s.setLa sa) with
    | ok ok t => rw [hw] at hb; exact fun hs => absurd hs hb
    | error e t => rw [hw] at hb; exact hb

theorem stops_regRead (l : Loc) : Stops (Option Byte) (regRead p l) :=
  (heeds_workaround l.sa).bind_stops fun _ => (stops_busWR _ _ _).bind

theorem stops_regWrite (l : Loc) (v : Byte) : Stops Bool (regWrite p l v) :=
  (heeds_workaround l.sa).bind_stops fun _ => (stops_busW _ _).bind

theorem stops_regReadBlock (l : Loc) (n : Nat) : Stops (Option (List Byte)) (regReadBlock p l n) :=
  (heeds_workaround l.sa).bind_stops fun _ => (stops_busWR _ _ _).bind

theorem stops_regSet (l : Loc) (m : Byte) : Stops Rmw (regSet p l m) := (stops_regRead l).bind

theorem stops_regClr (l : Loc) (m : Byte) : Stops Rmw (regClr p l m) := (stops_regRead l).bind

theorem stops_regWriteAll_cons (w : Loc × Byte) (ws : List (Loc × Byte)) : Stops Unit (regWriteAll p (w :: ws)) :=
  (stops_regWrite w.1 w.2).bind

/-! ### The commands and their parts -/

theorem heeds_cmdNop : Heeds Code cmdNop := (heeds_setRdata 0).bind fun _ => heeds_pure _

theorem heeds_cmdRegReadBlock (sa off len : Byte) : Heeds Code (cmdRegReadBlock p sa off len) := by
  unfold cmdRegReadBlock
  split
  · exact (stops_regReadBlock _ _).bind.heeds
  · exact heeds_refuse _

theorem stops_auxWrite (offset : Byte) : Stops (AuxRes × Nat) (auxWrite p offset) := (stops_regWrite _ _).bind

theorem stops_auxRead (cmd : Byte) : Stops (AuxRes × Nat) (auxRead p cmd) := (stops_regWrite _ _).bind

theorem stops_auxAddrOnly (dev : Byte) : Stops (AuxRes × Nat) (auxAddrOnly p dev) := (stops_regWrite _ _).bind

theorem stops_auxReset : Stops Bool (auxReset p) := (stops_regSet _ _).bind

theorem stops_blockCount : Stops (Byte × Byte) (blockCount p) := (stops_auxWrite _).bind

theorem stops_edidSegChunk (seg offset : Byte) : Stops Chunk (edidSegChunk p seg offset) := (stops_auxAddrOnly _).bind

theorem stops_edidInit : Stops Bool (edidInit p) := (stops_regWrite _ _).bind

theorem stops_edidAttempts (offset : Byte) (n t : Nat) : Stops Chunk (edidAttempts p offset (n + 1) t) :=
  (heeds_setAttempt t).bind_stops fun _ => (stops_auxWrite offset).bind

theorem stops_edidChunk (offset : Byte) : Stops Chunk (edidChunk p offset) := stops_edidAttempts offset 2 1

theorem heeds_cmdPllSolve : Heeds Code (cmdPllSolve p) := by
  refine heeds_getThen fun s => (heeds_setRdata 0).bind fun _ => ?_
  cases pllSolve p s.inputs.pllClkHz.toNat with
  | none => exact heeds_pure _
  | some c => exact (heeds_setPll c).bind fun _ => heeds_pure _

theorem stops_programPixclk (pixclk : Nat) : Stops Unit (programPixclk p pixclk) := stops_regWriteAll_cons _ _

theorem stops_mnStrobe : Stops Unit (mnStrobe p) := (stops_regClr _ _).bind

theorem heeds_cmdVideoConfig : Heeds Code (cmdVideoConfig p) := by
  refine heeds_getThen fun s => (heeds_setRdata 0).bind fun _ => ?_
  cases pllSolve p (s.inputs.tPixclkKhz.toNat * 1000) with
  | none => exact heeds_pure _
  | some c => exact (heeds_setPll c).bind fun _ => (stops_programPixclk _).bind.heeds

theorem stops_powerOn : Stops Unit (powerOn p) := (stops_setPState _).bind

theorem stops_powerDown : Stops Unit (powerDown p) := (stops_gpioSet _ _).bind

theorem stops_powerAttempts (n a : Nat) : Stops Code (powerAttempts p (n + 1) a) :=
  (heeds_setAttempt a).bind_stops fun _ => stops_powerOn.bind

theorem heeds_cmdPowerUp : Heeds Code (cmdPowerUp p) := by
  refine heeds_getThen fun s => ?_
  split
  · exact heeds_refuse _
  · exact (stops_powerAttempts 2 1).heeds

theorem stops_hpdPolls (n i : Nat) : Stops Code (hpdPolls p (n + 1) i) :=
  (heeds_setPoll i).bind_stops fun _ => (stops_delay _).bind

theorem heeds_cmdWaitHpd : Heeds Code (cmdWaitHpd p) := by
  refine heeds_getThen fun s => ?_
  split
  · exact heeds_refuse _
  · exact (stops_hpdPolls 9999 1).heeds

theorem heeds_cmdPowerOff : Heeds Code (cmdPowerOff p) := by
  refine heeds_getThen fun s => ?_
  split
  · exact heeds_refuse _
  · exact stops_powerDown.bind.heeds

theorem heeds_cmdEdidReadFull : Heeds Code (cmdEdidReadFull p) := heeds_getThen fun _ => stops_edidInit.bind.heeds

end

/-! ### Every command -/

/-- Every command is a rule that heeds a due reset: no event of it comes before its first host window. -/
theorem exec_heeds (i : Instr) :
    ∃ body : Params → Proc Code, (∀ s, exec i s = runCommand body s) ∧ ∀ p, Heeds Code (body p) := by
  cases i with
  | nop => exact ⟨fun _ => cmdNop, fun _ => rfl, fun _ => heeds_cmdNop⟩
  | regRead sa off => exact ⟨fun p => cmdRegRead p sa off, fun _ => rfl, fun _ => (stops_regRead _).bind.heeds⟩
  | regWrite sa off v => exact ⟨fun p => cmdRegWrite p sa off v, fun _ => rfl, fun _ => (stops_regWrite _ _).bind.heeds⟩
  | regReadBlock sa off len =>
    exact ⟨fun p => cmdRegReadBlock p sa off len, fun _ => rfl, fun _ => heeds_cmdRegReadBlock sa off len⟩
  | regSet sa off m => exact ⟨fun p => cmdRegSet p sa off m, fun _ => rfl, fun _ => (stops_regSet _ _).bind.heeds⟩
  | regClr sa off m => exact ⟨fun p => cmdRegClr p sa off m, fun _ => rfl, fun _ => (stops_regClr _ _).bind.heeds⟩
  | auxWrite o => exact ⟨fun p => cmdAuxWrite p o, fun _ => rfl, fun _ => (stops_auxWrite o).bind.heeds⟩
  | auxRead k => exact ⟨fun p => cmdAuxRead p k, fun _ => rfl, fun _ => (stops_auxRead k).bind.heeds⟩
  | auxReset => exact ⟨cmdAuxReset, fun _ => rfl, fun _ => stops_auxReset.bind.heeds⟩
  | edidBlockCount => exact ⟨cmdEdidBlockCount, fun _ => rfl, fun _ => stops_blockCount.bind.heeds⟩
  | edidReadChunk o => exact ⟨fun p => cmdEdidReadChunk p o, fun _ => rfl, fun _ => (stops_edidChunk o).bind.heeds⟩
  | edidReadSegment g o =>
    exact ⟨fun p => cmdEdidReadSegment p g o, fun _ => rfl, fun _ => (stops_edidSegChunk g o).bind.heeds⟩
  | edidReadFull => exact ⟨cmdEdidReadFull, fun _ => rfl, fun _ => heeds_cmdEdidReadFull⟩
  | pllSolve => exact ⟨cmdPllSolve, fun _ => rfl, fun _ => heeds_cmdPllSolve⟩
  | videoConfig => exact ⟨cmdVideoConfig, fun _ => rfl, fun _ => heeds_cmdVideoConfig⟩
  | mnStrobe => exact ⟨cmdMnStrobe, fun _ => rfl, fun _ => stops_mnStrobe.bind.heeds⟩
  | powerUp => exact ⟨cmdPowerUp, fun _ => rfl, fun _ => heeds_cmdPowerUp⟩
  | waitHpd => exact ⟨cmdWaitHpd, fun _ => rfl, fun _ => heeds_cmdWaitHpd⟩
  | powerRole => exact ⟨cmdPowerRole, fun _ => rfl, fun _ => (stops_regRead _).bind.heeds⟩
  | powerOff => exact ⟨cmdPowerOff, fun _ => rfl, fun _ => heeds_cmdPowerOff⟩

/-- A rule that heeds a due reset is abandoned by it, at the commit's host window at the latest. -/
theorem runCommand_abandoned {body : Params → Proc Code} (hb : ∀ p, Heeds Code (body p)) {s : State}
    {rest : List HostInput} (h : s.host = .reset :: rest) :
    runCommand body s = .next (s.setHost rest).engineReset := by
  have hdue : s.start.resetDue := congrArg List.head? h
  have hstops := (hb s.params.params).bind_stops stops_finish s.start
  unfold runCommand
  cases hr : (body s.params.params >>= finish) s.start with
  | ok u t => rw [hr] at hstops; exact absurd hdue hstops
  | error e t =>
    rw [hr] at hstops
    rw [endState_error, hstops hdue, State.start_host, h]
    rfl

/-- Settles O17: every command's rule heeds a due reset, and one that does is abandoned by it. -/
theorem resetAbandonsTheCommand : Obligations.ResetAbandonsTheCommand := by
  intro i s rest h
  obtain ⟨body, hrun, hb⟩ := exec_heeds i
  rw [hrun, runCommand_abandoned hb h]

end Sys2Proof.Machine
